-- ==== Sys2Proof/Word.lean ====
section
/-! DEFINITION. The word types of the LAU: the 64-bit general and control register (00_scope.md R6, `XLEN`),
the 32-bit command word (30_encoding.md R80), and the limb width as one of the four widths R6 allows. -/

namespace Sys2Proof

/-- A general register or a control register: `XLEN` = 64 bits (00_scope.md R6). -/
abbrev Word := BitVec 64

/-- A command word (30_encoding.md R80, R81). -/
abbrev CmdWord := BitVec 32

/-- A byte of the model's memory cells; the spec itself has no access narrower than a limb (20_memory.md R60). -/
abbrev Byte := BitVec 8

/-- The limb width `W`: "a power of two, 8 ≤ W ≤ 64" (00_scope.md R6) leaves these four. -/
inductive LimbWidth where
  | w8 | w16 | w32 | w64
deriving DecidableEq, Repr

/-- `W / 8`, the bytes of one limb; whole because `W` is a multiple of 8 (00_scope.md R6). -/
def LimbWidth.bytes : LimbWidth → Nat
  | .w8 => 1
  | .w16 => 2
  | .w32 => 4
  | .w64 => 8

/-- `W`, the bits of one limb (00_scope.md R6). -/
def LimbWidth.bits (w : LimbWidth) : Nat := 8 * w.bytes

/-- `B = 2^W`, the limb radix (00_scope.md R6). -/
def LimbWidth.radix (w : LimbWidth) : Nat := 2 ^ w.bits

end Sys2Proof
end

