-- ==== Sys2Proof/Config.lean ====
section
/-! DEFINITION. What an implementation fixes (00_scope.md R6: `W`, `MEMLIMBS`, `SCRCAP`, `SCRNEED`) and the free values
that stand for every `unspecified` of the spec (00_scope.md R12). -/

namespace Sys2Proof

/-- The parameter `SCRNEED` of R6: the default table, or the `i`-th of an implementation's own functions (`Config.scrNeed` in
Machine/State.lean, which takes the command and what it reads). -/
inductive ScrTable where
  | default
  | own (i : Nat)
deriving DecidableEq, Repr

/-- The parameters of an LAU (00_scope.md R6). `memLimbs` is `MEMLIMBS`, held as the 64-bit word `PMEM` reads. -/
structure Params where
  limb : LimbWidth
  memLimbs : Word
  scrCap : Nat
  scrTable : ScrTable
deriving DecidableEq, Repr

/-- The constraint of R6 that the types do not carry: `1 ≤ MEMLIMBS`. -/
def Params.wf (p : Params) : Bool := decide (1 ≤ p.memLimbs.toNat)

/-- The reference instance of R6: `W` = 64, `MEMLIMBS` = 2^20, `SCRCAP` = 2^24, the default `SCRNEED`. -/
def Params.reference : Params where
  limb := .w64
  memLimbs := 0x100000
  scrCap := 0x1000000
  scrTable := .default

/-- `KCUT_RESET` (00_scope.md R6, 10_state.md R35). -/
def Config.kcutReset : Word := 8

/-- The constant of `LAUID`, "LAU1" in ASCII (10_state.md R30). -/
def Config.lauid : Word := 0x4C415531

/-- The byte an `unspecified` memory location holds (R12), by the number of the draw and the byte's place: reset memory
(U1), `LDIV1P` quotients (U4), packed coefficients (U5), unpacked stores (U6), transform leftovers (U8, U9). -/
opaque Config.freeByte : Nat → Nat → Byte

/-- The value of the remainder register after `LDIV1P` with a wrong reciprocal (93_implementation_defined.md U4). -/
opaque Config.freeWord : Nat → Word

/-- The length `BUNPACK` leaves when its destination was not zero (93_implementation_defined.md U6), before its bound. -/
opaque Config.freeLength : Nat → Nat

/-- The value taken for coefficient `i` of slot `k` when its header exceeds `LIMBS` (93_implementation_defined.md U7),
by the number of the draw, `k` and `i`, before its bound. -/
opaque Config.freeCoeff : Nat → Nat → Nat → Int

end Sys2Proof
end

