-- ==== Sys2Proof/Syntax.lean ====
section
/-! DEFINITION. The commands of the LAU: one constructor for each of the 41 rows of `spec/opcode_table.json`
(30_encoding.md R87, R88), operands in the order of R88's assembler form. -/

namespace Sys2Proof

/-- A general register index, 0 to 15 (30_encoding.md R82, kind x). -/
abbrev Reg := Fin 16

/-- A span slot index, 0 to 3 (R82, kind s). -/
abbrev SpanIx := Fin 4

/-- A CIP slot index, 0 to 3 (R82, kind p). -/
abbrev CipIx := Fin 4

/-- An FRP slot index, 0 to 3 (R82, kind f). -/
abbrev FrpIx := Fin 4

/-- A 12-bit control register number (10_state.md R29); it need not name a register. -/
abbrev CsrNum := BitVec 12

/-- The 16-bit immediate of format I (30_encoding.md R83, R85). -/
abbrev Imm16 := BitVec 16

/-- A command. `sgn` and `neg` are the flags `S` and `N` of the packers (30_encoding.md R85). -/
inductive Instr where
  | nop
  | seti (xd : Reg) (imm : Imm16)
  | shli (xd : Reg) (imm : Imm16)
  | csrr (xd : Reg) (csr : CsrNum)
  | csrw (csr : CsrNum) (xs : Reg)
  | ladd (sd sa sb : SpanIx)
  | lsub (sd sa sb : SpanIx)
  | lmul (sd sa sb : SpanIx)
  | ldivrem (sq sr sa sv : SpanIx)
  | lrecip (xd xs : Reg)
  | ldiv1p (sq sa : SpanIx) (xv xi xr : Reg)
  | lcopy (sd sa : SpanIx)
  | lclr (sd : SpanIx)
  | lcmp (xd : Reg) (sa sb : SpanIx)
  | pbits (xd xs : Reg) (pa : CipIx)
  | plimbs (xd xs : Reg) (pa : CipIx)
  | lpack (fd : FrpIx) (pa : CipIx) (xb xw : Reg) (sgn neg : Bool)
  | lunpack (pd : CipIx) (fa : FrpIx) (xb xw xc : Reg) (sgn neg : Bool)
  | bpack (fd : FrpIx) (pa : CipIx) (xb xw : Reg) (sgn neg : Bool)
  | bunpack (pd : CipIx) (fa : FrpIx) (xb xw xc : Reg) (sgn neg : Bool)
  | ypack (fd : FrpIx) (pa : CipIx) (xb xw : Reg) (sgn neg : Bool)
  | yunpack (pd : CipIx) (fa : FrpIx) (xb xw xc : Reg) (sgn neg : Bool)
  | fadd (fd fa fb : FrpIx)
  | fsub (fd fa fb : FrpIx)
  | fnorm (fd : FrpIx)
  | fpmul (fd fa fb : FrpIx)
  | fpsqr (fd fa : FrpIx)
  | frescale (fd : FrpIx)
  | fsetlen (fd : FrpIx) (xm : Reg)
  | flowern (fd : FrpIx) (xn : Reg)
  | fmulrho (fd : FrpIx) (xi xe : Reg)
  | fbfly (fd : FrpIx) (xi xj xe : Reg)
  | ibfly (fd : FrpIx) (xi xj xe : Reg)
  | fft (fd : FrpIx) (xm : Reg)
  | ifft (fd : FrpIx)
  | cconv (fd fa fb : FrpIx) (xm : Reg)
  | nconv (fd fa fb : FrpIx) (xm : Reg)
  | cmul (pd pa pb : CipIx)
  | kmul (pd pa pb : CipIx)
  | kmulT (pd pa pb : CipIx) (xt : Reg)
  | kmulTL (pd pa pb : CipIx) (xt : Reg)
deriving DecidableEq, Repr

end Sys2Proof
end

