-- ==== Sys2Proof/WellFormed.lean ====
section
/-! DEFINITION. Well-formed commands: those whose operands alone do not already make them `IllegalCommand` in every state
(60_exceptions.md R234: "an operand combination that no state of memory could make meaningful"). The operand fields'
own ranges (R82) are in the types of Syntax.lean, so every `Instr` has a legal command word; log entry 22. -/

namespace Sys2Proof

/-- A control register number that 10_state.md R36 lists, as the rule's closing sentence sums the table up. -/
def csrListed (c : CsrNum) : Bool :=
  let v := c.toNat
  decide (v ≤ 0x003) || (decide (0x010 ≤ v) && decide (v ≤ 0x014)) || (decide (0x100 ≤ v) && decide (v ≤ 0x107))
    || (decide (0x200 ≤ v) && decide (v ≤ 0x20F)) || (decide (0x300 ≤ v) && decide (v ≤ 0x31C) && decide (v % 8 ≤ 4))

/-- The read-only control registers: `LAUID`, `PW`, `PMEM`, `PSCR`, `ERR`, `CSEQ` (45_system_commands.md R224). -/
def csrReadOnly (c : CsrNum) : Bool :=
  let v := c.toNat
  decide (v ≤ 0x003) || decide (v = 0x010) || decide (v = 0x012)

/-- The static conditions on operands: a `CSRR` names a listed register, a `CSRW` a listed one that is not read-only
(R223, R224), and a butterfly two different index registers, since `i ≠ j` is asked of their contents (42_fermat_ring.md R164). -/
def Instr.wellFormed : Instr → Bool
  | .csrr _ c => csrListed c
  | .csrw c _ => csrListed c && !csrReadOnly c
  | .fbfly _ xi xj _ => decide (xi ≠ xj)
  | .ibfly _ xi xj _ => decide (xi ≠ xj)
  | .nop | .seti .. | .shli .. | .ladd .. | .lsub .. | .lmul .. | .ldivrem .. | .lrecip .. | .ldiv1p .. | .lcopy ..
  | .lclr .. | .lcmp .. | .pbits .. | .plimbs .. | .lpack .. | .lunpack .. | .bpack .. | .bunpack .. | .ypack ..
  | .yunpack .. | .fadd .. | .fsub .. | .fnorm .. | .fpmul .. | .fpsqr .. | .frescale .. | .fsetlen .. | .flowern ..
  | .fmulrho .. | .fft .. | .ifft .. | .cconv .. | .nconv .. | .cmul .. | .kmul .. | .kmulT .. | .kmulTL .. => true

end Sys2Proof
end

