-- ==== Sys2Proof/Decode.lean ====
section
/-! DEFINITION. The decoder and, after it, the encoder (30_encoding.md R81 to R89). Every 32-bit word is one command or is
rejected with the reason it is illegal (R86). -/

namespace Sys2Proof

/-- Why a word is illegal (30_encoding.md R86, R89). -/
inductive Illegal where
  /-- The opcode is not one of the 39 of R87. -/
  | unknownOpcode
  /-- A field the row gives as 0 is not 0. -/
  | unusedField
  /-- Bits 3:2 of a slot field are not 0. -/
  | slotField
  /-- A bit of `fn` the row does not use is not 0. -/
  | unusedFn
  /-- `KMUL` with `fn[1:0]` = 3. -/
  | kmulMode
deriving DecidableEq, Repr

/-- The 39 opcodes (R87). -/
inductive Opcode where
  | nop | seti | shli | csrr | csrw
  | ladd | lsub | lmul | ldivrem | lrecip | ldiv1p | lcopy | lclr | lcmp
  | pbits | plimbs | lpack | lunpack | bpack | bunpack | ypack | yunpack
  | fadd | fsub | fnorm | fpmul | fpsqr | frescale | fsetlen | flowern | fmulrho | fbfly | ibfly
  | fft | ifft | cconv | nconv
  | cmul | kmul
deriving DecidableEq, Repr

/-- The opcode map of R87. -/
def Opcode.code : Opcode → BitVec 8
  | .nop => 0x01 | .seti => 0x02 | .shli => 0x03 | .csrr => 0x04 | .csrw => 0x05
  | .ladd => 0x10 | .lsub => 0x11 | .lmul => 0x12 | .ldivrem => 0x13 | .lrecip => 0x14 | .ldiv1p => 0x15
  | .lcopy => 0x16 | .lclr => 0x17 | .lcmp => 0x18
  | .pbits => 0x20 | .plimbs => 0x21 | .lpack => 0x22 | .lunpack => 0x23 | .bpack => 0x24 | .bunpack => 0x25
  | .ypack => 0x26 | .yunpack => 0x27
  | .fadd => 0x30 | .fsub => 0x31 | .fnorm => 0x32 | .fpmul => 0x33 | .fpsqr => 0x34 | .frescale => 0x35
  | .fsetlen => 0x36 | .flowern => 0x37 | .fmulrho => 0x38 | .fbfly => 0x39 | .ibfly => 0x3A
  | .fft => 0x40 | .ifft => 0x41 | .cconv => 0x42 | .nconv => 0x43
  | .cmul => 0x50 | .kmul => 0x51

/-- The opcodes in the order of R87. -/
def Opcode.all : List Opcode :=
  [.nop, .seti, .shli, .csrr, .csrw, .ladd, .lsub, .lmul, .ldivrem, .lrecip, .ldiv1p, .lcopy, .lclr, .lcmp,
    .pbits, .plimbs, .lpack, .lunpack, .bpack, .bunpack, .ypack, .yunpack,
    .fadd, .fsub, .fnorm, .fpmul, .fpsqr, .frescale, .fsetlen, .flowern, .fmulrho, .fbfly, .ibfly,
    .fft, .ifft, .cconv, .nconv, .cmul, .kmul]

/-- The opcode a byte names, if any (R86 step 1). -/
def Opcode.ofCode (b : BitVec 8) : Option Opcode := Opcode.all.find? (fun o => decide (o.code = b))

/-- The fields of a command word, as format R cuts it (R82). -/
structure Fields where
  op : BitVec 8
  a : BitVec 4
  b : BitVec 4
  c : BitVec 4
  d : BitVec 4
  fn : BitVec 8
deriving DecidableEq, Repr

/-- Bits 31:24, 23:20, 19:16, 15:12, 11:8 and 7:0 (R82). -/
def Fields.ofWord (w : CmdWord) : Fields where
  op := w.extractLsb' 24 8
  a := w.extractLsb' 20 4
  b := w.extractLsb' 16 4
  c := w.extractLsb' 12 4
  d := w.extractLsb' 8 4
  fn := w.extractLsb' 0 8

/-- The word made of the fields (R82). -/
def Fields.word (f : Fields) : CmdWord := f.op ++ (f.a ++ (f.b ++ (f.c ++ (f.d ++ f.fn))))

/-- `imm16` = bits 15:0 (R83, R85). -/
def Fields.imm16 (f : Fields) : Imm16 := f.c ++ (f.d ++ f.fn)

/-- `csr` = bits 19:8 (R84). -/
def Fields.csr (f : Fields) : CsrNum := f.b ++ (f.c ++ f.d)

/-- A field of kind x: a general register index (R82). -/
def regField (x : BitVec 4) : Reg := x.toFin

/-- A field of kind s, p or f: bits 3:2 must be 0 (R82). -/
def slotField (x : BitVec 4) : Except Illegal (Fin 4) :=
  if h : x.toNat < 4 then .ok ⟨x.toNat, h⟩ else .error .slotField

/-- A field of kind 0 must be 0 (R82). -/
def zeroField (x : BitVec 4) : Except Illegal Unit := if x = 0 then .ok () else .error .unusedField

/-- `fn` unused: it must be 0 (R85). -/
def fnNone (fn : BitVec 8) : Except Illegal Unit := if fn = 0 then .ok () else .error .unusedFn

/-- `fn[3:0]` a register, `fn[7:4]` = 0 (R88, `LDIV1P`). -/
def fnReg (fn : BitVec 8) : Except Illegal Reg :=
  if fn.extractLsb' 4 4 = 0 then .ok (regField (fn.extractLsb' 0 4)) else .error .unusedFn

/-- `fn[4]` = S, `fn[5]` = N, the rest 0 (R88, the packers). -/
def fnFlags (fn : BitVec 8) : Except Illegal (Bool × Bool) :=
  if fn.extractLsb' 6 2 = 0 ∧ fn.extractLsb' 0 4 = 0 then .ok (fn.getLsbD 4, fn.getLsbD 5) else .error .unusedFn

/-- `fn[3:0]` a register, `fn[4]` = S, `fn[5]` = N, the rest 0 (R88, the unpackers). -/
def fnRegFlags (fn : BitVec 8) : Except Illegal (Reg × Bool × Bool) :=
  if fn.extractLsb' 6 2 = 0 then .ok (regField (fn.extractLsb' 0 4), fn.getLsbD 4, fn.getLsbD 5) else .error .unusedFn

/-- The operands of each opcode's row (R86 steps 2 and 3, R88). -/
def decodeOp (o : Opcode) (f : Fields) : Except Illegal Instr :=
  match o with
  | .nop => do zeroField f.a; zeroField f.b; zeroField f.c; zeroField f.d; fnNone f.fn; return .nop
  | .seti => do zeroField f.b; return .seti (regField f.a) f.imm16
  | .shli => do zeroField f.b; return .shli (regField f.a) f.imm16
  | .csrr => do fnNone f.fn; return .csrr (regField f.a) f.csr
  | .csrw => do fnNone f.fn; return .csrw f.csr (regField f.a)
  | .ladd => do
    let sd ← slotField f.a; let sa ← slotField f.b; let sb ← slotField f.c; zeroField f.d; fnNone f.fn
    return .ladd sd sa sb
  | .lsub => do
    let sd ← slotField f.a; let sa ← slotField f.b; let sb ← slotField f.c; zeroField f.d; fnNone f.fn
    return .lsub sd sa sb
  | .lmul => do
    let sd ← slotField f.a; let sa ← slotField f.b; let sb ← slotField f.c; zeroField f.d; fnNone f.fn
    return .lmul sd sa sb
  | .ldivrem => do
    let sq ← slotField f.a; let sr ← slotField f.b; let sa ← slotField f.c; let sv ← slotField f.d; fnNone f.fn
    return .ldivrem sq sr sa sv
  | .lrecip => do
    zeroField f.c; zeroField f.d; fnNone f.fn
    return .lrecip (regField f.a) (regField f.b)
  | .ldiv1p => do
    let sq ← slotField f.a; let sa ← slotField f.b; let xr ← fnReg f.fn
    return .ldiv1p sq sa (regField f.c) (regField f.d) xr
  | .lcopy => do
    let sd ← slotField f.a; let sa ← slotField f.b; zeroField f.c; zeroField f.d; fnNone f.fn
    return .lcopy sd sa
  | .lclr => do
    let sd ← slotField f.a; zeroField f.b; zeroField f.c; zeroField f.d; fnNone f.fn
    return .lclr sd
  | .lcmp => do
    let sa ← slotField f.b; let sb ← slotField f.c; zeroField f.d; fnNone f.fn
    return .lcmp (regField f.a) sa sb
  | .pbits => do
    let pa ← slotField f.c; zeroField f.d; fnNone f.fn
    return .pbits (regField f.a) (regField f.b) pa
  | .plimbs => do
    let pa ← slotField f.c; zeroField f.d; fnNone f.fn
    return .plimbs (regField f.a) (regField f.b) pa
  | .lpack => do
    let fd ← slotField f.a; let pa ← slotField f.b; let sn ← fnFlags f.fn
    return .lpack fd pa (regField f.c) (regField f.d) sn.1 sn.2
  | .lunpack => do
    let pd ← slotField f.a; let fa ← slotField f.b; let rsn ← fnRegFlags f.fn
    return .lunpack pd fa (regField f.c) (regField f.d) rsn.1 rsn.2.1 rsn.2.2
  | .bpack => do
    let fd ← slotField f.a; let pa ← slotField f.b; let sn ← fnFlags f.fn
    return .bpack fd pa (regField f.c) (regField f.d) sn.1 sn.2
  | .bunpack => do
    let pd ← slotField f.a; let fa ← slotField f.b; let rsn ← fnRegFlags f.fn
    return .bunpack pd fa (regField f.c) (regField f.d) rsn.1 rsn.2.1 rsn.2.2
  | .ypack => do
    let fd ← slotField f.a; let pa ← slotField f.b; let sn ← fnFlags f.fn
    return .ypack fd pa (regField f.c) (regField f.d) sn.1 sn.2
  | .yunpack => do
    let pd ← slotField f.a; let fa ← slotField f.b; let rsn ← fnRegFlags f.fn
    return .yunpack pd fa (regField f.c) (regField f.d) rsn.1 rsn.2.1 rsn.2.2
  | .fadd => do
    let fd ← slotField f.a; let fa ← slotField f.b; let fb ← slotField f.c; zeroField f.d; fnNone f.fn
    return .fadd fd fa fb
  | .fsub => do
    let fd ← slotField f.a; let fa ← slotField f.b; let fb ← slotField f.c; zeroField f.d; fnNone f.fn
    return .fsub fd fa fb
  | .fnorm => do
    let fd ← slotField f.a; zeroField f.b; zeroField f.c; zeroField f.d; fnNone f.fn
    return .fnorm fd
  | .fpmul => do
    let fd ← slotField f.a; let fa ← slotField f.b; let fb ← slotField f.c; zeroField f.d; fnNone f.fn
    return .fpmul fd fa fb
  | .fpsqr => do
    let fd ← slotField f.a; let fa ← slotField f.b; zeroField f.c; zeroField f.d; fnNone f.fn
    return .fpsqr fd fa
  | .frescale => do
    let fd ← slotField f.a; zeroField f.b; zeroField f.c; zeroField f.d; fnNone f.fn
    return .frescale fd
  | .fsetlen => do
    let fd ← slotField f.a; zeroField f.c; zeroField f.d; fnNone f.fn
    return .fsetlen fd (regField f.b)
  | .flowern => do
    let fd ← slotField f.a; zeroField f.c; zeroField f.d; fnNone f.fn
    return .flowern fd (regField f.b)
  | .fmulrho => do
    let fd ← slotField f.a; zeroField f.d; fnNone f.fn
    return .fmulrho fd (regField f.b) (regField f.c)
  | .fbfly => do
    let fd ← slotField f.a; fnNone f.fn
    return .fbfly fd (regField f.b) (regField f.c) (regField f.d)
  | .ibfly => do
    let fd ← slotField f.a; fnNone f.fn
    return .ibfly fd (regField f.b) (regField f.c) (regField f.d)
  | .fft => do
    let fd ← slotField f.a; zeroField f.c; zeroField f.d; fnNone f.fn
    return .fft fd (regField f.b)
  | .ifft => do
    let fd ← slotField f.a; zeroField f.b; zeroField f.c; zeroField f.d; fnNone f.fn
    return .ifft fd
  | .cconv => do
    let fd ← slotField f.a; let fa ← slotField f.b; let fb ← slotField f.c; fnNone f.fn
    return .cconv fd fa fb (regField f.d)
  | .nconv => do
    let fd ← slotField f.a; let fa ← slotField f.b; let fb ← slotField f.c; fnNone f.fn
    return .nconv fd fa fb (regField f.d)
  | .cmul => do
    let pd ← slotField f.a; let pa ← slotField f.b; let pb ← slotField f.c; zeroField f.d; fnNone f.fn
    return .cmul pd pa pb
  | .kmul => do
    let pd ← slotField f.a; let pa ← slotField f.b; let pb ← slotField f.c
    if f.fn = 0 then
      zeroField f.d
      return .kmul pd pa pb
    else if f.fn = 1 then return .kmulT pd pa pb (regField f.d)
    else if f.fn = 2 then return .kmulTL pd pa pb (regField f.d)
    else if f.fn = 3 then throw .kmulMode
    else throw .unusedFn

/-- Decoding of the cut word (R86). -/
def decodeFields (f : Fields) : Except Illegal Instr :=
  match Opcode.ofCode f.op with
  | none => .error .unknownOpcode
  | some o => decodeOp o f

/-- The decoder: total on all words; "every 32-bit word is either one command or illegal" (R86). -/
def decode (w : CmdWord) : Except Illegal Instr := decodeFields (Fields.ofWord w)

/-- The decoder on a row of the opcode table: the command whose word is the low `nbits` bits of `w`. -/
def decodeTableWord (nbits w : Nat) : Option Instr :=
  match decode (BitVec.ofNat 32 (w % 2 ^ nbits)) with
  | .ok i => some i
  | .error _ => none

/-! The encoder, from the rows of R88. -/

/-- A general register in a field of kind x. -/
def regBits (r : Reg) : BitVec 4 := BitVec.ofFin r

/-- A slot in a field of kind s, p or f. -/
def slotBits (k : Fin 4) : BitVec 4 := BitVec.ofNat 4 k.val

/-- The flags S and N in `fn[4]` and `fn[5]`, a register in `fn[3:0]` (R85). -/
def fnBits (r : BitVec 4) (sgn neg : Bool) : BitVec 8 := 0#2 ++ (BitVec.ofBool neg ++ (BitVec.ofBool sgn ++ r))

/-- A format R word. -/
def rFields (o : Opcode) (a b c d : BitVec 4) (fn : BitVec 8) : Fields := ⟨o.code, a, b, c, d, fn⟩

/-- A format I word (R83). -/
def iFields (o : Opcode) (a : BitVec 4) (imm : Imm16) : Fields :=
  ⟨o.code, a, 0, imm.extractLsb' 12 4, imm.extractLsb' 8 4, imm.extractLsb' 0 8⟩

/-- A format C word (R84). -/
def cFields (o : Opcode) (a : BitVec 4) (csr : CsrNum) : Fields :=
  ⟨o.code, a, csr.extractLsb' 8 4, csr.extractLsb' 4 4, csr.extractLsb' 0 4, 0⟩

/-- The fields of a command's word, row by row of R88. -/
def encodeFields : Instr → Fields
  | .nop => rFields .nop 0 0 0 0 0
  | .seti xd imm => iFields .seti (regBits xd) imm
  | .shli xd imm => iFields .shli (regBits xd) imm
  | .csrr xd c => cFields .csrr (regBits xd) c
  | .csrw c xs => cFields .csrw (regBits xs) c
  | .ladd sd sa sb => rFields .ladd (slotBits sd) (slotBits sa) (slotBits sb) 0 0
  | .lsub sd sa sb => rFields .lsub (slotBits sd) (slotBits sa) (slotBits sb) 0 0
  | .lmul sd sa sb => rFields .lmul (slotBits sd) (slotBits sa) (slotBits sb) 0 0
  | .ldivrem sq sr sa sv => rFields .ldivrem (slotBits sq) (slotBits sr) (slotBits sa) (slotBits sv) 0
  | .lrecip xd xs => rFields .lrecip (regBits xd) (regBits xs) 0 0 0
  | .ldiv1p sq sa xv xi xr => rFields .ldiv1p (slotBits sq) (slotBits sa) (regBits xv) (regBits xi) (fnBits (regBits xr) false false)
  | .lcopy sd sa => rFields .lcopy (slotBits sd) (slotBits sa) 0 0 0
  | .lclr sd => rFields .lclr (slotBits sd) 0 0 0 0
  | .lcmp xd sa sb => rFields .lcmp (regBits xd) (slotBits sa) (slotBits sb) 0 0
  | .pbits xd xs pa => rFields .pbits (regBits xd) (regBits xs) (slotBits pa) 0 0
  | .plimbs xd xs pa => rFields .plimbs (regBits xd) (regBits xs) (slotBits pa) 0 0
  | .lpack fd pa xb xw sgn neg => rFields .lpack (slotBits fd) (slotBits pa) (regBits xb) (regBits xw) (fnBits 0 sgn neg)
  | .lunpack pd fa xb xw xc sgn neg =>
    rFields .lunpack (slotBits pd) (slotBits fa) (regBits xb) (regBits xw) (fnBits (regBits xc) sgn neg)
  | .bpack fd pa xb xw sgn neg => rFields .bpack (slotBits fd) (slotBits pa) (regBits xb) (regBits xw) (fnBits 0 sgn neg)
  | .bunpack pd fa xb xw xc sgn neg =>
    rFields .bunpack (slotBits pd) (slotBits fa) (regBits xb) (regBits xw) (fnBits (regBits xc) sgn neg)
  | .ypack fd pa xb xw sgn neg => rFields .ypack (slotBits fd) (slotBits pa) (regBits xb) (regBits xw) (fnBits 0 sgn neg)
  | .yunpack pd fa xb xw xc sgn neg =>
    rFields .yunpack (slotBits pd) (slotBits fa) (regBits xb) (regBits xw) (fnBits (regBits xc) sgn neg)
  | .fadd fd fa fb => rFields .fadd (slotBits fd) (slotBits fa) (slotBits fb) 0 0
  | .fsub fd fa fb => rFields .fsub (slotBits fd) (slotBits fa) (slotBits fb) 0 0
  | .fnorm fd => rFields .fnorm (slotBits fd) 0 0 0 0
  | .fpmul fd fa fb => rFields .fpmul (slotBits fd) (slotBits fa) (slotBits fb) 0 0
  | .fpsqr fd fa => rFields .fpsqr (slotBits fd) (slotBits fa) 0 0 0
  | .frescale fd => rFields .frescale (slotBits fd) 0 0 0 0
  | .fsetlen fd xm => rFields .fsetlen (slotBits fd) (regBits xm) 0 0 0
  | .flowern fd xn => rFields .flowern (slotBits fd) (regBits xn) 0 0 0
  | .fmulrho fd xi xe => rFields .fmulrho (slotBits fd) (regBits xi) (regBits xe) 0 0
  | .fbfly fd xi xj xe => rFields .fbfly (slotBits fd) (regBits xi) (regBits xj) (regBits xe) 0
  | .ibfly fd xi xj xe => rFields .ibfly (slotBits fd) (regBits xi) (regBits xj) (regBits xe) 0
  | .fft fd xm => rFields .fft (slotBits fd) (regBits xm) 0 0 0
  | .ifft fd => rFields .ifft (slotBits fd) 0 0 0 0
  | .cconv fd fa fb xm => rFields .cconv (slotBits fd) (slotBits fa) (slotBits fb) (regBits xm) 0
  | .nconv fd fa fb xm => rFields .nconv (slotBits fd) (slotBits fa) (slotBits fb) (regBits xm) 0
  | .cmul pd pa pb => rFields .cmul (slotBits pd) (slotBits pa) (slotBits pb) 0 0
  | .kmul pd pa pb => rFields .kmul (slotBits pd) (slotBits pa) (slotBits pb) 0 0
  | .kmulT pd pa pb xt => rFields .kmul (slotBits pd) (slotBits pa) (slotBits pb) (regBits xt) 1
  | .kmulTL pd pa pb xt => rFields .kmul (slotBits pd) (slotBits pa) (slotBits pb) (regBits xt) 2

/-- The command word of a command (R88). -/
def encode (i : Instr) : CmdWord := (encodeFields i).word

/-! The opcode table, as `spec/opcode_table.json` and 30_encoding.md R88 print it. -/

/-- A row of the opcode table: a word is the row's command exactly when `(cw AND mask) = pattern` (R86, R88). -/
structure OpRow where
  mnemonic : String
  pattern : CmdWord
  mask : CmdWord
deriving DecidableEq, Repr

/-- The row of a command. -/
def Instr.row : Instr → OpRow
  | .nop => ⟨"NOP", 0x01000000, 0xFFFFFFFF⟩
  | .seti .. => ⟨"SETI", 0x02000000, 0xFF0F0000⟩
  | .shli .. => ⟨"SHLI", 0x03000000, 0xFF0F0000⟩
  | .csrr .. => ⟨"CSRR", 0x04000000, 0xFF0000FF⟩
  | .csrw .. => ⟨"CSRW", 0x05000000, 0xFF0000FF⟩
  | .ladd .. => ⟨"LADD", 0x10000000, 0xFFCCCFFF⟩
  | .lsub .. => ⟨"LSUB", 0x11000000, 0xFFCCCFFF⟩
  | .lmul .. => ⟨"LMUL", 0x12000000, 0xFFCCCFFF⟩
  | .ldivrem .. => ⟨"LDIVREM", 0x13000000, 0xFFCCCCFF⟩
  | .lrecip .. => ⟨"LRECIP", 0x14000000, 0xFF00FFFF⟩
  | .ldiv1p .. => ⟨"LDIV1P", 0x15000000, 0xFFCC00F0⟩
  | .lcopy .. => ⟨"LCOPY", 0x16000000, 0xFFCCFFFF⟩
  | .lclr .. => ⟨"LCLR", 0x17000000, 0xFFCFFFFF⟩
  | .lcmp .. => ⟨"LCMP", 0x18000000, 0xFF0CCFFF⟩
  | .pbits .. => ⟨"PBITS", 0x20000000, 0xFF00CFFF⟩
  | .plimbs .. => ⟨"PLIMBS", 0x21000000, 0xFF00CFFF⟩
  | .lpack .. => ⟨"LPACK", 0x22000000, 0xFFCC00CF⟩
  | .lunpack .. => ⟨"LUNPACK", 0x23000000, 0xFFCC00C0⟩
  | .bpack .. => ⟨"BPACK", 0x24000000, 0xFFCC00CF⟩
  | .bunpack .. => ⟨"BUNPACK", 0x25000000, 0xFFCC00C0⟩
  | .ypack .. => ⟨"YPACK", 0x26000000, 0xFFCC00CF⟩
  | .yunpack .. => ⟨"YUNPACK", 0x27000000, 0xFFCC00C0⟩
  | .fadd .. => ⟨"FADD", 0x30000000, 0xFFCCCFFF⟩
  | .fsub .. => ⟨"FSUB", 0x31000000, 0xFFCCCFFF⟩
  | .fnorm .. => ⟨"FNORM", 0x32000000, 0xFFCFFFFF⟩
  | .fpmul .. => ⟨"FPMUL", 0x33000000, 0xFFCCCFFF⟩
  | .fpsqr .. => ⟨"FPSQR", 0x34000000, 0xFFCCFFFF⟩
  | .frescale .. => ⟨"FRESCALE", 0x35000000, 0xFFCFFFFF⟩
  | .fsetlen .. => ⟨"FSETLEN", 0x36000000, 0xFFC0FFFF⟩
  | .flowern .. => ⟨"FLOWERN", 0x37000000, 0xFFC0FFFF⟩
  | .fmulrho .. => ⟨"FMULRHO", 0x38000000, 0xFFC00FFF⟩
  | .fbfly .. => ⟨"FBFLY", 0x39000000, 0xFFC000FF⟩
  | .ibfly .. => ⟨"IBFLY", 0x3A000000, 0xFFC000FF⟩
  | .fft .. => ⟨"FFT", 0x40000000, 0xFFC0FFFF⟩
  | .ifft .. => ⟨"IFFT", 0x41000000, 0xFFCFFFFF⟩
  | .cconv .. => ⟨"CCONV", 0x42000000, 0xFFCCC0FF⟩
  | .nconv .. => ⟨"NCONV", 0x43000000, 0xFFCCC0FF⟩
  | .cmul .. => ⟨"CMUL", 0x50000000, 0xFFCCCFFF⟩
  | .kmul .. => ⟨"KMUL", 0x51000000, 0xFFCCCFFF⟩
  | .kmulT .. => ⟨"KMUL.T", 0x51000001, 0xFFCCC0FF⟩
  | .kmulTL .. => ⟨"KMUL.TL", 0x51000002, 0xFFCCC0FF⟩

/-- The 41 rows, each named by a command of its row. -/
def opcodeTable : List OpRow :=
  ([
    .nop, .seti 0 0, .shli 0 0, .csrr 0 0, .csrw 0 0, .ladd 0 0 0, .lsub 0 0 0, .lmul 0 0 0, .ldivrem 0 0 0 0,
    .lrecip 0 0, .ldiv1p 0 0 0 0 0, .lcopy 0 0, .lclr 0, .lcmp 0 0 0, .pbits 0 0 0, .plimbs 0 0 0,
    .lpack 0 0 0 0 false false, .lunpack 0 0 0 0 0 false false, .bpack 0 0 0 0 false false,
    .bunpack 0 0 0 0 0 false false, .ypack 0 0 0 0 false false, .yunpack 0 0 0 0 0 false false, .fadd 0 0 0,
    .fsub 0 0 0, .fnorm 0, .fpmul 0 0 0, .fpsqr 0 0, .frescale 0, .fsetlen 0 0, .flowern 0 0, .fmulrho 0 0 0,
    .fbfly 0 0 0 0, .ibfly 0 0 0 0, .fft 0 0, .ifft 0, .cconv 0 0 0 0, .nconv 0 0 0 0, .cmul 0 0 0, .kmul 0 0 0,
    .kmulT 0 0 0 0, .kmulTL 0 0 0 0] : List Instr).map Instr.row

end Sys2Proof
end

