-- ==== Sys2Proof/Machine/State.lean ====
section
/-! DEFINITION. The state of the LAU as plain data (10_state.md R20), its error kinds, the reasons the model itself stops,
and the state after reset (10_state.md R51, 70_reset_and_hazards.md R260). -/

namespace Sys2Proof

namespace Machine

/-- The error kinds of 60_exceptions.md R231. `modulusInvalid` and `notCoprime` are reserved: no command raises them. An
error is a completion of the command (R236), not a stop of the machine. -/
inductive ErrorKind where
  | allocFailed
  | divisionByZero
  | modulusInvalid
  | notCoprime
  | packDoesNotFit
  | truncationLoses
  | lengthOverflow
  | ringTooSmall
  | illegalCommand
deriving DecidableEq, Repr

/-- Why the machine stops with a fault. No command does. -/
inductive Fault where
  /-- Raised by `State.hostWrite`: the host writes a limb address at or above `MEMLIMBS`, of which the spec says nothing
  (20_memory.md R66). Safe: the machine stops. Log entry 7. -/
  | hostAddress (addr : Nat)
deriving DecidableEq, Repr

/-- Why an instruction has no meaning. No arm of `exec` answers so. -/
inductive Refusal where
  /-- Raised by an arm of `exec` that is not modelled yet. Safe: the machine stops. -/
  | notModelled (mnemonic : String)
deriving DecidableEq, Repr

/-- A span slot `S[k]` (10_state.md R37). -/
structure SpanSlot where
  base : Word
  len : Word
deriving DecidableEq, Repr

/-- A CIP slot `P[k]` (10_state.md R38). -/
structure CipSlot where
  base : Word
  limbs : Word
  len : Word
  alloc : Word
deriving DecidableEq, Repr

/-- An FRP slot `F[k]` (10_state.md R39). -/
structure FrpSlot where
  base : Word
  depth : Word
  n : Word
  len : Word
  scratch : Word
deriving DecidableEq, Repr

/-- Limb memory (10_state.md R50) as byte cells in one canonical form, addresses strictly rising: byte `j` of limb `a`
(20_memory.md R61) is cell `a·(W/8) + j`, log entry 3. A cell that is not listed is `unspecified` and reads as the free
byte of draw `epoch` (93_implementation_defined.md U1), log entry 4. -/
structure Memory where
  epoch : Nat
  cells : List Host.Cell
deriving DecidableEq, Repr

/-- What the host does at its ports, in its order (20_memory.md R67): issue a command word (30_encoding.md R80), write a
limb through the host port (20_memory.md R66), or pulse `rst` (70_reset_and_hazards.md R260). Log entry 6. -/
inductive HostInput where
  | command (word : CmdWord)
  | writeLimb (addr : Nat) (limb : Word)
  | rst
deriving DecidableEq, Repr

/-- The state (10_state.md R20). `params`, `epoch` and `inputs` are the model's own: the parameters of 00_scope.md R6 (log
entries 1 and 2), the number of the next free draw (log entry 5) and what the host will do next (log entry 6). -/
structure State where
  params : Params
  /-- `x0` to `x15` (R21). -/
  regs : Vector Word 16
  /-- `ERR` (R32). -/
  err : Word
  /-- `ESTICKY` (R33). -/
  esticky : Word
  /-- `CSEQ` (R27, R34). -/
  cseq : Word
  /-- `FLAGS.C` (R28); the other bits of `FLAGS` do not exist. -/
  flagC : Bool
  /-- `KCUT` (R35). -/
  kcut : Word
  /-- `S[0]` to `S[3]` (R37). -/
  spans : Vector SpanSlot 4
  /-- `P[0]` to `P[3]` (R38). -/
  cips : Vector CipSlot 4
  /-- `F[0]` to `F[3]` (R39). -/
  frps : Vector FrpSlot 4
  /-- Limb memory (R50). -/
  mem : Memory
  /-- The stack pointer of the scratch arena (R47). -/
  arenaSp : Nat
  /-- The output `done` (30_encoding.md R80): 1 in the state that a completion leaves, until the next thing happens. -/
  done : Bool
  epoch : Nat
  inputs : List HostInput
deriving DecidableEq, Repr

/-- The state when `rst` falls (10_state.md R51, 70_reset_and_hazards.md R260), for an LAU with parameters `p`, whose
unspecified memory is draw `e` and whose host goes on with `inputs`. -/
def State.resetWith (p : Params) (e : Nat) (inputs : List HostInput) : State where
  params := p
  regs := Vector.replicate 16 0
  err := 0
  esticky := 0
  cseq := 0
  flagC := false
  kcut := Config.kcutReset
  spans := Vector.replicate 4 ⟨0, 0⟩
  cips := Vector.replicate 4 ⟨0, 0, 0, 0⟩
  frps := Vector.replicate 4 ⟨0, 0, 0, 0, 0⟩
  mem := ⟨e, []⟩
  arenaSp := 0
  done := false
  epoch := e + 1
  inputs := inputs

/-- The machine right after reset: the reference instance of R6, nothing in memory, no command waiting. -/
def State.reset : State := State.resetWith Params.reference 0 []

end Machine

/-- An implementation's own `SCRNEED`, "a function of the command and the state" (00_scope.md R6), any function
(93_implementation_defined.md section 4), by its number: of the parameters, the command, and what the command reads of the
state. DESIGN CHOICE, log entry 2. -/
opaque Config.scrNeed : Nat → Params → Instr → List Int → Nat

end Sys2Proof
end

