-- ==== Sys2Proof/Machine/Arith.lean ====
section
/-! DEFINITION. The number functions of 00_scope.md R7 and R8, and the inverse modulo a number. -/

namespace Sys2Proof.Machine

/-- `bitlen(v)`: "the least `k` with `v < 2^k`" (R7). -/
def bitlen (v : Nat) : Nat := if v = 0 then 0 else v.log2 + 1

/-- `nlimbs(v)`: "the least `k` with `v < B^k`" for limbs of `w` bits (R7). -/
def nlimbs (w v : Nat) : Nat := (bitlen v + w - 1) / w

/-- `ceil(a / b)` for `b > 0`. -/
def ceilDiv (a b : Nat) : Nat := (a + b - 1) / b

/-- `brev_d(k)`: the `d`-bit form of `k` read backwards (R7). -/
def brev : Nat → Nat → Nat
  | 0, _ => 0
  | d + 1, k => k % 2 * 2 ^ d + brev d (k / 2)

/-- `sext_b(v)`: the `b`-bit pattern `v` as two's complement (R8). -/
def sext (b v : Nat) : Int := if v < 2 ^ (b - 1) then (v : Int) else (v : Int) - 2 ^ b

/-- `v mod m` as a natural number, floor remainder (R7); with `m = 2^b` it is `zext_b(v)` (R8). -/
def natMod (v : Int) (m : Nat) : Nat := (v % (m : Int)).toNat

/-- `f 0 + … + f (n − 1)`. -/
def sumN {α : Type} [Zero α] [Add α] : Nat → (Nat → α) → α
  | 0, _ => 0
  | n + 1, f => sumN n f + f n

/-- Extended Euclid on the pair `(r0, r1)` with cofactors `(s0, s1)`; each step halves the pair at least every second
time, so `fuel` of twice the bit length is enough. -/
def euclid : Nat → Int → Int → Int → Int → Int
  | 0, _, _, s0, _ => s0
  | fuel + 1, r0, r1, s0, s1 => if r1 = 0 then s0 else euclid fuel r1 (r0 % r1) s1 (s0 - r0 / r1 * s1)

/-- The inverse of the unit `u` modulo `m` (43_fft_convolution.md R184 divides by such units only). -/
def invMod (m u : Nat) : Nat := natMod (euclid (2 * bitlen m + 2) m (u % m : Nat) 0 1) m

end Sys2Proof.Machine
end

