-- ==== Sys2Proof/Machine/Ops.lean ====
section
/-! DEFINITION. The shared operations: limb memory (00_scope.md R9, 20_memory.md), registers and descriptors, the checks,
the completion of a command with or without error (60_exceptions.md R236, R237), and what the host does at its ports. -/

namespace Sys2Proof.Machine

/-! Limb memory. -/

/-- The byte listed for cell `a`, if any. -/
def lookupCell (a : Nat) : List Host.Cell → Option Byte
  | [] => none
  | (c, x) :: rest => if c = a then some x else lookupCell a rest

/-- List byte `b` for cell `a`, keeping the addresses strictly rising. -/
def insertCell (a : Nat) (b : Byte) : List Host.Cell → List Host.Cell
  | [] => [(a, b)]
  | (c, x) :: rest =>
    if a < c then (a, b) :: (c, x) :: rest
    else if a = c then (a, b) :: rest
    else (c, x) :: insertCell a b rest

/-- The addresses of a cell list rise strictly, all above `lo`. -/
def cellsRiseFrom : Nat → List Host.Cell → Bool
  | _, [] => true
  | lo, (c, _) :: rest => decide (lo ≤ c) && cellsRiseFrom (c + 1) rest

/-- The canonical form: addresses strictly rising. Log entry 4 says why no listed byte can equal what an unlisted one reads as. -/
def Memory.wf (m : Memory) : Bool := cellsRiseFrom 0 m.cells

/-- Every listed cell lies below `bound`. -/
def Memory.below (m : Memory) (bound : Nat) : Bool := m.cells.all (fun c => decide (c.1 < bound))

/-- One byte of memory. What is not listed is `unspecified`: the free byte of the memory's draw (U1). -/
def Memory.byteAt (m : Memory) (a : Nat) : Byte := (lookupCell a m.cells).getD (Config.freeByte m.epoch a)

/-- Write one byte. -/
def Memory.writeByte (m : Memory) (a : Nat) (b : Byte) : Memory := { m with cells := insertCell a b m.cells }

/-- Write the `k` cells from `p`, cell `a` with `f a`. -/
def Memory.fill (m : Memory) (p : Nat) : Nat → (Nat → Byte) → Memory
  | 0, _ => m
  | k + 1, f => (m.fill p k f).writeByte (p + k) (f (p + k))

/-- The number whose little-endian bytes are the `k` cells from `p` (20_memory.md R61). -/
def Memory.readBytes (m : Memory) (p : Nat) : Nat → Nat
  | 0 => 0
  | k + 1 => (m.byteAt p).toNat + 256 * m.readBytes (p + 1) k

/-- Byte `a − p` of `v`: "`(v div 2^(8k)) mod 256`" (20_memory.md R61). -/
def numByte (v p a : Nat) : Byte := BitVec.ofNat 8 (v / 256 ^ (a - p))

/-! The parameters (00_scope.md R6). -/

/-- `W`. -/
def State.width (s : State) : Nat := s.params.limb.bits

/-- `W / 8`. -/
def State.limbBytes (s : State) : Nat := s.params.limb.bytes

/-- `B`. -/
def State.radix (s : State) : Nat := s.params.limb.radix

/-- `MEMLIMBS`. -/
def State.memLimbs (s : State) : Nat := s.params.memLimbs.toNat

/-- `M[a]` (00_scope.md R9). -/
def State.limb (s : State) (a : Nat) : Nat := s.mem.readBytes (a * s.limbBytes) s.limbBytes

/-- `MemRead(addr, n)` (00_scope.md R9): little-endian limbs of little-endian bytes are little-endian bytes. -/
def State.memRead (s : State) (addr n : Nat) : Nat := s.mem.readBytes (addr * s.limbBytes) (n * s.limbBytes)

/-- `MemWrite(addr, n, v)` (00_scope.md R9). -/
def State.memWrite (s : State) (addr n v : Nat) : State :=
  { s with mem := s.mem.fill (addr * s.limbBytes) (n * s.limbBytes) (numByte v (addr * s.limbBytes)) }

/-- The `n` limbs from `addr` become `unspecified`: the free bytes of the running command's draw (00_scope.md R12). -/
def State.memFree (s : State) (addr n : Nat) : State :=
  { s with mem := s.mem.fill (addr * s.limbBytes) (n * s.limbBytes) (Config.freeByte s.epoch) }

/-- Write the numbers of a list one after another, each into `stride` limbs. -/
def State.memWriteList (s : State) (addr stride : Nat) : List Nat → State
  | [] => s
  | v :: vs => (s.memWrite addr stride v).memWriteList (addr + stride) stride vs

/-! Registers and descriptors. -/

/-- `x[i]` (00_scope.md R9). -/
def State.reg (s : State) (r : Reg) : Word := s.regs[r]

/-- `x[i] <- v` (00_scope.md R9); no register is hard-wired (10_state.md R21). -/
def State.setReg (s : State) (r : Reg) (v : Word) : State := { s with regs := s.regs.set r v }

/-- `x[i] <- v mod 2^64` for a number `v` (00_scope.md R9). -/
def State.setRegNat (s : State) (r : Reg) (v : Nat) : State := s.setReg r (BitVec.ofNat 64 v)

/-- Replace span slot `k`. -/
def State.setSpan (s : State) (k : SpanIx) (v : SpanSlot) : State := { s with spans := s.spans.set k v }

/-- Replace CIP slot `k`. -/
def State.setCip (s : State) (k : CipIx) (v : CipSlot) : State := { s with cips := s.cips.set k v }

/-- Replace FRP slot `k`. -/
def State.setFrp (s : State) (k : FrpIx) (v : FrpSlot) : State := { s with frps := s.frps.set k v }

/-- `S[k].LEN <- m` (10_state.md R37). -/
def State.setSpanLen (s : State) (k : SpanIx) (m : Nat) : State := s.setSpan k { s.spans[k] with len := BitVec.ofNat 64 m }

/-- `P[k].LEN <- m` (10_state.md R38). -/
def State.setCipLen (s : State) (k : CipIx) (m : Nat) : State := s.setCip k { s.cips[k] with len := BitVec.ofNat 64 m }

/-- `F[k].LEN <- m` (10_state.md R39). -/
def State.setFrpLen (s : State) (k : FrpIx) (m : Nat) : State := s.setFrp k { s.frps[k] with len := BitVec.ofNat 64 m }

/-- `F[k].N <- n` (42_fermat_ring.md R162). -/
def State.setFrpN (s : State) (k : FrpIx) (n : Nat) : State := s.setFrp k { s.frps[k] with n := BitVec.ofNat 64 n }

/-- `FLAGS.C <- c` (10_state.md R28). -/
def State.setFlagC (s : State) (c : Bool) : State := { s with flagC := c }

/-! Errors and completion. -/

/-- The code of an error kind: the value of `ERR` and the bit of `ESTICKY` (60_exceptions.md R231). -/
def ErrorKind.code : ErrorKind → Nat
  | .allocFailed => 1
  | .divisionByZero => 2
  | .modulusInvalid => 3
  | .notCoprime => 4
  | .packDoesNotFit => 5
  | .truncationLoses => 6
  | .lengthOverflow => 7
  | .ringTooSmall => 8
  | .illegalCommand => 9

/-- Completion of a command (60_exceptions.md R236): `ERR` takes the code, 0 without error; an error sets its bit of
`ESTICKY`; `CSEQ` counts on modulo 2^64; the scratch arena is released (70_reset_and_hazards.md R269); `done` pulses. This is also the
whole of taking an error (R237); there is no return from one (R226, R238). The model's draw number moves on. -/
def State.complete (s : State) (k : Option ErrorKind) : State :=
  { s with
    err := match k with
      | none => 0
      | some e => BitVec.ofNat 64 e.code
    esticky := match k with
      | none => s.esticky
      | some e => s.esticky ||| BitVec.twoPow 64 e.code
    cseq := s.cseq + 1
    arenaSp := 0
    done := true
    epoch := s.epoch + 1 }

/-- A check: go on when `p` holds, else raise `k` (00_scope.md R10). -/
def require (p : Prop) [Decidable p] (k : ErrorKind) : Except ErrorKind Unit := if p then .ok () else .error k

/-- A command run from `s`: its effect `r` completed without error, or `s` itself completed with the error raised, so that
"a faulting command writes nothing" (00_scope.md R10, 60_exceptions.md R237). -/
def command (s : State) (r : Except ErrorKind State) : Host.Outcome State Fault Refusal :=
  match r with
  | .ok t => .next (t.complete none)
  | .error k => .next (s.complete (some k))

/-- A region `[b, b + n)` lies in limb memory; an empty one when `b ≤ MEMLIMBS` (20_memory.md R63). -/
abbrev State.InMem (s : State) (b n : Nat) : Prop := b + n ≤ s.memLimbs

/-! Outputs (log entry 10). -/

/-- The `fault` line (60_exceptions.md R240). -/
def State.faultLine (s : State) : Bool := decide (s.esticky ≠ 0)

/-- The `busy` output (30_encoding.md R80): a command is one step, so none is in progress between steps. -/
def State.busy (_ : State) : Bool := false

/-- The `cmd_ready` output: "1 exactly when no command is in progress" (30_encoding.md R80). -/
def State.cmdReady (s : State) : Bool := !s.busy

/-- The pulse of `done` is over: what happens next is no completion (30_encoding.md R80). -/
def State.endPulse (s : State) : State := { s with done := false }

/-! What reaches the LAU from outside. -/

/-- An illegal command word: `IllegalCommand` and nothing else (30_encoding.md R89, 60_exceptions.md R234). -/
def State.illegalWord (s : State) : Host.Outcome State Fault Refusal := command s (.error .illegalCommand)

/-- The host writes limb `addr` between commands (20_memory.md R66); of a wider value the limb's bits are kept, log entry 8. -/
def State.hostWrite (s : State) (addr : Nat) (v : Word) : Host.Outcome State Fault Refusal :=
  if addr < s.memLimbs then .next (s.memWrite addr 1 v.toNat) else .fault (.hostAddress addr)

/-- `rst` (70_reset_and_hazards.md R260): the state of R51 with memory unspecified anew; parameters and host stay. -/
def State.takeReset (s : State) : Host.Outcome State Fault Refusal := .next (State.resetWith s.params s.epoch s.inputs)

end Sys2Proof.Machine
end

