-- ==== Sys2Proof/Machine/Flags.lean ====
section
/-! DEFINITION. The one status flag, `C` (10_state.md R28): the carry and borrow of the limb adder and subtractor
(40_limb_primitives.md R110) and the register `FLAGS` that holds it. -/

namespace Sys2Proof.Machine

/-- `C` after `LADD`: the carry out of limb `m − 1` of the sum `t`, `t div B^m`, which is 0 or 1 (40_limb_primitives.md R101). -/
def carryOut (radix m t : Nat) : Bool := decide (t / radix ^ m ≠ 0)

/-- `C` after `LSUB`: the borrow, 1 when the true difference `a − b` is negative (40_limb_primitives.md R102). -/
def borrowOut (a b : Nat) : Bool := decide ((a : Int) - (b : Int) < 0)

/-- `FLAGS` as read: bit 0 is `C`, bits 63:1 are zero (10_state.md R28). -/
def State.flagsWord (s : State) : Word := BitVec.setWidth 64 (BitVec.ofBool s.flagC)

/-- `FLAGS` as written: bit 0 goes to `C`, the other bits are ignored (10_state.md R28, 45_system_commands.md R224). -/
def State.writeFlags (s : State) (v : Word) : State := s.setFlagC (v.getLsbD 0)

end Sys2Proof.Machine
end

