-- ==== Sys2Proof/Machine/Csr.lean ====
section
/-! DEFINITION. The control register map (10_state.md R36) and the reading and writing of control registers
(45_system_commands.md R223, R224). -/

namespace Sys2Proof.Machine

/-- The control registers (10_state.md R36). -/
inductive Csr where
  | lauid | pw | pmem | pscr | err | esticky | cseq | flags | kcut
  | spanBase (k : SpanIx) | spanLen (k : SpanIx)
  | cipBase (k : CipIx) | cipLimbs (k : CipIx) | cipLen (k : CipIx) | cipAlloc (k : CipIx)
  | frpBase (k : FrpIx) | frpDepth (k : FrpIx) | frpN (k : FrpIx) | frpLen (k : FrpIx) | frpScratch (k : FrpIx)
deriving DecidableEq, Repr

/-- The slot number `v` in 0..3 as an index. -/
def slotOf (v : Nat) : Fin 4 := Fin.ofNat 4 v

/-- The span registers `0x100 + 2k`, `0x101 + 2k`, by offset from 0x100 (10_state.md R36). -/
def Csr.ofSpanOffset (o : Nat) : Csr := if o % 2 = 0 then .spanBase (slotOf (o / 2)) else .spanLen (slotOf (o / 2))

/-- The CIP registers `0x200 + 4k` to `0x203 + 4k`, by offset from 0x200 (10_state.md R36). -/
def Csr.ofCipOffset (o : Nat) : Csr :=
  if o % 4 = 0 then .cipBase (slotOf (o / 4))
  else if o % 4 = 1 then .cipLimbs (slotOf (o / 4))
  else if o % 4 = 2 then .cipLen (slotOf (o / 4))
  else .cipAlloc (slotOf (o / 4))

/-- The FRP registers `0x300 + 8k` to `0x304 + 8k`, by offset from 0x300; offsets 5 to 7 of a slot name nothing (10_state.md R36). -/
def Csr.ofFrpOffset (o : Nat) : Option Csr :=
  if o % 8 = 0 then some (.frpBase (slotOf (o / 8)))
  else if o % 8 = 1 then some (.frpDepth (slotOf (o / 8)))
  else if o % 8 = 2 then some (.frpN (slotOf (o / 8)))
  else if o % 8 = 3 then some (.frpLen (slotOf (o / 8)))
  else if o % 8 = 4 then some (.frpScratch (slotOf (o / 8)))
  else none

/-- The register a number names, if any (10_state.md R36). -/
def Csr.ofNumber (c : CsrNum) : Option Csr :=
  let v := c.toNat
  if v = 0x000 then some .lauid
  else if v = 0x001 then some .pw
  else if v = 0x002 then some .pmem
  else if v = 0x003 then some .pscr
  else if v = 0x010 then some .err
  else if v = 0x011 then some .esticky
  else if v = 0x012 then some .cseq
  else if v = 0x013 then some .flags
  else if v = 0x014 then some .kcut
  else if 0x100 ≤ v ∧ v < 0x108 then some (Csr.ofSpanOffset (v - 0x100))
  else if 0x200 ≤ v ∧ v < 0x210 then some (Csr.ofCipOffset (v - 0x200))
  else if 0x300 ≤ v ∧ v < 0x320 then Csr.ofFrpOffset (v - 0x300)
  else none

/-- What a control register reads (10_state.md R28 to R39); `PSCR` is saturated to 2^64 − 1 (R31). -/
def State.readCsr (s : State) : Csr → Word
  | .lauid => Config.lauid
  | .pw => BitVec.ofNat 64 s.width
  | .pmem => s.params.memLimbs
  | .pscr => BitVec.ofNat 64 (min s.params.scrCap (2 ^ 64 - 1))
  | .err => s.err
  | .esticky => s.esticky
  | .cseq => s.cseq
  | .flags => s.flagsWord
  | .kcut => s.kcut
  | .spanBase k => s.spans[k].base
  | .spanLen k => s.spans[k].len
  | .cipBase k => s.cips[k].base
  | .cipLimbs k => s.cips[k].limbs
  | .cipLen k => s.cips[k].len
  | .cipAlloc k => s.cips[k].alloc
  | .frpBase k => s.frps[k].base
  | .frpDepth k => s.frps[k].depth
  | .frpN k => s.frps[k].n
  | .frpLen k => s.frps[k].len
  | .frpScratch k => s.frps[k].scratch

/-- The write of a control register (45_system_commands.md R224): `none` for the read-only ones, `ESTICKY` is write one to
clear (10_state.md R33), descriptor registers take any value (R29). -/
def State.writeCsr (s : State) (c : Csr) (v : Word) : Option State :=
  match c with
  | .lauid | .pw | .pmem | .pscr | .err | .cseq => none
  | .esticky => some { s with esticky := s.esticky &&& ~~~v }
  | .flags => some (s.writeFlags v)
  | .kcut => some { s with kcut := v }
  | .spanBase k => some (s.setSpan k { s.spans[k] with base := v })
  | .spanLen k => some (s.setSpan k { s.spans[k] with len := v })
  | .cipBase k => some (s.setCip k { s.cips[k] with base := v })
  | .cipLimbs k => some (s.setCip k { s.cips[k] with limbs := v })
  | .cipLen k => some (s.setCip k { s.cips[k] with len := v })
  | .cipAlloc k => some (s.setCip k { s.cips[k] with alloc := v })
  | .frpBase k => some (s.setFrp k { s.frps[k] with base := v })
  | .frpDepth k => some (s.setFrp k { s.frps[k] with depth := v })
  | .frpN k => some (s.setFrp k { s.frps[k] with n := v })
  | .frpLen k => some (s.setFrp k { s.frps[k] with len := v })
  | .frpScratch k => some (s.setFrp k { s.frps[k] with scratch := v })

end Sys2Proof.Machine
end

