-- ==== Sys2Proof/Machine/Poly.lean ====
section
/-! DEFINITION. Lists of integer coefficients, lowest degree first: normal form, the three products of
44_multiplication_engine.md R202 and the Karatsuba recursion controller of R204. -/

namespace Sys2Proof.Machine

/-- The list with trailing zeros removed (10_state.md R45). -/
def trim : List Int → List Int
  | [] => []
  | x :: xs =>
    match trim xs with
    | [] => if x = 0 then [] else [x]
    | y :: ys => x :: y :: ys

/-- `FULL(A, B)`: `d[k] = Σ_{i+j=k} A[i]·B[j]` for `k ≤ la + lb − 2`, empty when an operand is (44_multiplication_engine.md R202). -/
def fullProduct (a b : List Int) : List Int :=
  if a.length = 0 ∨ b.length = 0 then []
  else (List.range (a.length + b.length - 1)).map (fun k => sumN (k + 1) (fun i => a.getD i 0 * b.getD (k - i) 0))

/-- `TRUNC`: the first `t` coefficients of a product `d` (44_multiplication_engine.md R202). -/
def truncate (d : List Int) (t : Nat) : List Int := d.take t

/-- `TRUNCLEFT`: the coefficients below `t` replaced by 0 (44_multiplication_engine.md R205). -/
def truncateLeft (d : List Int) (t : Nat) : List Int :=
  (List.range d.length).map (fun k => if k < t then 0 else d.getD k 0)

/-- The coefficient-wise sum, the shorter list zero-extended (44_multiplication_engine.md R204). -/
def addLists : List Int → List Int → List Int
  | [], bs => bs
  | a :: as, [] => a :: as
  | a :: as, b :: bs => (a + b) :: addLists as bs

/-- The coefficient-wise difference. -/
def subLists (a b : List Int) : List Int := addLists a (b.map (fun x => -x))

/-- `a·x^h`. -/
def shiftList (h : Nat) (a : List Int) : List Int := List.replicate h 0 ++ a

/-- The controller `KARA(U, V)` of 44_multiplication_engine.md R204 with threshold `cut` (`KCUT`); the first argument bounds
the depth of the recursion, and where it runs out the block is multiplied classically. Log entry 20. -/
def karatsuba : Nat → Nat → List Int → List Int → List Int
  | 0, _, u, v => fullProduct u v
  | fuel + 1, cut, u, v =>
    let x := if v.length < u.length then v else u
    let y := if v.length < u.length then u else v
    if x.length = 0 then []
    else if x.length ≤ max cut 1 then fullProduct x y
    else
      let h := (x.length + 1) / 2
      let p0 := karatsuba fuel cut (x.take h) (y.take h)
      let p2 := karatsuba fuel cut (x.drop h) (y.drop h)
      let p1 := karatsuba fuel cut (addLists (x.take h) (x.drop h)) (addLists (y.take h) (y.drop h))
      let q := subLists (subLists p1 p0) p2
      addLists (addLists p0 (shiftList h q)) (shiftList (2 * h) p2)

end Sys2Proof.Machine
end

