-- ==== Sys2Proof/Machine/Ring.lean ====
section
/-! DEFINITION. The Fermat ring `R_n = Z/(B^n + 1)` for limbs of `w` bits: residues, the root of unity and its exponent
function (42_fermat_ring.md R150 to R153), the transform and its inverse (43_fft_convolution.md R180, R184) and the
convolutions (R185, R186), all by value. -/

namespace Sys2Proof.Machine

/-- `M_n = B^n + 1 = 2^(n·W) + 1` (42_fermat_ring.md R150). -/
def fermatMod (w n : Nat) : Nat := 2 ^ (n * w) + 1

/-- `sval_n(r)`: the low `n` limbs plus the signed overflow limb times `B^n` (10_state.md R48). -/
def sval (w n r : Nat) : Int := (r % 2 ^ (n * w) : Nat) + sext w (r / 2 ^ (n * w)) * 2 ^ (n * w)

/-- `res_n(r)`, the residue in `[0, B^n]` that a limb pattern represents (10_state.md R48). -/
def residue (w n r : Nat) : Nat := natMod (sval w n r) (fermatMod w n)

/-- `4·n·W`, the order of the root (42_fermat_ring.md R151). -/
def rootOrder (w n : Nat) : Nat := 4 * n * w

/-- `ρ_n = (2^(3·n·W/4) − 2^(n·W/4)) mod M_n`, a square root of 2 (42_fermat_ring.md R151). -/
def rho (w n : Nat) : Nat := (2 ^ (3 * n * w / 4) - 2 ^ (n * w / 4)) % fermatMod w n

/-- `MULRHO_n(v, e) = (v·ρ_n^(e mod 4nW)) mod M_n` (42_fermat_ring.md R152). -/
def mulRho (w n v e : Nat) : Nat := v * rho w n ^ (e % rootOrder w n) % fermatMod w n

/-- `(4nW − (e mod 4nW)) mod 4nW`, the exponent of the inverse power (42_fermat_ring.md R152). -/
def negExp (w n e : Nat) : Nat := (rootOrder w n - e % rootOrder w n) % rootOrder w n

/-- The exponent of `2^(−depth)`, `4nW − 2·depth` reduced modulo `4nW` (42_fermat_ring.md R160). Log entry 23. -/
def rescaleExp (w n depth : Nat) : Nat := natMod ((rootOrder w n : Int) - 2 * (depth : Int)) (rootOrder w n)

/-- `TW(n, d, j) = (j·(4·n·W / 2^d)) mod (4·n·W)`, the twiddle exponent function (42_fermat_ring.md R153). -/
def tw (w n d j : Nat) : Nat := j * (rootOrder w n / 2 ^ d) % rootOrder w n

/-- `2^d` divides `4·n·W`: the ring has the roots a transform of depth `d` needs (43_fft_convolution.md R181). -/
abbrev RootsExist (w n d : Nat) : Prop := rootOrder w n % 2 ^ d = 0

/-- `Σ a_j·y^j` modulo `m`. -/
def polyEval (m : Nat) : List Nat → Nat → Nat
  | [], _ => 0
  | a :: as, y => (a + y * polyEval m as y) % m

/-- `ω_d = ρ_n^TW(n, d, 1)` (42_fermat_ring.md R153). -/
def omega (w n d : Nat) : Nat := rho w n ^ tw w n d 1 % fermatMod w n

/-- The evaluation point of output `k`: `ω^brev_d(k)` (43_fft_convolution.md R180). -/
def point (w n d k : Nat) : Nat := omega w n d ^ brev d k % fermatMod w n

/-- `DFT_d(a)[k]`: "the value of the polynomial `Σ a_j y^j` at the point `ω^brev_d(k)`" (43_fft_convolution.md R180). -/
def dft (w n d : Nat) (a : List Nat) (k : Nat) : Nat := polyEval (fermatMod w n) a (point w n d k)

/-- `c·u + a` modulo `m`, entry by entry, the shorter list counting as zero-extended. -/
def addScaled (m c : Nat) : List Nat → List Nat → List Nat
  | [], as => as
  | u :: us, [] => (c * u) % m :: addScaled m c us []
  | u :: us, a :: as => (c * u + a) % m :: addScaled m c us as

/-- One step of interpolation at points `p k`: `a` takes the wanted values at the points before `k`, `z` is the monic
polynomial with those points as its roots; the next value `x` is wanted at `p k`. -/
def interpolate (m : Nat) (p : Nat → Nat) : Nat → List Nat → List Nat → List Nat → List Nat
  | _, a, _, [] => a
  | k, a, z, x :: xs =>
    let c := natMod ((x : Int) - polyEval m a (p k)) m * invMod m (polyEval m z (p k)) % m
    interpolate m p (k + 1) (addScaled m c z a) (addScaled m (m - p k % m) z (0 :: z)) xs

/-- The one sequence of residues of the length of `x` whose transform begins with `x` (43_fft_convolution.md R184), by
interpolation at the points of R180. Log entry 19. -/
def invDft (w n d : Nat) (x : List Nat) : List Nat := interpolate (fermatMod w n) (point w n d) 0 [] [1] x

/-- Coefficient `k` of the product of `u` and `v` modulo `y^size − 1` and `m` (43_fft_convolution.md R185). -/
def cyclicCoeff (m size : Nat) (u v : List Nat) (k : Nat) : Nat :=
  sumN u.length (fun i => sumN v.length (fun j => if (i + j) % size = k then u.getD i 0 * v.getD j 0 else 0)) % m

/-- Coefficient `k` of the product of `u` and `v` modulo `y^size + 1` and `m` (43_fft_convolution.md R186). -/
def negacyclicCoeff (m size : Nat) (u v : List Nat) (k : Nat) : Nat :=
  natMod (sumN u.length (fun i => sumN v.length (fun j =>
    if i + j = k then ((u.getD i 0 * v.getD j 0 : Nat) : Int)
    else if i + j = k + size then -((u.getD i 0 * v.getD j 0 : Nat) : Int)
    else 0))) m

end Sys2Proof.Machine
end

