-- ==== Sys2Proof/Machine/Operands.lean ====
section
/-! DEFINITION. The operand forms (20_memory.md R71): spans, CIP coefficients and FRP coefficients, how they are read and
written (10_state.md R37 to R48), and the checks common to the commands that name them. -/

namespace Sys2Proof.Machine

/-! Spans (10_state.md R37). -/

/-- `S[k].BASE`. -/
def State.spanBase (s : State) (k : SpanIx) : Nat := s.spans[k].base.toNat

/-- `S[k].LEN`. -/
def State.spanLen (s : State) (k : SpanIx) : Nat := s.spans[k].len.toNat

/-- The number an input span names (10_state.md R37). -/
def State.spanNum (s : State) (k : SpanIx) : Nat := s.memRead (s.spanBase k) (s.spanLen k)

/-- An input span lies in limb memory (20_memory.md R63). -/
abbrev State.SpanIn (s : State) (k : SpanIx) : Prop := s.InMem (s.spanBase k) (s.spanLen k)

/-- The `m` limbs a command writes through an output span lie in limb memory (20_memory.md R63). -/
abbrev State.SpanOut (s : State) (k : SpanIx) (m : Nat) : Prop := s.InMem (s.spanBase k) m

/-- Write `m` limbs through an output span of `s`, then set its `LEN` (10_state.md R37). -/
def State.writeSpan (s : State) (k : SpanIx) (m v : Nat) : State := (s.memWrite (s.spanBase k) m v).setSpanLen k m

/-! Compact polynomials (10_state.md R38, R40 to R45). -/

/-- `P[k].BASE`. -/
def State.cipBase (s : State) (k : CipIx) : Nat := s.cips[k].base.toNat

/-- `P[k].LIMBS`. -/
def State.cipLimbs (s : State) (k : CipIx) : Nat := s.cips[k].limbs.toNat

/-- `P[k].LEN`. -/
def State.cipLen (s : State) (k : CipIx) : Nat := s.cips[k].len.toNat

/-- `P[k].ALLOC`. -/
def State.cipAlloc (s : State) (k : CipIx) : Nat := s.cips[k].alloc.toNat

/-- The address of the header of coefficient `i` (10_state.md R40). -/
def State.cipAddr (s : State) (k : CipIx) (i : Nat) : Nat := s.cipBase k + i * (s.cipLimbs k + 1)

/-- The header of coefficient `i`, a signed limb (10_state.md R41). -/
def State.cipHeader (s : State) (k : CipIx) (i : Nat) : Int := sext s.width (s.limb (s.cipAddr k i))

/-- `coeff(P[k], i)` (10_state.md R42, R43). A header beyond `LIMBS` names no limbs: the value is then free, of magnitude
below `B^|h|` (93_implementation_defined.md U7). Log entry 15. -/
def State.cipCoeff (s : State) (k : CipIx) (i : Nat) : Int :=
  let h := s.cipHeader k i
  if h.natAbs ≤ s.cipLimbs k then h.sign * (s.memRead (s.cipAddr k i + 1) h.natAbs : Nat)
  else (Config.freeCoeff s.epoch k.val i).tmod ((s.radix ^ h.natAbs : Nat) : Int)

/-- `poly(P[k])` (10_state.md R42). -/
def State.poly (s : State) (k : CipIx) : List Int := (List.range (s.cipLen k)).map (s.cipCoeff k)

/-- `LEN ≤ ALLOC` (10_state.md R38). -/
abbrev State.CipShape (s : State) (k : CipIx) : Prop := s.cipLen k ≤ s.cipAlloc k

/-- The whole store lies in limb memory (10_state.md R38, 20_memory.md R63). -/
abbrev State.CipIn (s : State) (k : CipIx) : Prop := s.InMem (s.cipBase k) (s.cipAlloc k * (s.cipLimbs k + 1))

/-- The limbs of a written coefficient as one number of `L + 1` limbs: header, then magnitude (10_state.md R45). -/
def coeffImage (w : Nat) (v : Int) : Nat :=
  natMod (v.sign * (nlimbs w v.natAbs : Nat)) (2 ^ w) + 2 ^ w * v.natAbs

/-- `WritePoly(P[k], out)` through slot `k` of `s` (10_state.md R45). -/
def State.writePoly (s : State) (k : CipIx) (out : List Int) : State :=
  (s.memWriteList (s.cipBase k) (s.cipLimbs k + 1) (out.map (coeffImage s.width))).setCipLen k out.length

/-- Every value fits the slot's coefficient width, else `TruncationLoses` (60_exceptions.md R233). -/
abbrev State.CoeffsFit (s : State) (k : CipIx) (out : List Int) : Prop :=
  out.all (fun v => decide (nlimbs s.width v.natAbs ≤ s.cipLimbs k)) = true

/-- The list fits the slot's allocation, else `AllocFailed` (60_exceptions.md R233). -/
abbrev State.LengthFits (s : State) (k : CipIx) (out : List Int) : Prop := out.length ≤ s.cipAlloc k

/-! Fermat-ring polynomials (10_state.md R39, R46 to R48). -/

/-- `F[k].BASE`. -/
def State.frpBase (s : State) (k : FrpIx) : Nat := s.frps[k].base.toNat

/-- `F[k].DEPTH`. -/
def State.frpDepth (s : State) (k : FrpIx) : Nat := s.frps[k].depth.toNat

/-- `F[k].N`. -/
def State.frpN (s : State) (k : FrpIx) : Nat := s.frps[k].n.toNat

/-- `F[k].LEN`. -/
def State.frpLen (s : State) (k : FrpIx) : Nat := s.frps[k].len.toNat

/-- `F[k].SCRATCH`. -/
def State.frpScratch (s : State) (k : FrpIx) : Nat := s.frps[k].scratch.toNat

/-- `2^DEPTH`. -/
def State.frpSize (s : State) (k : FrpIx) : Nat := 2 ^ s.frpDepth k

/-- `caddr(F[k], i)` (10_state.md R46). -/
def State.caddr (s : State) (k : FrpIx) (i : Nat) : Nat := s.frpBase k + i * (s.frpN k + 1)

/-- `raw(F[k], i)` (10_state.md R46). -/
def State.raw (s : State) (k : FrpIx) (i : Nat) : Nat := s.memRead (s.caddr k i) (s.frpN k + 1)

/-- `val(F[k], i)` (10_state.md R48): coefficients at or past `LEN` are zero and are not read. -/
def State.val (s : State) (k : FrpIx) (i : Nat) : Nat :=
  if i < s.frpLen k then residue s.width (s.frpN k) (s.raw k i) else 0

/-- `vals(F[k])` (10_state.md R48). -/
def State.vals (s : State) (k : FrpIx) : List Nat := (List.range (s.frpLen k)).map (s.val k)

/-- The raw patterns of the active coefficients. -/
def State.raws (s : State) (k : FrpIx) : List Nat := (List.range (s.frpLen k)).map (s.raw k)

/-- `(2^DEPTH + SCRATCH)·(N + 1)`, the limbs of the block (10_state.md R39). -/
def State.blockLimbs (s : State) (k : FrpIx) : Nat := (s.frpSize k + s.frpScratch k) * (s.frpN k + 1)

/-- `DEPTH ≤ 63` and `LEN ≤ 2^DEPTH` (10_state.md R39). -/
abbrev State.FrpShape (s : State) (k : FrpIx) : Prop := s.frpDepth k ≤ 63 ∧ s.frpLen k ≤ s.frpSize k

/-- Two named slots have the same `DEPTH` and `N` (42_fermat_ring.md R154). -/
abbrev State.SameGeometry (s : State) (j k : FrpIx) : Prop := s.frpDepth j = s.frpDepth k ∧ s.frpN j = s.frpN k

/-- The whole block lies in limb memory (10_state.md R39, 20_memory.md R63). -/
abbrev State.FrpIn (s : State) (k : FrpIx) : Prop := s.InMem (s.frpBase k) (s.blockLimbs k)

/-- Write coefficient `i` through slot `k` of `s`. -/
def State.writeCoeff (s : State) (k : FrpIx) (i v : Nat) : State := s.memWrite (s.caddr k i) (s.frpN k + 1) v

/-- Write coefficients 0, 1, … through slot `k` of `s`. -/
def State.writeCoeffs (s : State) (k : FrpIx) (vs : List Nat) : State := s.memWriteList (s.frpBase k) (s.frpN k + 1) vs

/-- Coefficients from `m` up and every scratch buffer of slot `k` become `unspecified` (93_implementation_defined.md U8). -/
def State.freeFrom (s : State) (k : FrpIx) (m : Nat) : State :=
  s.memFree (s.caddr k m) (s.blockLimbs k - m * (s.frpN k + 1))

/-- The whole block of slot `k` becomes `unspecified` (93_implementation_defined.md U9). -/
def State.freeBlock (s : State) (k : FrpIx) : State := s.memFree (s.frpBase k) (s.blockLimbs k)

/-! The scratch demand (70_reset_and_hazards.md R268). -/

/-- The commands that 60_exceptions.md R232 allows `AllocFailed`. Of every other command R232 says that it never raises it. -/
def allocates : Instr → Bool
  | .lmul .. | .lunpack .. | .bunpack .. | .yunpack .. | .fpmul .. | .fpsqr .. | .fft .. | .ifft .. | .cconv .. | .nconv ..
  | .cmul .. | .kmul .. | .kmulT .. | .kmulTL .. => true
  | .nop | .seti .. | .shli .. | .csrr .. | .csrw .. | .ladd .. | .lsub .. | .ldivrem .. | .lrecip .. | .ldiv1p .. | .lcopy ..
  | .lclr .. | .lcmp .. | .pbits .. | .plimbs .. | .lpack .. | .bpack .. | .ypack .. | .fadd .. | .fsub .. | .fnorm ..
  | .frescale .. | .fsetlen .. | .flowern .. | .fmulrho .. | .fbfly .. | .ibfly .. => false

/-- The default table of `SCRNEED`, in limbs (70_reset_and_hazards.md R268). -/
def State.defaultNeed (s : State) : Instr → Nat
  | .lmul _ sa sb => s.spanLen sa + s.spanLen sb
  | .fpmul fd _ _ => 2 * (s.frpN fd + 1)
  | .fpsqr fd _ => 2 * (s.frpN fd + 1)
  | .cconv fd _ _ _ => 2 * (s.frpN fd + 1)
  | .nconv fd _ _ _ => 2 * (s.frpN fd + 1)
  | .cmul _ pa pb => s.cipLimbs pa + s.cipLimbs pb + 2
  | .kmul _ pa pb => 4 * (s.cipLen pa + s.cipLen pb) * (s.cipLimbs pa + s.cipLimbs pb + 2)
  | .kmulT _ pa pb _ => 4 * (s.cipLen pa + s.cipLen pb) * (s.cipLimbs pa + s.cipLimbs pb + 2)
  | .kmulTL _ pa pb _ => 4 * (s.cipLen pa + s.cipLen pb) * (s.cipLimbs pa + s.cipLimbs pb + 2)
  | .nop | .seti .. | .shli .. | .csrr .. | .csrw .. | .ladd .. | .lsub .. | .ldivrem .. | .lrecip .. | .ldiv1p .. | .lcopy ..
  | .lclr .. | .lcmp .. | .pbits .. | .plimbs .. | .lpack .. | .lunpack .. | .bpack .. | .bunpack .. | .ypack .. | .yunpack ..
  | .fadd .. | .fsub .. | .fnorm .. | .frescale .. | .fsetlen .. | .flowern .. | .fmulrho .. | .fbfly .. | .ibfly ..
  | .fft .. | .ifft .. => 0

/-- What a command reads of a span slot it names as an input: the fields and the number (10_state.md R37). -/
def State.spanRead (s : State) (k : SpanIx) : List Int := [s.spanBase k, s.spanLen k, s.spanNum k]

/-- The fields of a CIP slot a command names, all of which it checks (70_reset_and_hazards.md R266). -/
def State.cipFields (s : State) (k : CipIx) : List Int := [s.cipBase k, s.cipLimbs k, s.cipLen k, s.cipAlloc k]

/-- What a command reads of a CIP slot it names as an input: the fields and the coefficients below `LEN` (10_state.md R42). A
header beyond `LIMBS` names no limbs, and counts as 0 here. -/
def State.cipRead (s : State) (k : CipIx) : List Int :=
  s.cipFields k ++ (List.range (s.cipLen k)).map (fun i =>
    if (s.cipHeader k i).natAbs ≤ s.cipLimbs k then s.cipCoeff k i else 0)

/-- The fields of an FRP slot a command names, all of which it checks (70_reset_and_hazards.md R266). -/
def State.frpFields (s : State) (k : FrpIx) : List Int :=
  [s.frpBase k, s.frpDepth k, s.frpN k, s.frpLen k, s.frpScratch k]

/-- What a command reads of an FRP slot it names as an input: the fields and the residues below `LEN` (10_state.md R48). -/
def State.frpRead (s : State) (k : FrpIx) : List Int := s.frpFields k ++ (s.vals k).map (fun v => (v : Int))

/-- What `BUNPACK` and `YUNPACK` read of their FRP slot: of each coefficient below `LEN` the low `n` limbs, not the overflow limb
(41_packing.md R136, R138). -/
def State.frpLowRead (s : State) (k : FrpIx) : List Int :=
  s.frpFields k ++ (List.range (s.frpLen k)).map (fun i => ((s.memRead (s.caddr k i) (s.frpN k) : Nat) : Int))

/-- The content of a register a command reads. -/
def State.regRead (s : State) (r : Reg) : Int := ((s.reg r).toNat : Int)

/-- What a command that may raise `AllocFailed` reads of the state: the registers and slots it names, of an output span `BASE`
alone (10_state.md R37), for `KMUL` the threshold (10_state.md R35), and its source operands. So it reads not `FLAGS` (10_state.md
R28), no limb of the list of 20_memory.md R72, and nothing of the commands before it (70_reset_and_hazards.md R269). -/
def State.readData (s : State) : Instr → List Int
  | .lmul sd sa sb => (s.spanBase sd : Int) :: s.spanRead sa ++ s.spanRead sb
  | .lunpack pd fa xb xw xc _ _ => [s.regRead xb, s.regRead xw, s.regRead xc] ++ s.cipFields pd ++ s.frpRead fa
  | .bunpack pd fa xb xw xc _ _ => [s.regRead xb, s.regRead xw, s.regRead xc] ++ s.cipFields pd ++ s.frpLowRead fa
  | .yunpack pd fa xb xw xc _ _ => [s.regRead xb, s.regRead xw, s.regRead xc] ++ s.cipFields pd ++ s.frpLowRead fa
  | .fpmul fd fa fb => s.frpFields fd ++ s.frpRead fa ++ s.frpRead fb
  | .fpsqr fd fa => s.frpFields fd ++ s.frpRead fa
  | .fft fd xm => s.regRead xm :: s.frpRead fd
  | .ifft fd => s.frpRead fd
  | .cconv fd fa fb xm => s.regRead xm :: s.frpFields fd ++ s.frpRead fa ++ s.frpRead fb
  | .nconv fd fa fb xm => s.regRead xm :: s.frpFields fd ++ s.frpRead fa ++ s.frpRead fb
  | .cmul pd pa pb => s.cipFields pd ++ s.cipRead pa ++ s.cipRead pb
  | .kmul pd pa pb => (s.kcut.toNat : Int) :: s.cipFields pd ++ s.cipRead pa ++ s.cipRead pb
  | .kmulT pd pa pb xt => (s.kcut.toNat : Int) :: s.regRead xt :: s.cipFields pd ++ s.cipRead pa ++ s.cipRead pb
  | .kmulTL pd pa pb xt => (s.kcut.toNat : Int) :: s.regRead xt :: s.cipFields pd ++ s.cipRead pa ++ s.cipRead pb
  | .nop | .seti .. | .shli .. | .csrr .. | .csrw .. | .ladd .. | .lsub .. | .ldivrem .. | .lrecip .. | .ldiv1p .. | .lcopy ..
  | .lclr .. | .lcmp .. | .pbits .. | .plimbs .. | .lpack .. | .bpack .. | .ypack .. | .fadd .. | .fsub .. | .fnorm ..
  | .frescale .. | .fsetlen .. | .flowern .. | .fmulrho .. | .fbfly .. | .ibfly .. => []

/-- The scratch demand of command `i` under the parameter `SCRNEED` (00_scope.md R6, 70_reset_and_hazards.md R268). An own
function says nothing of the commands that never raise `AllocFailed` (60_exceptions.md R232). Log entry 2. -/
def State.scrNeed (s : State) (i : Instr) : Nat :=
  match s.params.scrTable with
  | .default => s.defaultNeed i
  | .own k => if allocates i then Config.scrNeed k s.params i (s.readData i) else 0

/-- The scratch demand of command `i` does not exceed `SCRCAP` (70_reset_and_hazards.md R268). -/
abbrev State.ScratchFits (s : State) (i : Instr) : Prop := s.scrNeed i ≤ s.params.scrCap

/-! The checks of 42_fermat_ring.md R154, for one, two and three named slots, up to class (3): the operand conditions
marked `IllegalCommand` and `LengthOverflow` in a command's own rule come with them. -/

/-- The classes (2), (3), (4) of R154 for one slot, `legal` and `fits` the command's own conditions. -/
def State.checkFrp (s : State) (k : FrpIx) (legal fits : Prop) [Decidable legal] [Decidable fits] : Except ErrorKind Unit := do
  require (s.FrpShape k) .illegalCommand
  require legal .illegalCommand
  require (s.FrpIn k) .lengthOverflow
  require fits .lengthOverflow
  require (s.frpN k ≠ 0) .ringTooSmall

/-- The classes (2), (3), (4) of R154 for three slots of equal geometry. -/
def State.checkFrps (s : State) (d a b : FrpIx) (legal fits : Prop) [Decidable legal] [Decidable fits] :
    Except ErrorKind Unit := do
  require (s.FrpShape d ∧ s.FrpShape a ∧ s.FrpShape b) .illegalCommand
  require (s.SameGeometry d a ∧ s.SameGeometry d b) .illegalCommand
  require legal .illegalCommand
  require (s.FrpIn d ∧ s.FrpIn a ∧ s.FrpIn b) .lengthOverflow
  require fits .lengthOverflow
  require (s.frpN d ≠ 0) .ringTooSmall

end Sys2Proof.Machine
end

