-- ==== Sys2Proof/Machine/Fermat.lean ====
section
/-! DEFINITION. Fermat-ring arithmetic, roots of unity and butterflies (42_fermat_ring.md). -/

namespace Sys2Proof.Machine

/-- `M_n` of slot `k` (42_fermat_ring.md R150). -/
def State.modulus (s : State) (k : FrpIx) : Nat := fermatMod s.width (s.frpN k)

/-- `MULRHO_n(v, e)` in the ring of slot `k` (42_fermat_ring.md R152). -/
def State.timesRho (s : State) (k : FrpIx) (v e : Nat) : Nat := mulRho s.width (s.frpN k) v e

/-- The effect of `FNORM` (42_fermat_ring.md R155). -/
def fnormBody (fd : FrpIx) (s : State) : Except ErrorKind State := do
  s.checkFrp fd True True
  return s.writeCoeffs fd (s.vals fd)

/-- `FNORM Fd` (42_fermat_ring.md R155). -/
def execFnorm (fd : FrpIx) (s : State) : Host.Outcome State Fault Refusal := command s (fnormBody fd s)

/-- The effect common to `FADD` and `FSUB`: the raw patterns combined modulo `B^(n+1)` (42_fermat_ring.md R156, R157). -/
def rawBody (fd fa fb : FrpIx) (combine : Int → Int → Int) (s : State) : Except ErrorKind State := do
  s.checkFrps fd fa fb (s.frpLen fa = s.frpLen fb) True
  let vs := List.zipWith (fun a b => natMod (combine (a : Nat) (b : Nat)) (s.radix ^ (s.frpN fd + 1))) (s.raws fa) (s.raws fb)
  return (s.writeCoeffs fd vs).setFrpLen fd (s.frpLen fa)

/-- `FADD Fd, Fa, Fb` (42_fermat_ring.md R156). -/
def execFadd (fd fa fb : FrpIx) (s : State) : Host.Outcome State Fault Refusal :=
  command s (rawBody fd fa fb (fun a b => a + b) s)

/-- `FSUB Fd, Fa, Fb` (42_fermat_ring.md R157). -/
def execFsub (fd fa fb : FrpIx) (s : State) : Host.Outcome State Fault Refusal :=
  command s (rawBody fd fa fb (fun a b => a - b) s)

/-- The writes of a pointwise product: the inputs normalised in place, then the products (42_fermat_ring.md R158). -/
def State.writePointwise (s : State) (fd fa fb : FrpIx) : State :=
  let prods := List.zipWith (fun u v => u * v % s.modulus fd) (s.vals fa) (s.vals fb)
  let t := (s.writeCoeffs fa (s.vals fa)).writeCoeffs fb (s.vals fb)
  (t.writeCoeffs fd prods).setFrpLen fd (s.frpLen fa)

/-- The checks and effect common to `FPMUL` and `FPSQR`, `i` the command (42_fermat_ring.md R158, R159). -/
def pointwiseBody (fd fa fb : FrpIx) (i : Instr) (s : State) : Except ErrorKind State := do
  s.checkFrps fd fa fb (s.frpLen fa = s.frpLen fb) True
  require (s.ScratchFits i) .allocFailed
  return s.writePointwise fd fa fb

/-- `FPMUL Fd, Fa, Fb` (42_fermat_ring.md R158). -/
def execFpmul (fd fa fb : FrpIx) (s : State) : Host.Outcome State Fault Refusal :=
  command s (pointwiseBody fd fa fb (.fpmul fd fa fb) s)

/-- `FPSQR Fd, Fa`: "those of `FPMUL Fd, Fa, Fa`" (42_fermat_ring.md R159). -/
def execFpsqr (fd fa : FrpIx) (s : State) : Host.Outcome State Fault Refusal :=
  command s (pointwiseBody fd fa fa (.fpsqr fd fa) s)

/-- The effect of `FRESCALE`: every coefficient times `2^(−depth)` (42_fermat_ring.md R160). -/
def frescaleBody (fd : FrpIx) (s : State) : Except ErrorKind State := do
  s.checkFrp fd True True
  let e := rescaleExp s.width (s.frpN fd) (s.frpDepth fd)
  return s.writeCoeffs fd ((s.vals fd).map (fun v => s.timesRho fd v e))

/-- `FRESCALE Fd` (42_fermat_ring.md R160). -/
def execFrescale (fd : FrpIx) (s : State) : Host.Outcome State Fault Refusal := command s (frescaleBody fd s)

/-- The effect of `FSETLEN`: growing writes zeros, shrinking writes no limb (42_fermat_ring.md R161). -/
def fsetlenBody (fd : FrpIx) (xm : Reg) (s : State) : Except ErrorKind State := do
  let m := (s.reg xm).toNat
  s.checkFrp fd True (m ≤ s.frpSize fd)
  let len := s.frpLen fd
  return (s.memWrite (s.caddr fd len) ((m - len) * (s.frpN fd + 1)) 0).setFrpLen fd m

/-- `FSETLEN Fd, xm` (42_fermat_ring.md R161). -/
def execFsetlen (fd : FrpIx) (xm : Reg) (s : State) : Host.Outcome State Fault Refusal := command s (fsetlenBody fd xm s)

/-- The effect of `FLOWERN`: the block re-described, the polynomial emptied, no limb written (42_fermat_ring.md R162). -/
def flowernBody (fd : FrpIx) (xn : Reg) (s : State) : Except ErrorKind State := do
  let n := (s.reg xn).toNat
  s.checkFrp fd (n ≤ s.frpN fd) True
  require (1 ≤ n) .ringTooSmall
  return (s.setFrpN fd n).setFrpLen fd 0

/-- `FLOWERN Fd, xn` (42_fermat_ring.md R162). -/
def execFlowern (fd : FrpIx) (xn : Reg) (s : State) : Host.Outcome State Fault Refusal := command s (flowernBody fd xn s)

/-- The effect of `FMULRHO` (42_fermat_ring.md R163). -/
def fmulrhoBody (fd : FrpIx) (xi xe : Reg) (s : State) : Except ErrorKind State := do
  let i := (s.reg xi).toNat
  s.checkFrp fd (i < s.frpLen fd) True
  return s.writeCoeff fd i (s.timesRho fd (s.val fd i) (s.reg xe).toNat)

/-- `FMULRHO Fd, xi, xe` (42_fermat_ring.md R163). -/
def execFmulrho (fd : FrpIx) (xi xe : Reg) (s : State) : Host.Outcome State Fault Refusal := command s (fmulrhoBody fd xi xe s)

/-- The two writes of a butterfly, at `i` then at `j` (42_fermat_ring.md R164, R165). -/
def State.writePair (s : State) (fd : FrpIx) (i j u v : Nat) : State := (s.writeCoeff fd i u).writeCoeff fd j v

/-- The operand conditions of a butterfly (42_fermat_ring.md R164). -/
abbrev State.Distinct (s : State) (fd : FrpIx) (i j : Nat) : Prop := i < s.frpLen fd ∧ j < s.frpLen fd ∧ i ≠ j

/-- `(u − v) mod M` in the ring of slot `k`. -/
def State.subMod (s : State) (k : FrpIx) (u v : Nat) : Nat := natMod ((u : Int) - (v : Int)) (s.modulus k)

/-- The effect of `FBFLY` (42_fermat_ring.md R164). -/
def fbflyBody (fd : FrpIx) (xi xj xe : Reg) (s : State) : Except ErrorKind State := do
  let i := (s.reg xi).toNat
  let j := (s.reg xj).toNat
  s.checkFrp fd (s.Distinct fd i j) True
  let u := s.val fd i
  let v := s.val fd j
  return s.writePair fd i j ((u + v) % s.modulus fd) (s.timesRho fd (s.subMod fd u v) (s.reg xe).toNat)

/-- `FBFLY Fd, xi, xj, xe` (42_fermat_ring.md R164). -/
def execFbfly (fd : FrpIx) (xi xj xe : Reg) (s : State) : Host.Outcome State Fault Refusal := command s (fbflyBody fd xi xj xe s)

/-- The effect of `IBFLY` (42_fermat_ring.md R165). -/
def ibflyBody (fd : FrpIx) (xi xj xe : Reg) (s : State) : Except ErrorKind State := do
  let i := (s.reg xi).toNat
  let j := (s.reg xj).toNat
  s.checkFrp fd (s.Distinct fd i j) True
  let u := s.val fd i
  let t := s.timesRho fd (s.val fd j) (negExp s.width (s.frpN fd) (s.reg xe).toNat)
  return s.writePair fd i j ((u + t) % s.modulus fd) (s.subMod fd u t)

/-- `IBFLY Fd, xi, xj, xe` (42_fermat_ring.md R165). -/
def execIbfly (fd : FrpIx) (xi xj xe : Reg) (s : State) : Host.Outcome State Fault Refusal := command s (ibflyBody fd xi xj xe s)

end Sys2Proof.Machine
end

