-- ==== Sys2Proof/Machine/Limb.lean ====
section
/-! DEFINITION. The limb primitives (40_limb_primitives.md). -/

namespace Sys2Proof.Machine

/-- The checks of `LADD` and `LSUB`: the regions of both sources and of the `max(la, lb)` limbs written
(40_limb_primitives.md R101, R102). -/
def addSubCheck (sd sa sb : SpanIx) (s : State) : Except ErrorKind Unit := do
  require (s.SpanIn sa) .lengthOverflow
  require (s.SpanIn sb) .lengthOverflow
  require (s.SpanOut sd (max (s.spanLen sa) (s.spanLen sb))) .lengthOverflow

/-- The effect of `LADD` (40_limb_primitives.md R101). -/
def laddBody (sd sa sb : SpanIx) (s : State) : Except ErrorKind State := do
  addSubCheck sd sa sb s
  let m := max (s.spanLen sa) (s.spanLen sb)
  let t := s.spanNum sa + s.spanNum sb
  return (s.writeSpan sd m (t % s.radix ^ m)).setFlagC (carryOut s.radix m t)

/-- `LADD Sd, Sa, Sb` (40_limb_primitives.md R101). -/
def execLadd (sd sa sb : SpanIx) (s : State) : Host.Outcome State Fault Refusal := command s (laddBody sd sa sb s)

/-- The effect of `LSUB` (40_limb_primitives.md R102). -/
def lsubBody (sd sa sb : SpanIx) (s : State) : Except ErrorKind State := do
  addSubCheck sd sa sb s
  let m := max (s.spanLen sa) (s.spanLen sb)
  let t := (s.spanNum sa : Int) - (s.spanNum sb : Int)
  return (s.writeSpan sd m (natMod t (s.radix ^ m))).setFlagC (borrowOut (s.spanNum sa) (s.spanNum sb))

/-- `LSUB Sd, Sa, Sb` (40_limb_primitives.md R102). -/
def execLsub (sd sa sb : SpanIx) (s : State) : Host.Outcome State Fault Refusal := command s (lsubBody sd sa sb s)

/-- The effect of `LMUL` (40_limb_primitives.md R103). -/
def lmulBody (sd sa sb : SpanIx) (s : State) : Except ErrorKind State := do
  let m := s.spanLen sa + s.spanLen sb
  require (s.SpanIn sa) .lengthOverflow
  require (s.SpanIn sb) .lengthOverflow
  require (s.SpanOut sd m) .lengthOverflow
  require (s.ScratchFits (.lmul sd sa sb)) .allocFailed
  return s.writeSpan sd m (s.spanNum sa * s.spanNum sb)

/-- `LMUL Sd, Sa, Sb` (40_limb_primitives.md R103). -/
def execLmul (sd sa sb : SpanIx) (s : State) : Host.Outcome State Fault Refusal := command s (lmulBody sd sa sb s)

/-- The two writes of `LDIVREM`, quotient first, all values and bases from the state before (40_limb_primitives.md R104). -/
def State.writeDivision (s : State) (sq sr : SpanIx) (la lv q r : Nat) : State :=
  (((s.memWrite (s.spanBase sq) la q).setSpanLen sq la).memWrite (s.spanBase sr) lv r).setSpanLen sr lv

/-- The effect of `LDIVREM` (40_limb_primitives.md R104). -/
def ldivremBody (sq sr sa sv : SpanIx) (s : State) : Except ErrorKind State := do
  require (s.SpanIn sa) .lengthOverflow
  require (s.SpanIn sv) .lengthOverflow
  require (s.SpanOut sq (s.spanLen sa)) .lengthOverflow
  require (s.SpanOut sr (s.spanLen sv)) .lengthOverflow
  require (s.spanNum sv ≠ 0) .divisionByZero
  return s.writeDivision sq sr (s.spanLen sa) (s.spanLen sv) (s.spanNum sa / s.spanNum sv) (s.spanNum sa % s.spanNum sv)

/-- `LDIVREM Sq, Sr, Sa, Sv` (40_limb_primitives.md R104). -/
def execLdivrem (sq sr sa sv : SpanIx) (s : State) : Host.Outcome State Fault Refusal := command s (ldivremBody sq sr sa sv s)

/-- `RECIP(d) = ((B^2 − 1) div dn) − B` with `dn = d·2^(W − bitlen(d))` (40_limb_primitives.md R111). -/
def recip (w d : Nat) : Nat := ((2 ^ w) ^ 2 - 1) / (d * 2 ^ (w - bitlen d)) - 2 ^ w

/-- `x[r] mod B` (40_limb_primitives.md R105, R106). -/
def State.regLimb (s : State) (r : Reg) : Nat := (s.reg r).toNat % s.radix

/-- The effect of `LRECIP` (40_limb_primitives.md R105). -/
def lrecipBody (xd xs : Reg) (s : State) : Except ErrorKind State := do
  require (s.regLimb xs ≠ 0) .divisionByZero
  return s.setRegNat xd (recip s.width (s.regLimb xs))

/-- `LRECIP xd, xs` (40_limb_primitives.md R105). -/
def execLrecip (xd xs : Reg) (s : State) : Host.Outcome State Fault Refusal := command s (lrecipBody xd xs s)

/-- The effect of `LDIV1P` (40_limb_primitives.md R106). With a reciprocal that does not match, the quotient limbs and the
remainder register are free (93_implementation_defined.md U4). Log entry 12. -/
def ldiv1pBody (sq sa : SpanIx) (xv xi xr : Reg) (s : State) : Except ErrorKind State := do
  let la := s.spanLen sa
  let dv := s.regLimb xv
  require (s.SpanIn sa) .lengthOverflow
  require (s.SpanOut sq la) .lengthOverflow
  require (dv ≠ 0) .divisionByZero
  if s.regLimb xi = recip s.width dv then
    return (s.writeSpan sq la (s.spanNum sa / dv)).setRegNat xr (s.spanNum sa % dv)
  else
    return ((s.memFree (s.spanBase sq) la).setSpanLen sq la).setReg xr (Config.freeWord s.epoch)

/-- `LDIV1P Sq, Sa, xv, xi, xr` (40_limb_primitives.md R106). -/
def execLdiv1p (sq sa : SpanIx) (xv xi xr : Reg) (s : State) : Host.Outcome State Fault Refusal :=
  command s (ldiv1pBody sq sa xv xi xr s)

/-- The effect of `LCOPY` (40_limb_primitives.md R107). -/
def lcopyBody (sd sa : SpanIx) (s : State) : Except ErrorKind State := do
  require (s.SpanIn sa) .lengthOverflow
  require (s.SpanOut sd (s.spanLen sa)) .lengthOverflow
  return s.writeSpan sd (s.spanLen sa) (s.spanNum sa)

/-- `LCOPY Sd, Sa` (40_limb_primitives.md R107). -/
def execLcopy (sd sa : SpanIx) (s : State) : Host.Outcome State Fault Refusal := command s (lcopyBody sd sa s)

/-- The effect of `LCLR`: the one command that reads the `LEN` of its output span (40_limb_primitives.md R108). -/
def lclrBody (sd : SpanIx) (s : State) : Except ErrorKind State := do
  require (s.SpanIn sd) .lengthOverflow
  return s.memWrite (s.spanBase sd) (s.spanLen sd) 0

/-- `LCLR Sd` (40_limb_primitives.md R108). -/
def execLclr (sd : SpanIx) (s : State) : Host.Outcome State Fault Refusal := command s (lclrBody sd s)

/-- The three-valued result of a comparison: 1, 0 or 2^64 − 1 (40_limb_primitives.md R109). -/
def compareWord (a b : Nat) : Word := if b < a then 1 else if a = b then 0 else -1

/-- The effect of `LCMP` (40_limb_primitives.md R109). -/
def lcmpBody (xd : Reg) (sa sb : SpanIx) (s : State) : Except ErrorKind State := do
  require (s.SpanIn sa) .lengthOverflow
  require (s.SpanIn sb) .lengthOverflow
  return s.setReg xd (compareWord (s.spanNum sa) (s.spanNum sb))

/-- `LCMP xd, Sa, Sb` (40_limb_primitives.md R109). -/
def execLcmp (xd : Reg) (sa sb : SpanIx) (s : State) : Host.Outcome State Fault Refusal := command s (lcmpBody xd sa sb s)

end Sys2Proof.Machine
end

