-- ==== Sys2Proof/Machine/Pack.lean ====
section
/-! DEFINITION. The coefficient scans and the limb, bit and byte packers and unpackers (41_packing.md). -/

namespace Sys2Proof.Machine

/-! The scans (41_packing.md R121, R122). -/

/-- The largest value of a list, 0 for the empty one. -/
def listMax (l : List Nat) : Nat := l.foldr max 0

/-- The sign indicator of a scan: 1 when some coefficient is negative (41_packing.md R121). -/
def signIndicator (c : List Int) : Nat := if c.any (fun v => decide (v < 0)) then 1 else 0

/-- The checks of a scan (41_packing.md R121). -/
def scanCheck (pa : CipIx) (s : State) : Except ErrorKind Unit := do
  require (s.CipShape pa) .illegalCommand
  require (s.CipIn pa) .lengthOverflow

/-- The effect of `PBITS`: the count first, then the sign indicator (41_packing.md R121). -/
def pbitsBody (xd xs : Reg) (pa : CipIx) (s : State) : Except ErrorKind State := do
  scanCheck pa s
  let c := s.poly pa
  return (s.setRegNat xd (listMax (c.map (fun v => bitlen v.natAbs)))).setRegNat xs (signIndicator c)

/-- `PBITS xd, xs, Pa` (41_packing.md R121). -/
def execPbits (xd xs : Reg) (pa : CipIx) (s : State) : Host.Outcome State Fault Refusal := command s (pbitsBody xd xs pa s)

/-- The effect of `PLIMBS` (41_packing.md R122). -/
def plimbsBody (xd xs : Reg) (pa : CipIx) (s : State) : Except ErrorKind State := do
  scanCheck pa s
  let c := s.poly pa
  return (s.setRegNat xd (listMax (c.map (fun v => nlimbs s.width v.natAbs)))).setRegNat xs (signIndicator c)

/-- `PLIMBS xd, xs, Pa` (41_packing.md R122). -/
def execPlimbs (xd xs : Reg) (pa : CipIx) (s : State) : Host.Outcome State Fault Refusal := command s (plimbsBody xd xs pa s)

/-! Fields (41_packing.md R120, R123, R124, R126). -/

/-- The three packings, which differ in how the field width is given (41_packing.md R123). -/
inductive Packing where
  | limbs
  | bits
  | bytes
deriving DecidableEq, Repr

/-- The condition on the width operand `v` (41_packing.md R123). -/
def widthLegal (p : Packing) (w v : Nat) : Bool :=
  match p with
  | .limbs => decide (1 ≤ v)
  | .bits => decide (1 ≤ v) && decide (v ≤ w)
  | .bytes => decide (w ≤ 8 * v)

/-- The field width `f` in bits (41_packing.md R123). -/
def fieldWidth (p : Packing) (w v : Nat) : Nat :=
  match p with
  | .limbs => v * w
  | .bits => v
  | .bytes => 8 * v

/-- Negate every coefficient when `N` is set (41_packing.md R124, R127). -/
def negateIf (neg : Bool) (c : List Int) : List Int := if neg then c.map (fun v => -v) else c

/-- `PACKVAL(i) = Σ_{0 ≤ j < bundle} e[i·bundle + j]·2^(j·f)` (41_packing.md R124). -/
def packVal (e : List Int) (bundle f i : Nat) : Int := sumN bundle (fun j => e.getD (i * bundle + j) 0 * 2 ^ (j * f))

/-- The precondition of a packer: every `e[k]` lies in its field (41_packing.md R124). -/
def fieldsHold (sgn : Bool) (f : Nat) (e : List Int) : Bool :=
  e.all (fun v => if sgn then decide ((v.natAbs : Int) ≤ 2 ^ (f - 1) - 1) else decide (0 ≤ v ∧ v < 2 ^ f))

/-- `u_j = (V div 2^(j·f)) mod 2^f` (41_packing.md R126). -/
def rawField (v : Int) (f j : Nat) : Nat := natMod (v / 2 ^ (j * f)) (2 ^ f)

/-- `t_j`, the top bit of field `j`, and 0 for `j = −1`, here by `j + 1` (41_packing.md R126). -/
def fieldBorrow (v : Int) (f : Nat) : Nat → Nat
  | 0 => 0
  | j + 1 => rawField v f j / 2 ^ (f - 1) % 2

/-- `g_j`: the field itself, or with `S` its signed reading plus the top bit of the field below (41_packing.md R126). -/
def fieldValue (sgn : Bool) (v : Int) (f j : Nat) : Int :=
  if sgn then sext f (rawField v f j) + (fieldBorrow v f j : Nat) else (rawField v f j : Nat)

/-! The packers (41_packing.md R125). -/

/-- The checks common to the packers, in order, `outlen` the new length (41_packing.md R125). -/
def packCheck (p : Packing) (fd : FrpIx) (pa : CipIx) (bundle v : Nat) (s : State) : Except ErrorKind Unit := do
  require (s.FrpShape fd) .illegalCommand
  require (s.CipShape pa) .illegalCommand
  require (bundle ≠ 0) .illegalCommand
  require (s.FrpIn fd) .lengthOverflow
  require (s.CipIn pa) .lengthOverflow
  require (ceilDiv (s.cipLen pa) bundle ≤ s.frpSize fd) .lengthOverflow
  require (s.frpN fd ≠ 0) .ringTooSmall
  require (widthLegal p s.width v = true) .packDoesNotFit
  require (bundle * fieldWidth p s.width v ≤ s.frpN fd * s.width) .packDoesNotFit

/-- The coefficients a packer writes (41_packing.md R124, R125). -/
def packedCoeffs (e : List Int) (bundle f outlen patternModulus : Nat) : List Nat :=
  (List.range outlen).map (fun i => natMod (packVal e bundle f i) patternModulus)

/-- The effect common to the packers (41_packing.md R125). When a coefficient lies outside its field, every coefficient
written is free (93_implementation_defined.md U5). Log entry 13. -/
def packBody (p : Packing) (fd : FrpIx) (pa : CipIx) (xb xw : Reg) (sgn neg : Bool) (s : State) : Except ErrorKind State := do
  let bundle := (s.reg xb).toNat
  let v := (s.reg xw).toNat
  packCheck p fd pa bundle v s
  let f := fieldWidth p s.width v
  let e := negateIf neg (s.poly pa)
  let outlen := ceilDiv (s.cipLen pa) bundle
  if fieldsHold sgn f e then
    return (s.writeCoeffs fd (packedCoeffs e bundle f outlen (s.radix ^ (s.frpN fd + 1)))).setFrpLen fd outlen
  else
    return (s.memFree (s.frpBase fd) (outlen * (s.frpN fd + 1))).setFrpLen fd outlen

/-- `LPACK[.S][.N] Fd, Pa, xb, xw` (41_packing.md R129). -/
def execLpack (fd : FrpIx) (pa : CipIx) (xb xw : Reg) (sgn neg : Bool) (s : State) : Host.Outcome State Fault Refusal :=
  command s (packBody .limbs fd pa xb xw sgn neg s)

/-- `BPACK[.S][.N] Fd, Pa, xb, xw` (41_packing.md R130). -/
def execBpack (fd : FrpIx) (pa : CipIx) (xb xw : Reg) (sgn neg : Bool) (s : State) : Host.Outcome State Fault Refusal :=
  command s (packBody .bits fd pa xb xw sgn neg s)

/-- `YPACK[.S][.N] Fd, Pa, xb, xw` (41_packing.md R131). -/
def execYpack (fd : FrpIx) (pa : CipIx) (xb xw : Reg) (sgn neg : Bool) (s : State) : Host.Outcome State Fault Refusal :=
  command s (packBody .bytes fd pa xb xw sgn neg s)

/-! The unpackers (41_packing.md R127). -/

/-- The checks common to the unpackers that do not depend on the result (41_packing.md R127). -/
def unpackCheck (p : Packing) (pd : CipIx) (fa : FrpIx) (bundle v cnt : Nat) (s : State) : Except ErrorKind Unit := do
  require (s.CipShape pd) .illegalCommand
  require (s.FrpShape fa) .illegalCommand
  require (bundle ≠ 0 ∧ cnt ≠ 0) .illegalCommand
  require (s.CipIn pd) .lengthOverflow
  require (s.FrpIn fa) .lengthOverflow
  require (s.frpN fa ≠ 0) .ringTooSmall
  require (widthLegal p s.width v = true) .packDoesNotFit
  require (cnt * fieldWidth p s.width v ≤ s.frpN fa * s.width) .packDoesNotFit

/-- The integer of FRP coefficient `i`. Bit and byte unpackers take the low `n` limbs (41_packing.md R136, R138); the limb
unpacker takes the residue, balanced with `S` (R137). -/
def State.unpackInt (s : State) (p : Packing) (sgn : Bool) (fa : FrpIx) (i : Nat) : Int :=
  match p with
  | .limbs =>
    let r := s.val fa i
    if sgn = true ∧ s.radix ^ s.frpN fa < 2 * r then (r : Int) - (fermatMod s.width (s.frpN fa) : Nat) else (r : Int)
  | .bits => (s.memRead (s.caddr fa i) (s.frpN fa) : Nat)
  | .bytes => (s.memRead (s.caddr fa i) (s.frpN fa) : Nat)

/-- `Ld`, the length before normalisation (41_packing.md R127). -/
def unpackLength (m bundle cnt : Nat) : Nat := if 0 < m then (m - 1) * bundle + cnt else 0

/-- The sums `out[k]` of the fields that land on index `k`: field `k − i·bundle` of coefficient `i` (41_packing.md R127). -/
def unpackSums (sgn : Bool) (ints : Nat → Int) (m bundle cnt f : Nat) : List Int :=
  (List.range (unpackLength m bundle cnt)).map (fun k =>
    sumN m (fun i => if i * bundle ≤ k ∧ k < i * bundle + cnt then fieldValue sgn (ints i) f (k - i * bundle) else 0))

/-- The normalised result of an unpacker (41_packing.md R127). -/
def State.unpacked (s : State) (p : Packing) (fa : FrpIx) (bundle v cnt : Nat) (sgn neg : Bool) : List Int :=
  trim (negateIf neg (unpackSums sgn (s.unpackInt p sgn fa) (s.frpLen fa) bundle cnt (fieldWidth p s.width v)))

/-- The effect common to the unpackers, `i` the command (41_packing.md R127). -/
def unpackBody (i : Instr) (p : Packing) (pd : CipIx) (fa : FrpIx) (xb xw xc : Reg) (sgn neg : Bool) (s : State) :
    Except ErrorKind State := do
  let bundle := (s.reg xb).toNat
  let v := (s.reg xw).toNat
  let cnt := (s.reg xc).toNat
  unpackCheck p pd fa bundle v cnt s
  let out := s.unpacked p fa bundle v cnt sgn neg
  require (s.CoeffsFit pd out) .truncationLoses
  require (s.LengthFits pd out) .allocFailed
  require (s.ScratchFits i) .allocFailed
  return s.writePoly pd out

/-- `LUNPACK[.S][.N] Pd, Fa, xb, xw, xc` (41_packing.md R137). -/
def execLunpack (pd : CipIx) (fa : FrpIx) (xb xw xc : Reg) (sgn neg : Bool) (s : State) : Host.Outcome State Fault Refusal :=
  command s (unpackBody (.lunpack pd fa xb xw xc sgn neg) .limbs pd fa xb xw xc sgn neg s)

/-- The destination coefficients of `BUNPACK` that must be zero beforehand: `min(Ld, ALLOC)` (41_packing.md R136). -/
def State.preZeroed (s : State) (pd : CipIx) (fa : FrpIx) (bundle cnt : Nat) : Nat :=
  min (unpackLength (s.frpLen fa) bundle cnt) (s.cipAlloc pd)

/-- Those coefficients and `P[Pd].LEN` become free, the length at most their number (93_implementation_defined.md U6). -/
def State.freePoly (s : State) (pd : CipIx) (m : Nat) : State :=
  (s.memFree (s.cipBase pd) (m * (s.cipLimbs pd + 1))).setCipLen pd (Config.freeLength s.epoch % (m + 1))

/-- The effect of `BUNPACK` (41_packing.md R136): that of R127 when every limb of those destination coefficients was zero,
else U6, with the checks as written. Log entry 14. -/
def bunpackBody (pd : CipIx) (fa : FrpIx) (xb xw xc : Reg) (sgn neg : Bool) (s : State) : Except ErrorKind State := do
  let t ← unpackBody (.bunpack pd fa xb xw xc sgn neg) .bits pd fa xb xw xc sgn neg s
  let m := s.preZeroed pd fa (s.reg xb).toNat (s.reg xc).toNat
  if s.memRead (s.cipBase pd) (m * (s.cipLimbs pd + 1)) = 0 then return t else return s.freePoly pd m

/-- `BUNPACK[.S][.N] Pd, Fa, xb, xw, xc` (41_packing.md R136). -/
def execBunpack (pd : CipIx) (fa : FrpIx) (xb xw xc : Reg) (sgn neg : Bool) (s : State) : Host.Outcome State Fault Refusal :=
  command s (bunpackBody pd fa xb xw xc sgn neg s)

/-- `YUNPACK[.S][.N] Pd, Fa, xb, xw, xc` (41_packing.md R138). -/
def execYunpack (pd : CipIx) (fa : FrpIx) (xb xw xc : Reg) (sgn neg : Bool) (s : State) : Host.Outcome State Fault Refusal :=
  command s (unpackBody (.yunpack pd fa xb xw xc sgn neg) .bytes pd fa xb xw xc sgn neg s)

end Sys2Proof.Machine
end

