-- ==== Sys2Proof/Machine/Product.lean ====
section
/-! DEFINITION. Classical and Karatsuba multiplication of compact polynomials (44_multiplication_engine.md). -/

namespace Sys2Proof.Machine

/-- The checks and effect common to the products, `i` the command and `product` the list before normalisation (44_multiplication_engine.md R200). -/
def productBody (pd pa pb : CipIx) (i : Instr) (product : List Int → List Int → List Int) (s : State) :
    Except ErrorKind State := do
  require (s.CipShape pd ∧ s.CipShape pa ∧ s.CipShape pb) .illegalCommand
  require (s.CipIn pd ∧ s.CipIn pa ∧ s.CipIn pb) .lengthOverflow
  let out := trim (product (s.poly pa) (s.poly pb))
  require (s.CoeffsFit pd out) .truncationLoses
  require (s.LengthFits pd out) .allocFailed
  require (s.ScratchFits i) .allocFailed
  return s.writePoly pd out

/-- `CMUL Pd, Pa, Pb` (44_multiplication_engine.md R201). -/
def execCmul (pd pa pb : CipIx) (s : State) : Host.Outcome State Fault Refusal :=
  command s (productBody pd pa pb (.cmul pd pa pb) fullProduct s)

/-- The product as the recursion controller forms it with the threshold in `KCUT`, the recursion no deeper than the longer
operand (44_multiplication_engine.md R204). -/
def State.controlled (s : State) (a b : List Int) : List Int := karatsuba (a.length + b.length) s.kcut.toNat a b

/-- `KMUL Pd, Pa, Pb`, mode 0, the full product (44_multiplication_engine.md R203). -/
def execKmul (pd pa pb : CipIx) (s : State) : Host.Outcome State Fault Refusal :=
  command s (productBody pd pa pb (.kmul pd pa pb) s.controlled s)

/-- `KMUL.T Pd, Pa, Pb, xt`, mode 1, the low `x[xt]` coefficients (44_multiplication_engine.md R203). -/
def execKmulT (pd pa pb : CipIx) (xt : Reg) (s : State) : Host.Outcome State Fault Refusal :=
  command s (productBody pd pa pb (.kmulT pd pa pb xt) (fun a b => truncate (s.controlled a b) (s.reg xt).toNat) s)

/-- `KMUL.TL Pd, Pa, Pb, xt`, mode 2, the coefficients from `x[xt]` up (44_multiplication_engine.md R203, R205). -/
def execKmulTL (pd pa pb : CipIx) (xt : Reg) (s : State) : Host.Outcome State Fault Refusal :=
  command s (productBody pd pa pb (.kmulTL pd pa pb xt) (fun a b => truncateLeft (s.controlled a b) (s.reg xt).toNat) s)

end Sys2Proof.Machine
end

