-- ==== Sys2Proof/Machine/System.lean ====
section
/-! DEFINITION. The system commands (45_system_commands.md). -/

namespace Sys2Proof.Machine

/-- `NOP` (45_system_commands.md R220): completion and nothing else. -/
def execNop (s : State) : Host.Outcome State Fault Refusal := command s (.ok s)

/-- `SETI xd, imm16` (45_system_commands.md R221): zero-extended. -/
def execSeti (xd : Reg) (imm : Imm16) (s : State) : Host.Outcome State Fault Refusal :=
  command s (.ok (s.setReg xd (imm.setWidth 64)))

/-- `SHLI xd, imm16` (45_system_commands.md R222): "`((x[xd]·2^16) mod 2^64) + imm16`". -/
def execShli (xd : Reg) (imm : Imm16) (s : State) : Host.Outcome State Fault Refusal :=
  command s (.ok (s.setReg xd (s.reg xd * 0x10000 + imm.setWidth 64)))

/-- The effect of `CSRR` (45_system_commands.md R223): a number not in the map is `IllegalCommand`; the value read is the one
before this command. -/
def csrrBody (xd : Reg) (csr : CsrNum) (s : State) : Except ErrorKind State :=
  match Csr.ofNumber csr with
  | none => .error .illegalCommand
  | some c => .ok (s.setReg xd (s.readCsr c))

/-- `CSRR xd, csr` (45_system_commands.md R223). -/
def execCsrr (xd : Reg) (csr : CsrNum) (s : State) : Host.Outcome State Fault Refusal := command s (csrrBody xd csr s)

/-- The effect of `CSRW` (45_system_commands.md R224): a number not in the map or a read-only register is `IllegalCommand`. -/
def csrwBody (csr : CsrNum) (xs : Reg) (s : State) : Except ErrorKind State :=
  match Csr.ofNumber csr with
  | none => .error .illegalCommand
  | some c =>
    match s.writeCsr c (s.reg xs) with
    | none => .error .illegalCommand
    | some t => .ok t

/-- `CSRW csr, xs` (45_system_commands.md R224). -/
def execCsrw (csr : CsrNum) (xs : Reg) (s : State) : Host.Outcome State Fault Refusal := command s (csrwBody csr xs s)

end Sys2Proof.Machine
end

