-- ==== Sys2Proof/Machine/Transform.lean ====
section
/-! DEFINITION. The truncated transforms and the convolutions (43_fft_convolution.md). -/

namespace Sys2Proof.Machine

/-- What a transform or convolution leaves in its slot: coefficients 0, 1, … canonical, the coefficients after them and the
scratch buffers unspecified, `LEN` their number (43_fft_convolution.md R182, R185, 93_implementation_defined.md U8). -/
def State.writeTransform (s : State) (k : FrpIx) (vs : List Nat) : State :=
  ((s.writeCoeffs k vs).freeFrom k vs.length).setFrpLen k vs.length

/-- The effect of `FFT` (43_fft_convolution.md R182). Log entry 16. -/
def fftBody (fd : FrpIx) (xm : Reg) (s : State) : Except ErrorKind State := do
  let m := (s.reg xm).toNat
  s.checkFrp fd True (m ≤ s.frpSize fd)
  require (RootsExist s.width (s.frpN fd) (s.frpDepth fd)) .ringTooSmall
  require (1 ≤ s.frpScratch fd) .allocFailed
  require (s.ScratchFits (.fft fd xm)) .allocFailed
  return s.writeTransform fd ((List.range m).map (dft s.width (s.frpN fd) (s.frpDepth fd) (s.vals fd)))

/-- `FFT Fd, xm` (43_fft_convolution.md R182). -/
def execFft (fd : FrpIx) (xm : Reg) (s : State) : Host.Outcome State Fault Refusal := command s (fftBody fd xm s)

/-- The outputs of `IFFT`: `2^depth` times the sequence whose transform begins with `vals` (43_fft_convolution.md R184). -/
def State.inverseOutputs (s : State) (k : FrpIx) : List Nat :=
  (invDft s.width (s.frpN k) (s.frpDepth k) (s.vals k)).map (fun a => 2 ^ s.frpDepth k * a % s.modulus k)

/-- The effect of `IFFT` (43_fft_convolution.md R184). With `LEN` = 0 no coefficient is defined and the whole block becomes
unspecified (93_implementation_defined.md U8, 70_reset_and_hazards.md R264). Log entries 16 and 18. -/
def ifftBody (fd : FrpIx) (s : State) : Except ErrorKind State := do
  s.checkFrp fd True True
  require (RootsExist s.width (s.frpN fd) (s.frpDepth fd)) .ringTooSmall
  require (1 ≤ s.frpScratch fd) .allocFailed
  require (s.ScratchFits (.ifft fd)) .allocFailed
  return (s.writeCoeffs fd (s.inverseOutputs fd)).freeFrom fd (s.frpLen fd)

/-- `IFFT Fd` (43_fft_convolution.md R184). -/
def execIfft (fd : FrpIx) (s : State) : Host.Outcome State Fault Refusal := command s (ifftBody fd s)

/-- The checks and effect common to the convolutions, `i` the command: roots for depth `DEPTH + extra`, `coeff` the coefficients of the
product (43_fft_convolution.md R185, R186). The inputs are consumed (93_implementation_defined.md U9), log entry 17. -/
def convBody (fd fa fb : FrpIx) (xm : Reg) (extra : Nat) (i : Instr)
    (coeff : Nat → Nat → List Nat → List Nat → Nat → Nat) (s : State) : Except ErrorKind State := do
  let m := (s.reg xm).toNat
  s.checkFrps fd fa fb True (m ≤ s.frpSize fd)
  require (RootsExist s.width (s.frpN fd) (s.frpDepth fd + extra)) .ringTooSmall
  require (1 ≤ s.frpScratch fd ∧ 1 ≤ s.frpScratch fa ∧ 1 ≤ s.frpScratch fb) .allocFailed
  require (s.ScratchFits i) .allocFailed
  let c := (List.range m).map (coeff (s.modulus fd) (s.frpSize fd) (s.vals fa) (s.vals fb))
  return ((s.freeBlock fa).freeBlock fb).writeTransform fd c

/-- `CCONV Fd, Fa, Fb, xm` (43_fft_convolution.md R185). -/
def execCconv (fd fa fb : FrpIx) (xm : Reg) (s : State) : Host.Outcome State Fault Refusal :=
  command s (convBody fd fa fb xm 0 (.cconv fd fa fb xm) cyclicCoeff s)

/-- `NCONV Fd, Fa, Fb, xm` (43_fft_convolution.md R186). -/
def execNconv (fd fa fb : FrpIx) (xm : Reg) (s : State) : Host.Outcome State Fault Refusal :=
  command s (convBody fd fa fb xm 1 (.nconv fd fa fb xm) negacyclicCoeff s)

end Sys2Proof.Machine
end

