-- ==== Sys2Proof/Machine/Dispatch.lean ====
section
/-! DEFINITION. The dispatch: one arm per constructor of `Instr`, each one direct call of its meaning. -/

namespace Sys2Proof.Machine

def exec (i : Instr) (s : State) : Host.Outcome State Fault Refusal :=
  match i with
  | .nop => Sys2Proof.Machine.execNop s
  | .seti xd imm => Sys2Proof.Machine.execSeti xd imm s
  | .shli xd imm => Sys2Proof.Machine.execShli xd imm s
  | .csrr xd csr => Sys2Proof.Machine.execCsrr xd csr s
  | .csrw csr xs => Sys2Proof.Machine.execCsrw csr xs s
  | .ladd sd sa sb => Sys2Proof.Machine.execLadd sd sa sb s
  | .lsub sd sa sb => Sys2Proof.Machine.execLsub sd sa sb s
  | .lmul sd sa sb => Sys2Proof.Machine.execLmul sd sa sb s
  | .ldivrem sq sr sa sv => Sys2Proof.Machine.execLdivrem sq sr sa sv s
  | .lrecip xd xs => Sys2Proof.Machine.execLrecip xd xs s
  | .ldiv1p sq sa xv xi xr => Sys2Proof.Machine.execLdiv1p sq sa xv xi xr s
  | .lcopy sd sa => Sys2Proof.Machine.execLcopy sd sa s
  | .lclr sd => Sys2Proof.Machine.execLclr sd s
  | .lcmp xd sa sb => Sys2Proof.Machine.execLcmp xd sa sb s
  | .pbits xd xs pa => Sys2Proof.Machine.execPbits xd xs pa s
  | .plimbs xd xs pa => Sys2Proof.Machine.execPlimbs xd xs pa s
  | .lpack fd pa xb xw sgn neg => Sys2Proof.Machine.execLpack fd pa xb xw sgn neg s
  | .lunpack pd fa xb xw xc sgn neg => Sys2Proof.Machine.execLunpack pd fa xb xw xc sgn neg s
  | .bpack fd pa xb xw sgn neg => Sys2Proof.Machine.execBpack fd pa xb xw sgn neg s
  | .bunpack pd fa xb xw xc sgn neg => Sys2Proof.Machine.execBunpack pd fa xb xw xc sgn neg s
  | .ypack fd pa xb xw sgn neg => Sys2Proof.Machine.execYpack fd pa xb xw sgn neg s
  | .yunpack pd fa xb xw xc sgn neg => Sys2Proof.Machine.execYunpack pd fa xb xw xc sgn neg s
  | .fadd fd fa fb => Sys2Proof.Machine.execFadd fd fa fb s
  | .fsub fd fa fb => Sys2Proof.Machine.execFsub fd fa fb s
  | .fnorm fd => Sys2Proof.Machine.execFnorm fd s
  | .fpmul fd fa fb => Sys2Proof.Machine.execFpmul fd fa fb s
  | .fpsqr fd fa => Sys2Proof.Machine.execFpsqr fd fa s
  | .frescale fd => Sys2Proof.Machine.execFrescale fd s
  | .fsetlen fd xm => Sys2Proof.Machine.execFsetlen fd xm s
  | .flowern fd xn => Sys2Proof.Machine.execFlowern fd xn s
  | .fmulrho fd xi xe => Sys2Proof.Machine.execFmulrho fd xi xe s
  | .fbfly fd xi xj xe => Sys2Proof.Machine.execFbfly fd xi xj xe s
  | .ibfly fd xi xj xe => Sys2Proof.Machine.execIbfly fd xi xj xe s
  | .fft fd xm => Sys2Proof.Machine.execFft fd xm s
  | .ifft fd => Sys2Proof.Machine.execIfft fd s
  | .cconv fd fa fb xm => Sys2Proof.Machine.execCconv fd fa fb xm s
  | .nconv fd fa fb xm => Sys2Proof.Machine.execNconv fd fa fb xm s
  | .cmul pd pa pb => Sys2Proof.Machine.execCmul pd pa pb s
  | .kmul pd pa pb => Sys2Proof.Machine.execKmul pd pa pb s
  | .kmulT pd pa pb xt => Sys2Proof.Machine.execKmulT pd pa pb xt s
  | .kmulTL pd pa pb xt => Sys2Proof.Machine.execKmulTL pd pa pb xt s

end Sys2Proof.Machine
end

