-- ==== Sys2Proof/Machine/Step.lean ====
section
/-! DEFINITION. One step: the LAU takes the next thing the host does (30_encoding.md R80, 20_memory.md R66, R67). -/

namespace Sys2Proof.Machine

/-- An accepted command word: the command it decodes to, or `IllegalCommand` (30_encoding.md R86, R89). -/
def runWord (w : CmdWord) (s : State) : Host.Outcome State Fault Refusal :=
  match decode w with
  | .ok i => exec i s
  | .error _ => s.illegalWord

/-- One step. With no input the machine is idle, `cmd_valid` being 0 (30_encoding.md R80); else the first input is taken and
acts on the state whose host goes on with the rest. Only a command's completion pulses `done`. Log entries 6 and 10. -/
def step (s : State) : Host.Outcome State Fault Refusal :=
  match s.inputs with
  | [] => .next s.endPulse
  | .command w :: rest => runWord w { s with inputs := rest }
  | .writeLimb a v :: rest => ({ s with inputs := rest } : State).endPulse.hostWrite a v
  | .rst :: rest => { s with inputs := rest }.takeReset

/-- The state whose host presents the low `nbits` bits of `w` as its next command word. -/
def State.withFetchWord (s : State) (nbits w : Nat) : State :=
  { s with inputs := .command (BitVec.ofNat 32 (w % 2 ^ nbits)) :: s.inputs }

end Sys2Proof.Machine
end

