-- ==== Sys2Proof/Safety.lean ====
section
/-! DEFINITION. What claims about a run are stated in: the invariant of the machine, and for each command the operands it
names, when it executes normally, which errors it may raise and what it may change, each from the spec's own lists. -/

namespace Sys2Proof

open Machine

/-! The invariant. -/

/-- The values `ERR` can hold: 0 and the codes that 60_exceptions.md R231 says the LAU raises. -/
def Machine.errCodes : List Nat := [0, 1, 2, 5, 6, 7, 8, 9]

/-- The bits `ESTICKY` can hold: one for each code of `errCodes` but 0 (10_state.md R33, 60_exceptions.md R231). -/
def Machine.stickyMask : Word := 0x3E6

/-- The invariant: memory in canonical form and nothing listed outside limb memory (20_memory.md R60), `ERR` a code that is
raised (10_state.md R32), no other bit in `ESTICKY` (10_state.md R33), the scratch arena empty (10_state.md R47). -/
structure Machine.State.Inv (s : State) : Prop where
  ordered : s.mem.wf = true
  bounded : s.mem.below (s.memLimbs * s.limbBytes) = true
  errLegal : s.err.toNat ∈ errCodes
  stickyLegal : s.esticky &&& ~~~stickyMask = 0
  arenaEmpty : s.arenaSp = 0

/-! The operands a command names. -/

/-- The FRP slots a command names, destinations included. -/
def Instr.frpSlots : Instr → List FrpIx
  | .lpack fd .. | .bpack fd .. | .ypack fd .. => [fd]
  | .lunpack _ fa .. | .bunpack _ fa .. | .yunpack _ fa .. => [fa]
  | .fadd fd fa fb | .fsub fd fa fb | .fpmul fd fa fb => [fd, fa, fb]
  | .fpsqr fd fa => [fd, fa]
  | .fnorm fd | .frescale fd | .ifft fd => [fd]
  | .fsetlen fd _ | .flowern fd _ | .fft fd _ => [fd]
  | .fmulrho fd _ _ => [fd]
  | .fbfly fd _ _ _ | .ibfly fd _ _ _ => [fd]
  | .cconv fd fa fb _ | .nconv fd fa fb _ => [fd, fa, fb]
  | .nop | .seti .. | .shli .. | .csrr .. | .csrw .. | .ladd .. | .lsub .. | .lmul .. | .ldivrem .. | .lrecip ..
  | .ldiv1p .. | .lcopy .. | .lclr .. | .lcmp .. | .pbits .. | .plimbs .. | .cmul .. | .kmul .. | .kmulT ..
  | .kmulTL .. => []

/-- The CIP slots a command names, destinations included. -/
def Instr.cipSlots : Instr → List CipIx
  | .pbits _ _ pa | .plimbs _ _ pa => [pa]
  | .lpack _ pa .. | .bpack _ pa .. | .ypack _ pa .. => [pa]
  | .lunpack pd .. | .bunpack pd .. | .yunpack pd .. => [pd]
  | .cmul pd pa pb | .kmul pd pa pb => [pd, pa, pb]
  | .kmulT pd pa pb _ | .kmulTL pd pa pb _ => [pd, pa, pb]
  | .nop | .seti .. | .shli .. | .csrr .. | .csrw .. | .ladd .. | .lsub .. | .lmul .. | .ldivrem .. | .lrecip ..
  | .ldiv1p .. | .lcopy .. | .lclr .. | .lcmp .. | .fadd .. | .fsub .. | .fnorm .. | .fpmul .. | .fpsqr .. | .frescale ..
  | .fsetlen .. | .flowern .. | .fmulrho .. | .fbfly .. | .ibfly .. | .fft .. | .ifft .. | .cconv .. | .nconv .. => []

/-- The span slots a command reads as numbers, and the one `LCLR` clears by its own length. -/
def Instr.inputSpans : Instr → List SpanIx
  | .ladd _ sa sb | .lsub _ sa sb | .lmul _ sa sb => [sa, sb]
  | .ldivrem _ _ sa sv => [sa, sv]
  | .ldiv1p _ sa .. => [sa]
  | .lcopy _ sa => [sa]
  | .lclr sd => [sd]
  | .lcmp _ sa sb => [sa, sb]
  | .nop | .seti .. | .shli .. | .csrr .. | .csrw .. | .lrecip .. | .pbits .. | .plimbs .. | .lpack .. | .lunpack ..
  | .bpack .. | .bunpack .. | .ypack .. | .yunpack .. | .fadd .. | .fsub .. | .fnorm .. | .fpmul .. | .fpsqr ..
  | .frescale .. | .fsetlen .. | .flowern .. | .fmulrho .. | .fbfly .. | .ibfly .. | .fft .. | .ifft .. | .cconv ..
  | .nconv .. | .cmul .. | .kmul .. | .kmulT .. | .kmulTL .. => []

/-! When a command executes normally: the conjunction of the checks of its rule. -/

/-- The conditions of 41_packing.md R125 with the operands `bundle` and `v`. -/
abbrev Machine.State.PackReady (s : State) (p : Packing) (fd : FrpIx) (pa : CipIx) (bundle v : Nat) : Prop :=
  s.FrpShape fd ∧ s.CipShape pa ∧ bundle ≠ 0 ∧ s.FrpIn fd ∧ s.CipIn pa ∧ ceilDiv (s.cipLen pa) bundle ≤ s.frpSize fd
    ∧ s.frpN fd ≠ 0 ∧ widthLegal p s.width v = true ∧ bundle * fieldWidth p s.width v ≤ s.frpN fd * s.width

/-- The conditions (2) to (5) of 41_packing.md R127 with the operands `bundle`, `v` and `cnt`. -/
abbrev Machine.State.UnpackLegal (s : State) (p : Packing) (pd : CipIx) (fa : FrpIx) (bundle v cnt : Nat) : Prop :=
  s.CipShape pd ∧ s.FrpShape fa ∧ bundle ≠ 0 ∧ cnt ≠ 0 ∧ s.CipIn pd ∧ s.FrpIn fa
    ∧ s.frpN fa ≠ 0 ∧ widthLegal p s.width v = true ∧ cnt * fieldWidth p s.width v ≤ s.frpN fa * s.width

/-- A result list fits the destination slot: conditions (6) and (7) of 41_packing.md R127, (4) and (5) of
44_multiplication_engine.md R200. -/
abbrev Machine.State.PolyFits (s : State) (pd : CipIx) (out : List Int) : Prop := s.CoeffsFit pd out ∧ s.LengthFits pd out

/-- All the conditions of 41_packing.md R127, and the scratch demand of the command `i` (70_reset_and_hazards.md R268). -/
abbrev Machine.State.UnpackReady (s : State) (i : Instr) (p : Packing) (pd : CipIx) (fa : FrpIx) (bundle v cnt : Nat)
    (sgn neg : Bool) : Prop :=
  s.UnpackLegal p pd fa bundle v cnt ∧ s.PolyFits pd (s.unpacked p fa bundle v cnt sgn neg) ∧ s.ScratchFits i

/-- The conditions of 42_fermat_ring.md R154 for a command that names one slot and asks nothing more. -/
abbrev Machine.State.FrpReady (s : State) (k : FrpIx) : Prop := s.FrpShape k ∧ s.FrpIn k ∧ s.frpN k ≠ 0

/-- The conditions of 42_fermat_ring.md R154 for a command that names three slots and asks nothing more. -/
abbrev Machine.State.FrpsReady (s : State) (d a b : FrpIx) : Prop :=
  s.FrpReady d ∧ s.FrpReady a ∧ s.FrpReady b ∧ s.SameGeometry d a ∧ s.SameGeometry d b

/-- The conditions of 43_fft_convolution.md R185 and R186 for `m` outputs of the command `i`, roots wanted for depth
`DEPTH + extra`. -/
abbrev Machine.State.ConvReady (s : State) (d a b : FrpIx) (m extra : Nat) (i : Instr) : Prop :=
  s.FrpsReady d a b ∧ m ≤ s.frpSize d ∧ RootsExist s.width (s.frpN d) (s.frpDepth d + extra)
    ∧ 1 ≤ s.frpScratch d ∧ 1 ≤ s.frpScratch a ∧ 1 ≤ s.frpScratch b ∧ s.ScratchFits i

/-- The conditions (2) and (3) of 44_multiplication_engine.md R200. -/
abbrev Machine.State.ProductLegal (s : State) (pd pa pb : CipIx) : Prop :=
  s.CipShape pd ∧ s.CipShape pa ∧ s.CipShape pb ∧ s.CipIn pd ∧ s.CipIn pa ∧ s.CipIn pb

/-- `FULL(A, Bp)` of the operands of a product (44_multiplication_engine.md R202). -/
def Machine.State.fullOf (s : State) (pa pb : CipIx) : List Int := fullProduct (s.poly pa) (s.poly pb)

/-- The conditions of 44_multiplication_engine.md R200 for the product list `d` of the command `i`. -/
abbrev Machine.State.ProductReady (s : State) (pd pa pb : CipIx) (i : Instr) (d : List Int) : Prop :=
  s.ProductLegal pd pa pb ∧ s.PolyFits pd (trim d) ∧ s.ScratchFits i

/-- The content of a register as a number. -/
def Machine.State.regNat (s : State) (r : Reg) : Nat := (s.reg r).toNat

/-- The command executes normally in `s`: every check its rule lists holds (60_exceptions.md R232, R235). -/
def Instr.ready (i : Instr) (s : State) : Bool :=
  match i with
  | .nop | .seti .. | .shli .. => true
  | .csrr _ c => csrListed c
  | .csrw c _ => csrListed c && !csrReadOnly c
  | .ladd sd sa sb => decide (s.SpanIn sa ∧ s.SpanIn sb ∧ s.SpanOut sd (max (s.spanLen sa) (s.spanLen sb)))
  | .lsub sd sa sb => decide (s.SpanIn sa ∧ s.SpanIn sb ∧ s.SpanOut sd (max (s.spanLen sa) (s.spanLen sb)))
  | .lmul sd sa sb => decide (s.SpanIn sa ∧ s.SpanIn sb ∧ s.SpanOut sd (s.spanLen sa + s.spanLen sb)
      ∧ s.ScratchFits i)
  | .ldivrem sq sr sa sv => decide (s.SpanIn sa ∧ s.SpanIn sv ∧ s.SpanOut sq (s.spanLen sa) ∧ s.SpanOut sr (s.spanLen sv)
      ∧ s.spanNum sv ≠ 0)
  | .lrecip _ xs => decide (s.regLimb xs ≠ 0)
  | .ldiv1p sq sa xv _ _ => decide (s.SpanIn sa ∧ s.SpanOut sq (s.spanLen sa) ∧ s.regLimb xv ≠ 0)
  | .lcopy sd sa => decide (s.SpanIn sa ∧ s.SpanOut sd (s.spanLen sa))
  | .lclr sd => decide (s.SpanIn sd)
  | .lcmp _ sa sb => decide (s.SpanIn sa ∧ s.SpanIn sb)
  | .pbits _ _ pa => decide (s.CipShape pa ∧ s.CipIn pa)
  | .plimbs _ _ pa => decide (s.CipShape pa ∧ s.CipIn pa)
  | .lpack fd pa xb xw _ _ => decide (s.PackReady .limbs fd pa (s.regNat xb) (s.regNat xw))
  | .bpack fd pa xb xw _ _ => decide (s.PackReady .bits fd pa (s.regNat xb) (s.regNat xw))
  | .ypack fd pa xb xw _ _ => decide (s.PackReady .bytes fd pa (s.regNat xb) (s.regNat xw))
  | .lunpack pd fa xb xw xc sgn neg => decide (s.UnpackReady i .limbs pd fa (s.regNat xb) (s.regNat xw) (s.regNat xc) sgn neg)
  | .bunpack pd fa xb xw xc sgn neg => decide (s.UnpackReady i .bits pd fa (s.regNat xb) (s.regNat xw) (s.regNat xc) sgn neg)
  | .yunpack pd fa xb xw xc sgn neg => decide (s.UnpackReady i .bytes pd fa (s.regNat xb) (s.regNat xw) (s.regNat xc) sgn neg)
  | .fadd fd fa fb => decide (s.FrpsReady fd fa fb ∧ s.frpLen fa = s.frpLen fb)
  | .fsub fd fa fb => decide (s.FrpsReady fd fa fb ∧ s.frpLen fa = s.frpLen fb)
  | .fnorm fd => decide (s.FrpReady fd)
  | .fpmul fd fa fb => decide (s.FrpsReady fd fa fb ∧ s.frpLen fa = s.frpLen fb ∧ s.ScratchFits i)
  | .fpsqr fd fa => decide (s.FrpsReady fd fa fa ∧ s.ScratchFits i)
  | .frescale fd => decide (s.FrpReady fd)
  | .fsetlen fd xm => decide (s.FrpReady fd ∧ s.regNat xm ≤ s.frpSize fd)
  | .flowern fd xn => decide (s.FrpReady fd ∧ s.regNat xn ≤ s.frpN fd ∧ 1 ≤ s.regNat xn)
  | .fmulrho fd xi _ => decide (s.FrpReady fd ∧ s.regNat xi < s.frpLen fd)
  | .fbfly fd xi xj _ => decide (s.FrpReady fd ∧ s.Distinct fd (s.regNat xi) (s.regNat xj))
  | .ibfly fd xi xj _ => decide (s.FrpReady fd ∧ s.Distinct fd (s.regNat xi) (s.regNat xj))
  | .fft fd xm => decide (s.FrpReady fd ∧ s.regNat xm ≤ s.frpSize fd ∧ RootsExist s.width (s.frpN fd) (s.frpDepth fd)
      ∧ 1 ≤ s.frpScratch fd ∧ s.ScratchFits i)
  | .ifft fd => decide (s.FrpReady fd ∧ RootsExist s.width (s.frpN fd) (s.frpDepth fd) ∧ 1 ≤ s.frpScratch fd
      ∧ s.ScratchFits i)
  | .cconv fd fa fb xm => decide (s.ConvReady fd fa fb (s.regNat xm) 0 i)
  | .nconv fd fa fb xm => decide (s.ConvReady fd fa fb (s.regNat xm) 1 i)
  | .cmul pd pa pb => decide (s.ProductReady pd pa pb i (s.fullOf pa pb))
  | .kmul pd pa pb => decide (s.ProductReady pd pa pb i (s.fullOf pa pb))
  | .kmulT pd pa pb xt => decide (s.ProductReady pd pa pb i (truncate (s.fullOf pa pb) (s.regNat xt)))
  | .kmulTL pd pa pb xt => decide (s.ProductReady pd pa pb i (truncateLeft (s.fullOf pa pb) (s.regNat xt)))

/-! The classes of checks that come first (60_exceptions.md R235), for every command. -/

/-- Class (2): none of the command's `IllegalCommand` conditions holds (60_exceptions.md R232, column Illegal). -/
def Instr.legalIn (i : Instr) (s : State) : Bool :=
  match i with
  | .csrr _ c => csrListed c
  | .csrw c _ => csrListed c && !csrReadOnly c
  | .pbits _ _ pa | .plimbs _ _ pa => decide (s.CipShape pa)
  | .lpack fd pa xb .. | .bpack fd pa xb .. | .ypack fd pa xb .. => decide (s.FrpShape fd ∧ s.CipShape pa ∧ s.regNat xb ≠ 0)
  | .lunpack pd fa xb _ xc .. | .bunpack pd fa xb _ xc .. | .yunpack pd fa xb _ xc .. =>
    decide (s.CipShape pd ∧ s.FrpShape fa ∧ s.regNat xb ≠ 0 ∧ s.regNat xc ≠ 0)
  | .fadd fd fa fb | .fsub fd fa fb | .fpmul fd fa fb =>
    decide ((s.FrpShape fd ∧ s.FrpShape fa ∧ s.FrpShape fb) ∧ s.SameGeometry fd fa ∧ s.SameGeometry fd fb
      ∧ s.frpLen fa = s.frpLen fb)
  | .fpsqr fd fa => decide (s.FrpShape fd ∧ s.FrpShape fa ∧ s.SameGeometry fd fa)
  | .fnorm fd | .frescale fd | .ifft fd => decide (s.FrpShape fd)
  | .fsetlen fd _ | .fft fd _ => decide (s.FrpShape fd)
  | .flowern fd xn => decide (s.FrpShape fd ∧ s.regNat xn ≤ s.frpN fd)
  | .fmulrho fd xi _ => decide (s.FrpShape fd ∧ s.regNat xi < s.frpLen fd)
  | .fbfly fd xi xj _ | .ibfly fd xi xj _ => decide (s.FrpShape fd ∧ s.Distinct fd (s.regNat xi) (s.regNat xj))
  | .cconv fd fa fb _ | .nconv fd fa fb _ =>
    decide ((s.FrpShape fd ∧ s.FrpShape fa ∧ s.FrpShape fb) ∧ s.SameGeometry fd fa ∧ s.SameGeometry fd fb)
  | .cmul pd pa pb | .kmul pd pa pb => decide (s.CipShape pd ∧ s.CipShape pa ∧ s.CipShape pb)
  | .kmulT pd pa pb _ | .kmulTL pd pa pb _ => decide (s.CipShape pd ∧ s.CipShape pa ∧ s.CipShape pb)
  | .nop | .seti .. | .shli .. | .ladd .. | .lsub .. | .lmul .. | .ldivrem .. | .lrecip .. | .ldiv1p .. | .lcopy .. | .lclr ..
  | .lcmp .. => true

/-- Class (3): none of the command's `LengthOverflow` conditions holds (60_exceptions.md R232, column LengthOv). -/
def Instr.regionsIn (i : Instr) (s : State) : Bool :=
  match i with
  | .ladd sd sa sb | .lsub sd sa sb =>
    decide (s.SpanIn sa ∧ s.SpanIn sb ∧ s.SpanOut sd (max (s.spanLen sa) (s.spanLen sb)))
  | .lmul sd sa sb => decide (s.SpanIn sa ∧ s.SpanIn sb ∧ s.SpanOut sd (s.spanLen sa + s.spanLen sb))
  | .ldivrem sq sr sa sv => decide (s.SpanIn sa ∧ s.SpanIn sv ∧ s.SpanOut sq (s.spanLen sa) ∧ s.SpanOut sr (s.spanLen sv))
  | .ldiv1p sq sa .. => decide (s.SpanIn sa ∧ s.SpanOut sq (s.spanLen sa))
  | .lcopy sd sa => decide (s.SpanIn sa ∧ s.SpanOut sd (s.spanLen sa))
  | .lclr sd => decide (s.SpanIn sd)
  | .lcmp _ sa sb => decide (s.SpanIn sa ∧ s.SpanIn sb)
  | .pbits _ _ pa | .plimbs _ _ pa => decide (s.CipIn pa)
  | .lpack fd pa xb .. | .bpack fd pa xb .. | .ypack fd pa xb .. =>
    decide (s.FrpIn fd ∧ s.CipIn pa ∧ ceilDiv (s.cipLen pa) (s.regNat xb) ≤ s.frpSize fd)
  | .lunpack pd fa .. | .bunpack pd fa .. | .yunpack pd fa .. => decide (s.CipIn pd ∧ s.FrpIn fa)
  | .fadd fd fa fb | .fsub fd fa fb | .fpmul fd fa fb => decide (s.FrpIn fd ∧ s.FrpIn fa ∧ s.FrpIn fb)
  | .fpsqr fd fa => decide (s.FrpIn fd ∧ s.FrpIn fa)
  | .fnorm fd | .frescale fd | .ifft fd => decide (s.FrpIn fd)
  | .fsetlen fd xm | .fft fd xm => decide (s.FrpIn fd ∧ s.regNat xm ≤ s.frpSize fd)
  | .flowern fd _ => decide (s.FrpIn fd)
  | .fmulrho fd _ _ => decide (s.FrpIn fd)
  | .fbfly fd _ _ _ | .ibfly fd _ _ _ => decide (s.FrpIn fd)
  | .cconv fd fa fb xm | .nconv fd fa fb xm =>
    decide ((s.FrpIn fd ∧ s.FrpIn fa ∧ s.FrpIn fb) ∧ s.regNat xm ≤ s.frpSize fd)
  | .cmul pd pa pb | .kmul pd pa pb => decide (s.CipIn pd ∧ s.CipIn pa ∧ s.CipIn pb)
  | .kmulT pd pa pb _ | .kmulTL pd pa pb _ => decide (s.CipIn pd ∧ s.CipIn pa ∧ s.CipIn pb)
  | .nop | .seti .. | .shli .. | .csrr .. | .csrw .. | .lrecip .. => true

/-! The errors a command may raise. -/

/-- The table of 60_exceptions.md R232. A command whose every word of legal encoding passes is listed with none. -/
def Instr.mayRaise : Instr → List ErrorKind
  | .nop | .seti .. | .shli .. => []
  | .csrr .. | .csrw .. => [.illegalCommand]
  | .ladd .. | .lsub .. | .lcopy .. | .lclr .. | .lcmp .. => [.lengthOverflow]
  | .lmul .. => [.lengthOverflow, .allocFailed]
  | .ldivrem .. | .ldiv1p .. => [.lengthOverflow, .divisionByZero]
  | .lrecip .. => [.divisionByZero]
  | .pbits .. | .plimbs .. => [.illegalCommand, .lengthOverflow]
  | .lpack .. | .bpack .. | .ypack .. => [.illegalCommand, .lengthOverflow, .ringTooSmall, .packDoesNotFit]
  | .lunpack .. | .bunpack .. | .yunpack .. =>
    [.illegalCommand, .lengthOverflow, .ringTooSmall, .packDoesNotFit, .truncationLoses, .allocFailed]
  | .fnorm .. | .frescale .. | .fadd .. | .fsub .. | .fsetlen .. | .flowern .. | .fmulrho .. | .fbfly .. | .ibfly .. =>
    [.illegalCommand, .lengthOverflow, .ringTooSmall]
  | .fpmul .. | .fpsqr .. | .fft .. | .ifft .. | .cconv .. | .nconv .. =>
    [.illegalCommand, .lengthOverflow, .ringTooSmall, .allocFailed]
  | .cmul .. | .kmul .. | .kmulT .. | .kmulTL .. => [.illegalCommand, .lengthOverflow, .truncationLoses, .allocFailed]

/-! What a command may change. -/

/-- The general registers a command writes (10_state.md R22). -/
def Instr.writtenRegs : Instr → List Reg
  | .seti xd _ | .shli xd _ | .csrr xd _ => [xd]
  | .lrecip xd _ => [xd]
  | .ldiv1p _ _ _ _ xr => [xr]
  | .lcmp xd _ _ => [xd]
  | .pbits xd xs _ | .plimbs xd xs _ => [xd, xs]
  | .nop | .csrw .. | .ladd .. | .lsub .. | .lmul .. | .ldivrem .. | .lcopy .. | .lclr .. | .lpack .. | .lunpack ..
  | .bpack .. | .bunpack .. | .ypack .. | .yunpack .. | .fadd .. | .fsub .. | .fnorm .. | .fpmul .. | .fpsqr ..
  | .frescale .. | .fsetlen .. | .flowern .. | .fmulrho .. | .fbfly .. | .ibfly .. | .fft .. | .ifft .. | .cconv ..
  | .nconv .. | .cmul .. | .kmul .. | .kmulT .. | .kmulTL .. => []

/-- A control register a command writes by its own rule, completion apart: `CSRW` the one it names (45_system_commands.md R224),
`LADD` and `LSUB` the flag (10_state.md R28), and every other command the `LEN` of its destination slots and, for
`FLOWERN`, `N` (20_memory.md R71). -/
def Instr.writtenCsrs : Instr → List Csr
  | .csrw c _ => (Csr.ofNumber c).toList
  | .ladd sd .. | .lsub sd .. => [.flags, .spanLen sd]
  | .lmul sd .. => [.spanLen sd]
  | .ldivrem sq sr .. => [.spanLen sq, .spanLen sr]
  | .ldiv1p sq .. => [.spanLen sq]
  | .lcopy sd _ => [.spanLen sd]
  | .lpack fd .. | .bpack fd .. | .ypack fd .. => [.frpLen fd]
  | .lunpack pd .. | .bunpack pd .. | .yunpack pd .. => [.cipLen pd]
  | .fadd fd .. | .fsub fd .. | .fpmul fd .. => [.frpLen fd]
  | .fpsqr fd _ | .fsetlen fd _ | .fft fd _ => [.frpLen fd]
  | .flowern fd _ => [.frpLen fd, .frpN fd]
  | .cconv fd .. | .nconv fd .. => [.frpLen fd]
  | .cmul pd .. | .kmul pd .. => [.cipLen pd]
  | .kmulT pd .. | .kmulTL pd .. => [.cipLen pd]
  | .nop | .seti .. | .shli .. | .csrr .. | .lrecip .. | .lclr .. | .lcmp .. | .pbits .. | .plimbs .. | .fnorm ..
  | .frescale .. | .fmulrho .. | .fbfly .. | .ibfly .. | .ifft .. => []

/-- The limbs `[base, base + count)` of the active coefficients of an FRP slot. -/
def Machine.State.coeffRegion (s : State) (k : FrpIx) (len : Nat) : Nat × Nat := (s.frpBase k, len * (s.frpN k + 1))

/-- The limbs of the coefficients 0 to `len − 1` of a CIP slot's store. -/
def Machine.State.storeRegion (s : State) (k : CipIx) (len : Nat) : Nat × Nat := (s.cipBase k, len * (s.cipLimbs k + 1))

/-- The limbs of an FRP slot's whole block. -/
def Machine.State.blockRegion (s : State) (k : FrpIx) : Nat × Nat := (s.frpBase k, s.blockLimbs k)

/-- The coefficients of its destination that an unpacker may write: those of its result, or, for a `BUNPACK` whose
destination was not zero, those that had to be (93_implementation_defined.md U6). -/
def Machine.State.unpackedCount (s : State) (p : Packing) (pd : CipIx) (fa : FrpIx) (bundle v cnt : Nat) (sgn neg : Bool) : Nat :=
  let m := s.preZeroed pd fa bundle cnt
  if p = .bits ∧ s.memRead (s.cipBase pd) (m * (s.cipLimbs pd + 1)) ≠ 0 then m
  else (s.unpacked p fa bundle v cnt sgn neg).length

/-- The limbs a command that completes without error may write, as regions `(base, count)`: computed from the state before
with the functions its meaning uses. -/
def Instr.stores (i : Instr) (s : State) : List (Nat × Nat) :=
  match i with
  | .ladd sd sa sb | .lsub sd sa sb => [(s.spanBase sd, max (s.spanLen sa) (s.spanLen sb))]
  | .lmul sd sa sb => [(s.spanBase sd, s.spanLen sa + s.spanLen sb)]
  | .ldivrem sq sr sa sv => [(s.spanBase sq, s.spanLen sa), (s.spanBase sr, s.spanLen sv)]
  | .ldiv1p sq sa .. => [(s.spanBase sq, s.spanLen sa)]
  | .lcopy sd sa => [(s.spanBase sd, s.spanLen sa)]
  | .lclr sd => [(s.spanBase sd, s.spanLen sd)]
  | .lpack fd pa xb .. | .bpack fd pa xb .. | .ypack fd pa xb .. => [s.coeffRegion fd (ceilDiv (s.cipLen pa) (s.regNat xb))]
  | .lunpack pd fa xb xw xc sgn neg =>
    [s.storeRegion pd (s.unpackedCount .limbs pd fa (s.regNat xb) (s.regNat xw) (s.regNat xc) sgn neg)]
  | .bunpack pd fa xb xw xc sgn neg =>
    [s.storeRegion pd (s.unpackedCount .bits pd fa (s.regNat xb) (s.regNat xw) (s.regNat xc) sgn neg)]
  | .yunpack pd fa xb xw xc sgn neg =>
    [s.storeRegion pd (s.unpackedCount .bytes pd fa (s.regNat xb) (s.regNat xw) (s.regNat xc) sgn neg)]
  | .fadd fd fa _ | .fsub fd fa _ => [s.coeffRegion fd (s.frpLen fa)]
  | .fnorm fd | .frescale fd => [s.coeffRegion fd (s.frpLen fd)]
  | .fpmul fd fa fb => [s.coeffRegion fa (s.frpLen fa), s.coeffRegion fb (s.frpLen fb), s.coeffRegion fd (s.frpLen fa)]
  | .fpsqr fd fa => [s.coeffRegion fa (s.frpLen fa), s.coeffRegion fd (s.frpLen fa)]
  | .fsetlen fd xm => [(s.caddr fd (s.frpLen fd), (s.regNat xm - s.frpLen fd) * (s.frpN fd + 1))]
  | .fmulrho fd xi _ => [(s.caddr fd (s.regNat xi), s.frpN fd + 1)]
  | .fbfly fd xi xj _ | .ibfly fd xi xj _ =>
    [(s.caddr fd (s.regNat xi), s.frpN fd + 1), (s.caddr fd (s.regNat xj), s.frpN fd + 1)]
  | .fft fd _ => [s.blockRegion fd]
  | .ifft fd => [s.blockRegion fd]
  | .cconv fd fa fb _ | .nconv fd fa fb _ => [s.blockRegion fa, s.blockRegion fb, s.blockRegion fd]
  | .cmul pd pa pb | .kmul pd pa pb => [s.storeRegion pd (trim (s.fullOf pa pb)).length]
  | .kmulT pd pa pb xt => [s.storeRegion pd (trim (truncate (s.fullOf pa pb) (s.regNat xt))).length]
  | .kmulTL pd pa pb xt => [s.storeRegion pd (trim (truncateLeft (s.fullOf pa pb) (s.regNat xt))).length]
  | .nop | .seti .. | .shli .. | .csrr .. | .csrw .. | .lrecip .. | .lcmp .. | .pbits .. | .plimbs .. | .flowern .. => []

/-- Limb `a` lies in none of the regions. -/
def Machine.OutsideAll (a : Nat) (regions : List (Nat × Nat)) : Prop := ∀ r ∈ regions, a < r.1 ∨ r.1 + r.2 ≤ a

/-- The regions `[b, b + n)` and `[c, c + m)` have no limb in common. -/
abbrev Machine.Apart (b n c m : Nat) : Prop := b + n ≤ c ∨ c + m ≤ b

/-! Names for what statements speak of. -/

/-- The packer of a packing (41_packing.md R129 to R131). -/
def Machine.packInstr (p : Packing) (fd : FrpIx) (pa : CipIx) (xb xw : Reg) (sgn neg : Bool) : Instr :=
  match p with
  | .limbs => .lpack fd pa xb xw sgn neg
  | .bits => .bpack fd pa xb xw sgn neg
  | .bytes => .ypack fd pa xb xw sgn neg

/-- The unpacker of a packing (41_packing.md R136 to R138). -/
def Machine.unpackInstr (p : Packing) (pd : CipIx) (fa : FrpIx) (xb xw xc : Reg) (sgn neg : Bool) : Instr :=
  match p with
  | .limbs => .lunpack pd fa xb xw xc sgn neg
  | .bits => .bunpack pd fa xb xw xc sgn neg
  | .bytes => .yunpack pd fa xb xw xc sgn neg

/-- The four product commands (44_multiplication_engine.md R201, R203), by the list each makes of the full product `d`. -/
inductive Machine.ProductKind where
  | classical
  | full
  | low (xt : Reg)
  | high (xt : Reg)
deriving DecidableEq, Repr

/-- The command of a product kind. -/
def Machine.productInstr (q : ProductKind) (pd pa pb : CipIx) : Instr :=
  match q with
  | .classical => .cmul pd pa pb
  | .full => .kmul pd pa pb
  | .low xt => .kmulT pd pa pb xt
  | .high xt => .kmulTL pd pa pb xt

/-- Coefficient `k` of the product of `a` and `b`, `Σ_{i+j=k} a[i]·b[j]` (44_multiplication_engine.md R202). -/
def Machine.productCoeff (a b : List Int) (k : Nat) : Int := ∑ i ∈ Finset.range (k + 1), a.getD i 0 * b.getD (k - i) 0

/-- Coefficient `k` that a product command leaves (44_multiplication_engine.md R202, R205). -/
def Machine.State.wantedCoeff (s : State) (q : ProductKind) (a b : List Int) (k : Nat) : Int :=
  match q with
  | .classical | .full => productCoeff a b k
  | .low xt => if k < s.regNat xt then productCoeff a b k else 0
  | .high xt => if k < s.regNat xt then 0 else productCoeff a b k

/-- A slot holds a list of coefficients as 10_state.md R45 writes it: its length, and each coefficient's header and limbs. -/
def Machine.State.HoldsPoly (t : State) (pd : CipIx) (out : List Int) : Prop :=
  t.cipLen pd = out.length
    ∧ ∀ i, (h : i < out.length) → t.memRead (t.cipAddr pd i) (t.cipLimbs pd + 1) = coeffImage t.width out[i]

/-- No trailing zero coefficient (10_state.md R44). -/
def Machine.Normalised (l : List Int) : Prop := ∀ h : l ≠ [], l.getLast h ≠ 0

/-- The list a product command leaves, trailing zeros removed (44_multiplication_engine.md R202, R203). -/
def Machine.State.productOut (s : State) (q : ProductKind) (pa pb : CipIx) : List Int :=
  match q with
  | .classical | .full => trim (s.fullOf pa pb)
  | .low xt => trim (truncate (s.fullOf pa pb) (s.regNat xt))
  | .high xt => trim (truncateLeft (s.fullOf pa pb) (s.regNat xt))

/-- `DFT_d(a)[k] = (Σ_j a_j·ω^(j·brev_d(k))) mod M_n`, summed as 43_fft_convolution.md R180 writes it. -/
def Machine.transformAt (w n d : Nat) (a : List Nat) (k : Nat) : Nat :=
  (∑ j ∈ Finset.range a.length, a.getD j 0 * omega w n d ^ (j * brev d k)) % fermatMod w n

/-- Every coefficient lies in its field of `f` bits, signed or not (41_packing.md R124). -/
def Machine.InFields (sgn : Bool) (f : Nat) (e : List Int) : Prop :=
  ∀ v ∈ e, (sgn = true → (v.natAbs : Int) ≤ 2 ^ (f - 1) - 1) ∧ (sgn = false → 0 ≤ v ∧ v < 2 ^ f)

/-- `PACKVAL(i)`, summed as 41_packing.md R124 writes it. -/
def Machine.packedSum (e : List Int) (bundle f i : Nat) : Int :=
  ∑ j ∈ Finset.range bundle, e.getD (i * bundle + j) 0 * 2 ^ (j * f)

/-- Index `k` of an unpacker's result before its sign: the fields of the `m` coefficients that land on `k` (41_packing.md R127). -/
def Machine.landingSum (sgn : Bool) (ints : Nat → Int) (m bundle cnt f k : Nat) : Int :=
  ∑ i ∈ Finset.range m, if i * bundle ≤ k ∧ k < i * bundle + cnt then fieldValue sgn (ints i) f (k - i * bundle) else 0

end Sys2Proof
end

