-- ==== Sys2Proof/Certificates/Slice0/Obligations.lean ====
section
/-! DEFINITION. The statements for the provers. A statement about a command's result has as its conclusion that `exec` answers a
next state and what that state holds; `i.ready s` is the conjunction of the checks that the rules list for command `i`. -/

open Sys2Proof Sys2Proof.Machine

/-! Encoding. -/

/-- Words printed in the examples of 40 to 45 decode to the commands they stand for. -/
def Obligations.SpecExampleWordsDecode : Prop :=
  decode 0x01000000 = .ok .nop ∧ decode 0x02301234 = .ok (.seti 3 0x1234) ∧ decode 0x0330ABCD = .ok (.shli 3 0xABCD)
    ∧ decode 0x04230A00 = .ok (.csrr 2 0x30A) ∧ decode 0x05120100 = .ok (.csrw 0x201 1)
    ∧ decode 0x13012300 = .ok (.ldivrem 0 1 2 3) ∧ decode 0x15014506 = .ok (.ldiv1p 0 1 4 5 6)
    ∧ decode 0x20450000 = .ok (.pbits 4 5 0) ∧ decode 0x24001210 = .ok (.bpack 0 0 1 2 true false)
    ∧ decode 0x27101213 = .ok (.yunpack 1 0 1 2 3 true false) ∧ decode 0x33201000 = .ok (.fpmul 2 0 1)
    ∧ decode 0x39012300 = .ok (.fbfly 0 1 2 3) ∧ decode 0x40010000 = .ok (.fft 0 1)
    ∧ decode 0x42201400 = .ok (.cconv 2 0 1 4) ∧ decode 0x50201000 = .ok (.cmul 2 0 1)
    ∧ decode 0x51200501 = .ok (.kmulT 2 0 0 5) ∧ decode 0x51200502 = .ok (.kmulTL 2 0 0 5)

/-- Decode and encode agree: every command is read back from its word, with every operand at every value its field admits. -/
def Obligations.DecodeOfEncode : Prop := ∀ i : Instr, decode (encode i) = .ok i

/-- Every legal word is the word of the command it decodes to: no bit of a legal word is free. -/
def Obligations.EncodeOfDecode : Prop := ∀ (w : CmdWord) (i : Instr), decode w = .ok i → encode i = w

/-- 30_encoding.md R86: a word is legal exactly when it matches one row of the opcode table, then that row only and the command
is of that row; an illegal word raises `IllegalCommand`. -/
def Obligations.OpcodeTableDecides : Prop :=
  (∀ w i, decode w = .ok i → ∀ r ∈ opcodeTable, w &&& r.mask = r.pattern ↔ r = i.row)
    ∧ (∀ i : Instr, i.row ∈ opcodeTable)
    ∧ ∀ w e, decode w = .error e → (∀ r ∈ opcodeTable, w &&& r.mask ≠ r.pattern)
      ∧ ∀ s, runWord w s = .next (s.complete (some .illegalCommand))

/-! The step. -/

/-- A step runs the decoded command: when the host's next input is a command word that decodes to `i`, the step is `exec i` on
the state whose host goes on with the rest. -/
def Obligations.StepRunsDecodedCommand : Prop :=
  ∀ (s : State) (w : CmdWord) (rest : List HostInput) (i : Instr), s.inputs = .command w :: rest → decode w = .ok i →
    step s = exec i { s with inputs := rest }

/-- 30_encoding.md R89: an illegal word completes with `IllegalCommand` and does nothing else; the all-zero word, the all-ones
word and every word of an opcode outside R87 are illegal. That the word stands first in the host's list of inputs is log entry 6, that
the pulse of `done` (60_exceptions.md R236) stands in the state the completion leaves is log entry 10. -/
def Obligations.IllegalWordsCompleteWithError : Prop :=
  (∀ (s : State) (w : CmdWord) (rest : List HostInput) (e : Illegal), s.inputs = .command w :: rest → decode w = .error e →
    ∃ t, step s = .next t ∧ t.err = 9 ∧ t.esticky = s.esticky ||| 0x200 ∧ t.cseq = s.cseq + 1 ∧ t.done = true ∧ t.inputs = rest
      ∧ t.regs = s.regs ∧ t.mem = s.mem ∧ t.spans = s.spans ∧ t.cips = s.cips ∧ t.frps = s.frps ∧ t.flagC = s.flagC
      ∧ t.kcut = s.kcut ∧ t.arenaSp = 0 ∧ t.params = s.params)
    ∧ (∃ e, decode 0x00000000 = .error e) ∧ (∃ e, decode 0xFFFFFFFF = .error e)
    ∧ ∀ w : CmdWord, (let o := (w.extractLsb' 24 8).toNat
        o = 0x00 ∨ (0x06 ≤ o ∧ o ≤ 0x0F) ∨ (0x19 ≤ o ∧ o ≤ 0x1F) ∨ (0x28 ≤ o ∧ o ≤ 0x2F) ∨ (0x3B ≤ o ∧ o ≤ 0x3F)
          ∨ (0x44 ≤ o ∧ o ≤ 0x4F) ∨ 0x52 ≤ o) → ∃ e, decode w = .error e

/-- What else a step does. These are the model's own choices: the list of inputs (log entry 6), the fault outside limb memory
(log entry 7), the low bits kept of a value wider than a limb (log entry 8), the place of a byte in a limb (log entry 3), `rst`
between commands (log entry 9) with its free draw numbered by the running counter (log entry 5), and the end of the pulse of
`done` (log entry 10). -/
def Obligations.StepTakesHostInputs : Prop :=
  (∀ s : State, s.inputs = [] → step s = .next { s with done := false })
    ∧ (∀ (s : State) (a : Nat) (v : Word) (rest : List HostInput), s.inputs = .writeLimb a v :: rest →
      (a < s.memLimbs → ∃ t, step s = .next t ∧ t.limb a = v.toNat % s.radix ∧ (∀ b, b ≠ a → t.limb b = s.limb b)
          ∧ t = { s with inputs := rest, mem := t.mem, done := false })
        ∧ (s.memLimbs ≤ a → step s = .fault (.hostAddress a)))
    ∧ ∀ (s : State) (rest : List HostInput), s.inputs = .rst :: rest →
      step s = .next (State.resetWith s.params s.epoch rest)

/-! Reset and the invariant. -/

/-- The state that 10_state.md R51 gives after reset, for the reset state of the model and for every later `rst`. The model's own
choices in it: unspecified memory reads as the free bytes of the draw `e` (log entries 4, 5), `rst` is an input between commands
and the host goes on with its later ones (log entries 6, 9), the parameters stay (log entry 1), `done` is 0 (log entry 10). -/
def Obligations.ResetState : Prop :=
  (∀ (p : Params) (e : Nat) (inputs : List HostInput), let s := State.resetWith p e inputs
    (∀ r, s.reg r = 0)
      ∧ s.readCsr .lauid = 0x4C415531 ∧ s.readCsr .pw = BitVec.ofNat 64 p.limb.bits ∧ s.readCsr .pmem = p.memLimbs
      ∧ (s.readCsr .pscr).toNat = min p.scrCap (2 ^ 64 - 1)
      ∧ s.readCsr .err = 0 ∧ s.readCsr .esticky = 0 ∧ s.readCsr .cseq = 0 ∧ s.readCsr .flags = 0 ∧ s.readCsr .kcut = 8
      ∧ (∀ k, s.readCsr (.spanBase k) = 0 ∧ s.readCsr (.spanLen k) = 0)
      ∧ (∀ k, s.readCsr (.cipBase k) = 0 ∧ s.readCsr (.cipLimbs k) = 0 ∧ s.readCsr (.cipLen k) = 0
        ∧ s.readCsr (.cipAlloc k) = 0)
      ∧ (∀ k, s.readCsr (.frpBase k) = 0 ∧ s.readCsr (.frpDepth k) = 0 ∧ s.readCsr (.frpN k) = 0 ∧ s.readCsr (.frpLen k) = 0
        ∧ s.readCsr (.frpScratch k) = 0)
      ∧ s.arenaSp = 0 ∧ s.faultLine = false ∧ s.busy = false ∧ s.cmdReady = true ∧ s.done = false
      ∧ ∀ a, s.mem.byteAt a = Config.freeByte e a)
    ∧ (∃ p e, State.reset = State.resetWith p e [])
    ∧ ∀ (s : State) (rest : List HostInput), s.inputs = .rst :: rest →
      step s = .next (State.resetWith s.params s.epoch rest)

/-- The invariant holds at reset, for every instance. -/
def Obligations.InvariantAtReset : Prop :=
  State.reset.Inv ∧ ∀ (p : Params) (e : Nat) (inputs : List HostInput), (State.resetWith p e inputs).Inv

/-- The invariant is kept by every step, from every state that has it. -/
def Obligations.InvariantKeptByStep : Prop := ∀ s t : State, s.Inv → step s = .next t → t.Inv

/-! Completion, errors and frames, over every command. -/

/-- 60_exceptions.md R236, 10_state.md R27: every command completes, counts one more command, pulses `done`, is ready for the
next one, leaves the arena empty and the parameters and the host's later inputs alone, the `fault` line follows `ESTICKY`, and the
command either succeeds or is the state before with a kind R232 allows it. That the pulse stands in the state a completion leaves
is log entry 10. -/
def Obligations.EveryCommandCompletes : Prop :=
  ∀ (i : Instr) (s : State), ∃ t, exec i s = .next t ∧ t.cseq.toNat = (s.cseq.toNat + 1) % 2 ^ 64 ∧ t.arenaSp = 0
    ∧ t.params = s.params ∧ t.inputs = s.inputs ∧ t.mem.epoch = s.mem.epoch
    ∧ t.done = true ∧ t.cmdReady = true ∧ (t.faultLine = true ↔ t.esticky ≠ 0)
    ∧ (t.err = 0 ∨ ∃ k ∈ i.mayRaise, t = s.complete (some k))

/-- A command whose every check holds succeeds. -/
def Obligations.ReadyCommandSucceeds : Prop :=
  ∀ (i : Instr) (s : State), i.ready s = true → ∃ t, exec i s = .next t ∧ t.err = 0

/-- A command with a failed check raises a kind that 60_exceptions.md R232 allows it, and changes nothing else. -/
def Obligations.UnreadyCommandRaises : Prop :=
  ∀ (i : Instr) (s : State), i.ready s = false → ∃ k ∈ i.mayRaise, exec i s = .next (s.complete (some k))

/-- 60_exceptions.md R237: after an error only `ERR`, `ESTICKY` and `CSEQ` have changed. -/
def Obligations.ErrorLeavesStateUnchanged : Prop :=
  ∀ (i : Instr) (s t : State), exec i s = .next t → t.err ≠ 0 →
    t.mem = s.mem ∧ t.regs = s.regs ∧ t.spans = s.spans ∧ t.cips = s.cips ∧ t.frps = s.frps ∧ t.flagC = s.flagC
      ∧ t.kcut = s.kcut ∧ t.arenaSp = 0 ∧ t.params = s.params ∧ t.inputs = s.inputs
      ∧ ∃ k : ErrorKind, t.err = BitVec.ofNat 64 k.code ∧ t.esticky = s.esticky ||| BitVec.twoPow 64 k.code
        ∧ t.cseq = s.cseq + 1

/-- 10_state.md R33: the sticky record of error kinds, its write one to clear, its zero bits, its reset and the fault line. -/
def Obligations.StickyErrorRecord : Prop :=
  (∀ (i : Instr) (s t : State) (k : ErrorKind), exec i s = .next t → t.err = BitVec.ofNat 64 k.code →
      t.esticky.getLsbD k.code = true)
    ∧ (∀ (i : Instr) (s t : State) (j : Nat), exec i s = .next t → (∀ xs, i ≠ .csrw 0x011 xs) → s.esticky.getLsbD j = true →
      t.esticky.getLsbD j = true)
    ∧ (∀ (i : Instr) (s t : State), exec i s = .next t → s.esticky &&& ~~~0x3FE#64 = 0 → t.esticky &&& ~~~0x3FE#64 = 0)
    ∧ (∀ (s : State) (xs : Reg), ∃ t, exec (.csrw 0x011 xs) s = .next t ∧ t.err = 0
      ∧ ∀ j, t.esticky.getLsbD j = (s.esticky.getLsbD j && !(s.reg xs).getLsbD j))
    ∧ (∀ s : State, s.faultLine = true ↔ s.esticky ≠ 0)
    ∧ State.reset.esticky = 0

/-- 10_state.md R22: a command writes no general register but those its rule names; one that raises an error writes none. -/
def Obligations.RegisterFrame : Prop :=
  ∀ (i : Instr) (s t : State), exec i s = .next t →
    ∀ r : Reg, r ∉ i.writtenRegs ∨ t.err ≠ 0 → t.reg r = s.reg r

/-- 20_memory.md R71, 10_state.md R28: a command writes no control register but `ERR`, `ESTICKY` and `CSEQ` at its completion
and those its rule names; in particular no descriptor field, not `FLAGS`, not `KCUT`. -/
def Obligations.ControlRegisterFrame : Prop :=
  ∀ (i : Instr) (s t : State), exec i s = .next t →
    ∀ c : Csr, c ≠ .err → c ≠ .esticky → c ≠ .cseq → c ∉ i.writtenCsrs ∨ t.err ≠ 0 → t.readCsr c = s.readCsr c

/-- Every byte of memory outside the limbs that the command stores to is unchanged; a command that stores nothing or raises an
error changes no byte. The regions are computed from the state before, with the functions the meanings use; that of `IFFT` is the
whole block, for an empty polynomial too (log entry 18). -/
def Obligations.MemoryFrame : Prop :=
  ∀ (i : Instr) (s t : State), exec i s = .next t →
    ∀ a : Nat, OutsideAll (a / s.limbBytes) (i.stores s) ∨ t.err ≠ 0 → t.mem.byteAt a = s.mem.byteAt a

/-! Where commands trap. -/

/-- 60_exceptions.md R234: a command that no state could make meaningful raises `IllegalCommand` in every state. -/
def Obligations.IllFormedCommandIsIllegal : Prop :=
  ∀ (i : Instr) (s : State), i.wellFormed = false → exec i s = .next (s.complete (some .illegalCommand))

/-- 60_exceptions.md R234, R235, 70_reset_and_hazards.md R266: every CIP and FRP slot a command names, a destination too, is
checked whole before all else, and a command with any `IllegalCommand` condition raises that kind. -/
def Obligations.MalformedSlotIsIllegal : Prop :=
  (∀ (i : Instr) (s : State) (k : CipIx), k ∈ i.cipSlots → ¬s.CipShape k →
      exec i s = .next (s.complete (some .illegalCommand)))
    ∧ (∀ (i : Instr) (s : State) (k : FrpIx), k ∈ i.frpSlots → ¬s.FrpShape k →
      exec i s = .next (s.complete (some .illegalCommand)))
    ∧ ∀ (i : Instr) (s : State), i.legalIn s = false → exec i s = .next (s.complete (some .illegalCommand))

/-- 20_memory.md R63: a span region outside limb memory raises `LengthOverflow`, of an input and of an output; so does a CIP store
or FRP block outside it, and any other `LengthOverflow` condition of the command, when no `IllegalCommand` condition holds. -/
def Obligations.RegionOutsideMemoryRaises : Prop :=
  (∀ (i : Instr) (s : State) (k : SpanIx), k ∈ i.inputSpans → ¬s.SpanIn k →
      exec i s = .next (s.complete (some .lengthOverflow)))
    ∧ (∀ (i : Instr) (s : State), i.inputSpans ≠ [] → ∀ r ∈ i.stores s, s.memLimbs < r.1 + r.2 →
      exec i s = .next (s.complete (some .lengthOverflow)))
    ∧ (∀ (i : Instr) (s : State) (k : CipIx), k ∈ i.cipSlots → ¬s.CipIn k → i.legalIn s = true →
      exec i s = .next (s.complete (some .lengthOverflow)))
    ∧ (∀ (i : Instr) (s : State) (k : FrpIx), k ∈ i.frpSlots → ¬s.FrpIn k → i.legalIn s = true →
      exec i s = .next (s.complete (some .lengthOverflow)))
    ∧ ∀ (i : Instr) (s : State), i.legalIn s = true → i.regionsIn s = false →
      exec i s = .next (s.complete (some .lengthOverflow))

/-- 10_state.md R39: `N = 0` in a named FRP slot raises `RingTooSmall`, for every command that names one, when no `IllegalCommand`
and no `LengthOverflow` condition holds; else the kind of the class that fails. For the commands on one slot with no operand
condition those conditions are the slot's own. -/
def Obligations.ZeroWidthRingTooSmall : Prop :=
  (∀ (i : Instr) (s : State) (k : FrpIx), k ∈ i.frpSlots → s.frpN k = 0 →
      (i.legalIn s = false → exec i s = .next (s.complete (some .illegalCommand)))
        ∧ (i.legalIn s = true → i.regionsIn s = false → exec i s = .next (s.complete (some .lengthOverflow)))
        ∧ (i.legalIn s = true → i.regionsIn s = true → exec i s = .next (s.complete (some .ringTooSmall))))
    ∧ ∀ (s : State) (k : FrpIx), s.FrpShape k → s.FrpIn k → s.frpN k = 0 → ∀ i ∈ [Instr.fnorm k, .frescale k, .ifft k],
      exec i s = .next (s.complete (some .ringTooSmall))

/-- 40_limb_primitives.md R110: division by zero is `DivisionByZero`, once the regions are in limb memory. -/
def Obligations.ZeroDivisorRaises : Prop :=
  (∀ (s : State) (sq sr sa sv : SpanIx), s.SpanIn sa → s.SpanIn sv → s.SpanOut sq (s.spanLen sa) →
      s.SpanOut sr (s.spanLen sv) → s.spanNum sv = 0 → exec (.ldivrem sq sr sa sv) s = .next (s.complete (some .divisionByZero)))
    ∧ (∀ (s : State) (xd xs : Reg), s.regNat xs % s.radix = 0 →
      exec (.lrecip xd xs) s = .next (s.complete (some .divisionByZero)))
    ∧ ∀ (s : State) (sq sa : SpanIx) (xv xi xr : Reg), s.SpanIn sa → s.SpanOut sq (s.spanLen sa) →
      s.regNat xv % s.radix = 0 → exec (.ldiv1p sq sa xv xi xr) s = .next (s.complete (some .divisionByZero))

/-- 43_fft_convolution.md R181 to R186: a ring without the roots raises `RingTooSmall`; with them, a slot without a scratch
buffer or a demand beyond `SCRCAP` raises `AllocFailed`. The default table of 70_reset_and_hazards.md R268 gives `FFT` and `IFFT`
no demand; they have one only under a demand function of the implementation's own (log entry 2). -/
def Obligations.TransformResourcesChecked : Prop :=
  (∀ (s : State) (fd : FrpIx) (xm : Reg), s.FrpReady fd → s.regNat xm ≤ s.frpSize fd →
      (¬RootsExist s.width (s.frpN fd) (s.frpDepth fd) → exec (.fft fd xm) s = .next (s.complete (some .ringTooSmall)))
        ∧ (RootsExist s.width (s.frpN fd) (s.frpDepth fd) → s.frpScratch fd = 0 ∨ ¬s.ScratchFits (.fft fd xm) →
          exec (.fft fd xm) s = .next (s.complete (some .allocFailed))))
    ∧ (∀ (s : State) (fd : FrpIx), s.FrpReady fd →
      (¬RootsExist s.width (s.frpN fd) (s.frpDepth fd) → exec (.ifft fd) s = .next (s.complete (some .ringTooSmall)))
        ∧ (RootsExist s.width (s.frpN fd) (s.frpDepth fd) → s.frpScratch fd = 0 ∨ ¬s.ScratchFits (.ifft fd) →
          exec (.ifft fd) s = .next (s.complete (some .allocFailed))))
    ∧ (∀ (s : State) (fd fa fb : FrpIx) (xm : Reg), s.FrpsReady fd fa fb → s.regNat xm ≤ s.frpSize fd →
      (¬RootsExist s.width (s.frpN fd) (s.frpDepth fd) →
          exec (.cconv fd fa fb xm) s = .next (s.complete (some .ringTooSmall)))
        ∧ (RootsExist s.width (s.frpN fd) (s.frpDepth fd) →
          s.frpScratch fd = 0 ∨ s.frpScratch fa = 0 ∨ s.frpScratch fb = 0 ∨ ¬s.ScratchFits (.cconv fd fa fb xm) →
          exec (.cconv fd fa fb xm) s = .next (s.complete (some .allocFailed))))
    ∧ ∀ (s : State) (fd fa fb : FrpIx) (xm : Reg), s.FrpsReady fd fa fb → s.regNat xm ≤ s.frpSize fd →
      (¬RootsExist s.width (s.frpN fd) (s.frpDepth fd + 1) →
          exec (.nconv fd fa fb xm) s = .next (s.complete (some .ringTooSmall)))
        ∧ (RootsExist s.width (s.frpN fd) (s.frpDepth fd + 1) →
          s.frpScratch fd = 0 ∨ s.frpScratch fa = 0 ∨ s.frpScratch fb = 0 ∨ ¬s.ScratchFits (.nconv fd fa fb xm) →
          exec (.nconv fd fa fb xm) s = .next (s.complete (some .allocFailed)))

/-- 60_exceptions.md R233, R235: a result with a coefficient too wide for its slot raises `TruncationLoses`, too long or not;
one that is only too long raises `AllocFailed`, as does an unpacker whose scratch demand exceeds `SCRCAP` under a demand function
of the implementation's own (log entry 2). For the four products and the three unpackers. -/
def Obligations.TooWideBeforeTooLong : Prop :=
  (∀ (s : State) (q : ProductKind) (pd pa pb : CipIx), s.ProductLegal pd pa pb →
      (¬s.CoeffsFit pd (s.productOut q pa pb) →
          exec (productInstr q pd pa pb) s = .next (s.complete (some .truncationLoses)))
        ∧ (s.CoeffsFit pd (s.productOut q pa pb) → ¬s.LengthFits pd (s.productOut q pa pb) →
          exec (productInstr q pd pa pb) s = .next (s.complete (some .allocFailed))))
    ∧ ∀ (s : State) (p : Packing) (pd : CipIx) (fa : FrpIx) (xb xw xc : Reg) (sgn neg : Bool),
      s.UnpackLegal p pd fa (s.regNat xb) (s.regNat xw) (s.regNat xc) →
      let out := s.unpacked p fa (s.regNat xb) (s.regNat xw) (s.regNat xc) sgn neg
      (¬s.CoeffsFit pd out →
          exec (unpackInstr p pd fa xb xw xc sgn neg) s = .next (s.complete (some .truncationLoses)))
        ∧ (s.CoeffsFit pd out → ¬s.LengthFits pd out ∨ ¬s.ScratchFits (unpackInstr p pd fa xb xw xc sgn neg) →
          exec (unpackInstr p pd fa xb xw xc sgn neg) s = .next (s.complete (some .allocFailed)))

/-- 41_packing.md R123, R125, R127: a width operand outside its range, or fields that do not fit the `n` limbs of a coefficient,
raise `PackDoesNotFit` once the earlier classes pass. -/
def Obligations.PackingFitChecked : Prop :=
  (∀ (s : State) (p : Packing) (fd : FrpIx) (pa : CipIx) (xb xw : Reg) (sgn neg : Bool), s.FrpReady fd → s.CipShape pa →
      s.CipIn pa → s.regNat xb ≠ 0 → s.cipLen pa ≤ s.frpSize fd * s.regNat xb →
      ¬(widthLegal p s.width (s.regNat xw) = true
        ∧ s.regNat xb * fieldWidth p s.width (s.regNat xw) ≤ s.frpN fd * s.width) →
      exec (packInstr p fd pa xb xw sgn neg) s = .next (s.complete (some .packDoesNotFit)))
    ∧ ∀ (s : State) (p : Packing) (pd : CipIx) (fa : FrpIx) (xb xw xc : Reg) (sgn neg : Bool), s.FrpReady fa →
      s.CipShape pd → s.CipIn pd → s.regNat xb ≠ 0 → s.regNat xc ≠ 0 →
      ¬(widthLegal p s.width (s.regNat xw) = true
        ∧ s.regNat xc * fieldWidth p s.width (s.regNat xw) ≤ s.frpN fa * s.width) →
      exec (unpackInstr p pd fa xb xw xc sgn neg) s = .next (s.complete (some .packDoesNotFit))

/-- 42_fermat_ring.md R154 and R156 to R165, 41_packing.md R125, R127, 43_fft_convolution.md R182, R185, R186: the commands' own
conditions on their operands. Those marked `IllegalCommand` need no other condition, since every check before them raises the
same kind; those marked `LengthOverflow` (more outputs than `2^DEPTH`, counting `ceil(LEN / bundle)` for a packer) need those of
`IllegalCommand`. -/
def Obligations.OperandConditionsChecked : Prop :=
  (∀ (s : State) (fd fa fb : FrpIx), s.frpLen fa ≠ s.frpLen fb →
      ∀ i ∈ [Instr.fadd fd fa fb, .fsub fd fa fb, .fpmul fd fa fb], exec i s = .next (s.complete (some .illegalCommand)))
    ∧ (∀ (s : State) (fd fa fb : FrpIx) (xm : Reg), ¬(s.SameGeometry fd fa ∧ s.SameGeometry fd fb) →
      ∀ i ∈ [Instr.fadd fd fa fb, .fsub fd fa fb, .fpmul fd fa fb, .cconv fd fa fb xm, .nconv fd fa fb xm],
        exec i s = .next (s.complete (some .illegalCommand)))
    ∧ (∀ (s : State) (fd fa : FrpIx), ¬s.SameGeometry fd fa →
      exec (.fpsqr fd fa) s = .next (s.complete (some .illegalCommand)))
    ∧ (∀ (s : State) (fd : FrpIx) (xi xe : Reg), s.frpLen fd ≤ s.regNat xi →
      exec (.fmulrho fd xi xe) s = .next (s.complete (some .illegalCommand)))
    ∧ (∀ (s : State) (fd : FrpIx) (xi xj xe : Reg),
      s.frpLen fd ≤ s.regNat xi ∨ s.frpLen fd ≤ s.regNat xj ∨ s.regNat xi = s.regNat xj →
      ∀ i ∈ [Instr.fbfly fd xi xj xe, .ibfly fd xi xj xe], exec i s = .next (s.complete (some .illegalCommand)))
    ∧ (∀ (s : State) (fd : FrpIx) (xn : Reg),
      (s.frpN fd < s.regNat xn → exec (.flowern fd xn) s = .next (s.complete (some .illegalCommand)))
        ∧ (s.FrpReady fd → s.regNat xn = 0 → exec (.flowern fd xn) s = .next (s.complete (some .ringTooSmall))))
    ∧ (∀ (s : State) (fd : FrpIx) (xm : Reg), s.FrpShape fd → s.frpSize fd < s.regNat xm →
      ∀ i ∈ [Instr.fsetlen fd xm, .fft fd xm], exec i s = .next (s.complete (some .lengthOverflow)))
    ∧ (∀ (s : State) (fd fa fb : FrpIx) (xm : Reg), s.FrpShape fd → s.FrpShape fa → s.FrpShape fb → s.SameGeometry fd fa →
      s.SameGeometry fd fb → s.frpSize fd < s.regNat xm →
      ∀ i ∈ [Instr.cconv fd fa fb xm, .nconv fd fa fb xm], exec i s = .next (s.complete (some .lengthOverflow)))
    ∧ (∀ (s : State) (p : Packing) (fd : FrpIx) (pa : CipIx) (xb xw : Reg) (sgn neg : Bool), s.FrpShape fd → s.CipShape pa →
      s.regNat xb ≠ 0 → s.frpSize fd * s.regNat xb < s.cipLen pa →
      exec (packInstr p fd pa xb xw sgn neg) s = .next (s.complete (some .lengthOverflow)))
    ∧ (∀ (s : State) (p : Packing) (fd : FrpIx) (pa : CipIx) (xb xw : Reg) (sgn neg : Bool), s.regNat xb = 0 →
      exec (packInstr p fd pa xb xw sgn neg) s = .next (s.complete (some .illegalCommand)))
    ∧ ∀ (s : State) (p : Packing) (pd : CipIx) (fa : FrpIx) (xb xw xc : Reg) (sgn neg : Bool),
      s.regNat xb = 0 ∨ s.regNat xc = 0 →
      exec (unpackInstr p pd fa xb xw xc sgn neg) s = .next (s.complete (some .illegalCommand))

/-- 70_reset_and_hazards.md R268: a command that passes every other check and whose scratch demand exceeds `SCRCAP` raises
`AllocFailed`, whatever function gives the demand (00_scope.md R6, log entry 2); and the demands of the default table. The
transforms and convolutions are in `TransformResourcesChecked`, the unpackers in `TooWideBeforeTooLong`. -/
def Obligations.ScratchDemandChecked : Prop :=
  (∀ (s : State) (sd sa sb : SpanIx), s.SpanIn sa → s.SpanIn sb → s.SpanOut sd (s.spanLen sa + s.spanLen sb) →
      s.params.scrCap < s.scrNeed (.lmul sd sa sb) → exec (.lmul sd sa sb) s = .next (s.complete (some .allocFailed)))
    ∧ (∀ (s : State) (fd fa fb : FrpIx), s.FrpsReady fd fa fb → s.frpLen fa = s.frpLen fb →
      s.params.scrCap < s.scrNeed (.fpmul fd fa fb) → exec (.fpmul fd fa fb) s = .next (s.complete (some .allocFailed)))
    ∧ (∀ (s : State) (fd fa : FrpIx), s.FrpsReady fd fa fa →
      s.params.scrCap < s.scrNeed (.fpsqr fd fa) → exec (.fpsqr fd fa) s = .next (s.complete (some .allocFailed)))
    ∧ (∀ (s : State) (q : ProductKind) (pd pa pb : CipIx), s.ProductLegal pd pa pb → s.PolyFits pd (s.productOut q pa pb) →
      s.params.scrCap < s.scrNeed (productInstr q pd pa pb) →
      exec (productInstr q pd pa pb) s = .next (s.complete (some .allocFailed)))
    ∧ ∀ s : State, s.params.scrTable = .default →
      (∀ sd sa sb, s.scrNeed (.lmul sd sa sb) = s.spanLen sa + s.spanLen sb)
        ∧ (∀ fd fa fb xm, ∀ i ∈ [Instr.fpmul fd fa fb, .fpsqr fd fa, .cconv fd fa fb xm, .nconv fd fa fb xm],
          s.scrNeed i = 2 * (s.frpN fd + 1))
        ∧ (∀ pd pa pb, s.scrNeed (.cmul pd pa pb) = s.cipLimbs pa + s.cipLimbs pb + 2)
        ∧ (∀ pd pa pb xt, ∀ i ∈ [Instr.kmul pd pa pb, .kmulT pd pa pb xt, .kmulTL pd pa pb xt],
          s.scrNeed i = 4 * (s.cipLen pa + s.cipLen pb) * (s.cipLimbs pa + s.cipLimbs pb + 2))
        ∧ ∀ i : Instr, i.row.mnemonic ∉ ["LMUL", "FPMUL", "FPSQR", "CCONV", "NCONV", "CMUL", "KMUL", "KMUL.T", "KMUL.TL"] →
          s.scrNeed i = 0

/-! System commands. -/

/-- 45_system_commands.md R220 to R222: `NOP` does nothing beyond completion (of whose `done` and draw counter, log entries 10
and 5, nothing is said here), `SETI` writes its zero-extended immediate, `SHLI` shifts the register left by 16 and inserts it. -/
def Obligations.ImmediateCommands : Prop :=
  (∀ s : State, ∃ t, exec .nop s = .next t
      ∧ t = { s with err := 0, cseq := s.cseq + 1, arenaSp := 0, done := t.done, epoch := t.epoch })
    ∧ (∀ (s : State) (xd : Reg) (imm : Imm16), ∃ t, exec (.seti xd imm) s = .next t ∧ t.err = 0
      ∧ (t.reg xd).toNat = imm.toNat ∧ (∀ r, r ≠ xd → t.reg r = s.reg r) ∧ t.flagC = s.flagC)
    ∧ (∀ (s : State) (xd : Reg) (imm : Imm16), ∃ t, exec (.shli xd imm) s = .next t ∧ t.err = 0
      ∧ (t.reg xd).toNat = (s.reg xd).toNat * 2 ^ 16 % 2 ^ 64 + imm.toNat ∧ (∀ r, r ≠ xd → t.reg r = s.reg r)
      ∧ t.flagC = s.flagC)
    ∧ (∀ w, decode w = .ok .nop ↔ w = 0x01000000) ∧ (∃ e, decode 0x00000000 = .error e)
    ∧ (∀ w xd imm, decode w = .ok (.seti xd imm) ↔ w = 0x02#8 ++ regBits xd ++ 0#4 ++ imm)
    ∧ (∀ w xd imm, decode w = .ok (.shli xd imm) ↔ w = 0x03#8 ++ regBits xd ++ 0#4 ++ imm)
    ∧ decode 0x02301234 = .ok (.seti 3 0x1234) ∧ decode 0x0330ABCD = .ok (.shli 3 0xABCD)
    ∧ ∀ s t, exec (.seti 3 0x1234) s = .next t → t.reg 3 = 0x1234
      ∧ ∃ u, exec (.shli 3 0xABCD) t = .next u ∧ u.reg 3 = 0x1234ABCD

/-- 45_system_commands.md R223 over the map of 10_state.md R36: every listed number reads its register as it was before the
command. -/
def Obligations.ControlRegisterReads : Prop :=
  ∀ (s : State) (xd : Reg),
    let reads (c : CsrNum) (v : Word) : Prop := ∃ t, exec (.csrr xd c) s = .next t ∧ t.err = 0 ∧ t.reg xd = v
    reads 0x000 0x4C415531 ∧ reads 0x001 (BitVec.ofNat 64 s.width) ∧ reads 0x002 s.params.memLimbs
      ∧ reads 0x003 (BitVec.ofNat 64 (min s.params.scrCap (2 ^ 64 - 1)))
      ∧ reads 0x010 s.err ∧ reads 0x011 s.esticky ∧ reads 0x012 s.cseq ∧ reads 0x013 (if s.flagC then 1 else 0)
      ∧ reads 0x014 s.kcut
      ∧ (∀ k : SpanIx, reads (BitVec.ofNat 12 (0x100 + 2 * k)) s.spans[k].base
        ∧ reads (BitVec.ofNat 12 (0x101 + 2 * k)) s.spans[k].len)
      ∧ (∀ k : CipIx, reads (BitVec.ofNat 12 (0x200 + 4 * k)) s.cips[k].base
        ∧ reads (BitVec.ofNat 12 (0x201 + 4 * k)) s.cips[k].limbs ∧ reads (BitVec.ofNat 12 (0x202 + 4 * k)) s.cips[k].len
        ∧ reads (BitVec.ofNat 12 (0x203 + 4 * k)) s.cips[k].alloc)
      ∧ ∀ k : FrpIx, reads (BitVec.ofNat 12 (0x300 + 8 * k)) s.frps[k].base
        ∧ reads (BitVec.ofNat 12 (0x301 + 8 * k)) s.frps[k].depth ∧ reads (BitVec.ofNat 12 (0x302 + 8 * k)) s.frps[k].n
        ∧ reads (BitVec.ofNat 12 (0x303 + 8 * k)) s.frps[k].len ∧ reads (BitVec.ofNat 12 (0x304 + 8 * k)) s.frps[k].scratch

/-- 45_system_commands.md R224: what a write to each writable register leaves in it. -/
def Obligations.ControlRegisterWrites : Prop :=
  ∀ (s : State) (xs : Reg),
    let writes (c : CsrNum) (p : State → Prop) : Prop := ∃ t, exec (.csrw c xs) s = .next t ∧ t.err = 0 ∧ p t
    let v := s.reg xs
    writes 0x011 (fun t => t.esticky = s.esticky &&& ~~~v) ∧ writes 0x013 (fun t => t.flagC = v.getLsbD 0)
      ∧ writes 0x014 (fun t => t.kcut = v)
      ∧ (∀ k : SpanIx, writes (BitVec.ofNat 12 (0x100 + 2 * k)) (fun t => t.spans[k].base = v)
        ∧ writes (BitVec.ofNat 12 (0x101 + 2 * k)) (fun t => t.spans[k].len = v))
      ∧ (∀ k : CipIx, writes (BitVec.ofNat 12 (0x200 + 4 * k)) (fun t => t.cips[k].base = v)
        ∧ writes (BitVec.ofNat 12 (0x201 + 4 * k)) (fun t => t.cips[k].limbs = v)
        ∧ writes (BitVec.ofNat 12 (0x202 + 4 * k)) (fun t => t.cips[k].len = v)
        ∧ writes (BitVec.ofNat 12 (0x203 + 4 * k)) (fun t => t.cips[k].alloc = v))
      ∧ ∀ k : FrpIx, writes (BitVec.ofNat 12 (0x300 + 8 * k)) (fun t => t.frps[k].base = v)
        ∧ writes (BitVec.ofNat 12 (0x301 + 8 * k)) (fun t => t.frps[k].depth = v)
        ∧ writes (BitVec.ofNat 12 (0x302 + 8 * k)) (fun t => t.frps[k].n = v)
        ∧ writes (BitVec.ofNat 12 (0x303 + 8 * k)) (fun t => t.frps[k].len = v)
        ∧ writes (BitVec.ofNat 12 (0x304 + 8 * k)) (fun t => t.frps[k].scratch = v)

/-! Limb primitives. -/

/-- 40_limb_primitives.md R101, R102: the exact sum is the span written plus the carry, the exact difference the span written
minus the borrow; a destination may be or overlap a source. -/
def Obligations.AddAndSubtract : Prop :=
  (∀ (s : State) (sd sa sb : SpanIx), let m := max (s.spanLen sa) (s.spanLen sb)
    ((Instr.ladd sd sa sb).ready s = true → ∃ t, exec (.ladd sd sa sb) s = .next t ∧ t.err = 0 ∧ t.spanLen sd = m
        ∧ t.spanNum sd = (s.spanNum sa + s.spanNum sb) % s.radix ^ m
        ∧ t.spanNum sd + (if t.flagC then s.radix ^ m else 0) = s.spanNum sa + s.spanNum sb)
      ∧ ((Instr.ladd sd sa sb).ready s = false → exec (.ladd sd sa sb) s = .next (s.complete (some .lengthOverflow)))
      ∧ ((Instr.lsub sd sa sb).ready s = true → ∃ t, exec (.lsub sd sa sb) s = .next t ∧ t.err = 0 ∧ t.spanLen sd = m
        ∧ (t.flagC = true ↔ s.spanNum sa < s.spanNum sb) ∧ t.spanNum sd < s.radix ^ m
        ∧ s.spanNum sa + (if t.flagC then s.radix ^ m else 0) = t.spanNum sd + s.spanNum sb)
      ∧ ((Instr.lsub sd sa sb).ready s = false → exec (.lsub sd sa sb) s = .next (s.complete (some .lengthOverflow))))
    ∧ (∀ w sd sa sb, decode w = .ok (.ladd sd sa sb) ↔ w = 0x10#8 ++ slotBits sd ++ slotBits sa ++ slotBits sb ++ 0#4 ++ 0#8)
    ∧ (∀ w sd sa sb, decode w = .ok (.lsub sd sa sb) ↔ w = 0x11#8 ++ slotBits sd ++ slotBits sa ++ slotBits sb ++ 0#4 ++ 0#8)
    ∧ decode 0x10012000 = .ok (.ladd 0 1 2) ∧ decode 0x11012000 = .ok (.lsub 0 1 2)

/-- 40_limb_primitives.md R103: the whole product, `la + lb` limbs. -/
def Obligations.MultiplyWholeProduct : Prop :=
  ∀ (s : State) (sd sa sb : SpanIx), (Instr.lmul sd sa sb).ready s = true →
    ∃ t, exec (.lmul sd sa sb) s = .next t ∧ t.err = 0 ∧ t.spanLen sd = s.spanLen sa + s.spanLen sb
      ∧ t.spanNum sd = s.spanNum sa * s.spanNum sb

/-- 40_limb_primitives.md R104, R110: the remainder stands whole, the quotient's limbs wherever the remainder's do not lie over
them. -/
def Obligations.DivideWithRemainder : Prop :=
  ∀ (s : State) (sq sr sa sv : SpanIx), (Instr.ldivrem sq sr sa sv).ready s = true →
    ∃ t q, exec (.ldivrem sq sr sa sv) s = .next t ∧ t.err = 0
      ∧ t.spanLen sr = s.spanLen sv ∧ t.spanNum sr < s.spanNum sv
      ∧ s.spanNum sa = q * s.spanNum sv + t.spanNum sr
      ∧ (sq ≠ sr → t.spanLen sq = s.spanLen sa)
      ∧ (sq ≠ sr → Apart (s.spanBase sq) (s.spanLen sa) (s.spanBase sr) (s.spanLen sv) → t.spanNum sq = q)
      ∧ ∀ j < s.spanLen sa,
        s.spanBase sq + j < s.spanBase sr ∨ s.spanBase sr + s.spanLen sv ≤ s.spanBase sq + j →
        t.limb (s.spanBase sq + j) = q / s.radix ^ j % s.radix

/-- 40_limb_primitives.md R105, R111: `LRECIP` writes the one `r` with `(B + r)·dn ≤ B² − 1 < (B + r + 1)·dn`, `dn` the operand
shifted left until its top bit is set. -/
def Obligations.ReciprocalOfLimb : Prop :=
  ∀ (s : State) (xd xs : Reg), s.regNat xs % s.radix ≠ 0 →
    ∃ t, exec (.lrecip xd xs) s = .next t ∧ t.err = 0
      ∧ let d := s.regNat xs % s.radix
        let dn := d * 2 ^ (s.width - bitlen d)
        let r := t.regNat xd
        s.radix ≤ 2 * dn ∧ dn < s.radix ∧ 1 ≤ r ∧ r < s.radix ∧ (s.radix + r) * dn ≤ s.radix ^ 2 - 1
          ∧ s.radix ^ 2 - 1 < (s.radix + r + 1) * dn

/-- 40_limb_primitives.md R106: with the matching reciprocal, quotient and remainder of the division by one limb; without it
(93_implementation_defined.md U4) the command still succeeds and sets `LEN`. -/
def Obligations.DivideByOneLimb : Prop :=
  ∀ (s : State) (sq sa : SpanIx) (xv xi xr : Reg), (Instr.ldiv1p sq sa xv xi xr).ready s = true →
    ∃ t, exec (.ldiv1p sq sa xv xi xr) s = .next t ∧ t.err = 0 ∧ t.spanLen sq = s.spanLen sa
      ∧ (s.regNat xi % s.radix = recip s.width (s.regNat xv % s.radix) →
        t.spanNum sq = s.spanNum sa / (s.regNat xv % s.radix) ∧ t.regNat xr = s.spanNum sa % (s.regNat xv % s.radix))

/-- 40_limb_primitives.md R107 to R109: copy, clear and compare, with their region checks and example words. -/
def Obligations.CopyClearCompare : Prop :=
  (∀ (s : State) (sd sa : SpanIx),
    ((Instr.lcopy sd sa).ready s = true → ∃ t, exec (.lcopy sd sa) s = .next t ∧ t.err = 0
        ∧ t.spanLen sd = s.spanLen sa ∧ t.spanNum sd = s.spanNum sa ∧ t.flagC = s.flagC)
      ∧ ((Instr.lcopy sd sa).ready s = false → exec (.lcopy sd sa) s = .next (s.complete (some .lengthOverflow))))
    ∧ (∀ (s : State) (sd : SpanIx),
      ((Instr.lclr sd).ready s = true → ∃ t, exec (.lclr sd) s = .next t ∧ t.err = 0
          ∧ t.spanLen sd = s.spanLen sd ∧ t.spanNum sd = 0 ∧ t.flagC = s.flagC)
        ∧ ((Instr.lclr sd).ready s = false → exec (.lclr sd) s = .next (s.complete (some .lengthOverflow))))
    ∧ (∀ (s : State) (xd : Reg) (sa sb : SpanIx),
      ((Instr.lcmp xd sa sb).ready s = true → ∃ t, exec (.lcmp xd sa sb) s = .next t ∧ t.err = 0 ∧ t.flagC = s.flagC
          ∧ (s.spanNum sb < s.spanNum sa → t.regNat xd = 1) ∧ (s.spanNum sa = s.spanNum sb → t.regNat xd = 0)
          ∧ (s.spanNum sa < s.spanNum sb → t.regNat xd = 2 ^ 64 - 1))
        ∧ ((Instr.lcmp xd sa sb).ready s = false → exec (.lcmp xd sa sb) s = .next (s.complete (some .lengthOverflow))))
    ∧ (∀ w sd sa, decode w = .ok (.lcopy sd sa) ↔ w = 0x16#8 ++ slotBits sd ++ slotBits sa ++ 0#8 ++ 0#8)
    ∧ (∀ w sd, decode w = .ok (.lclr sd) ↔ w = 0x17#8 ++ slotBits sd ++ 0#12 ++ 0#8)
    ∧ (∀ w xd sa sb, decode w = .ok (.lcmp xd sa sb) ↔ w = 0x18#8 ++ regBits xd ++ slotBits sa ++ slotBits sb ++ 0#4 ++ 0#8)
    ∧ decode 0x16300000 = .ok (.lcopy 3 0) ∧ decode 0x17200000 = .ok (.lclr 2) ∧ decode 0x18712000 = .ok (.lcmp 7 1 2)

/-! Scans, packers and unpackers. -/

/-- 41_packing.md R121, R122: the scans write the least bit (limb) count that holds every magnitude, and the sign indicator, which
stands when both go to one register. -/
def Obligations.CoefficientScans : Prop :=
  ∀ (s : State) (xd xs : Reg) (pa : CipIx), s.CipShape pa → s.CipIn pa →
    (∃ t k, exec (.pbits xd xs pa) s = .next t ∧ t.err = 0
        ∧ (∀ v ∈ s.poly pa, v.natAbs < 2 ^ k) ∧ (∀ j, (∀ v ∈ s.poly pa, v.natAbs < 2 ^ j) → k ≤ j)
        ∧ (xd ≠ xs → t.reg xd = BitVec.ofNat 64 k)
        ∧ ((∃ v ∈ s.poly pa, v < 0) → t.reg xs = 1) ∧ ((∀ v ∈ s.poly pa, 0 ≤ v) → t.reg xs = 0))
      ∧ ∃ t k, exec (.plimbs xd xs pa) s = .next t ∧ t.err = 0
        ∧ (∀ v ∈ s.poly pa, v.natAbs < s.radix ^ k) ∧ (∀ j, (∀ v ∈ s.poly pa, v.natAbs < s.radix ^ j) → k ≤ j)
        ∧ (xd ≠ xs → t.reg xd = BitVec.ofNat 64 k)
        ∧ ((∃ v ∈ s.poly pa, v < 0) → t.reg xs = 1) ∧ ((∀ v ∈ s.poly pa, 0 ≤ v) → t.reg xs = 0)

/-- 41_packing.md R124, R125: the packers set `LEN` to `ceil(length / bundle)`, and when every coefficient lies in its field each
FRP coefficient holds `PACKVAL(i)` in two's complement, its signed value being `PACKVAL(i)` itself. -/
def Obligations.PackersWritePackedValues : Prop :=
  ∀ (s : State) (p : Packing) (fd : FrpIx) (pa : CipIx) (xb xw : Reg) (sgn neg : Bool),
    (packInstr p fd pa xb xw sgn neg).ready s = true →
    let f := fieldWidth p s.width (s.regNat xw)
    let e := if neg then (s.poly pa).map (fun v => -v) else s.poly pa
    ∃ t m, exec (packInstr p fd pa xb xw sgn neg) s = .next t ∧ t.err = 0 ∧ t.frpLen fd = m
      ∧ s.cipLen pa ≤ m * s.regNat xb ∧ (∀ j, s.cipLen pa ≤ j * s.regNat xb → m ≤ j)
      ∧ (InFields sgn f e → ∀ i < m,
        (t.raw fd i : Int) = packedSum e (s.regNat xb) f i % (s.radix ^ (s.frpN fd + 1) : Nat)
          ∧ sval s.width (s.frpN fd) (t.raw fd i) = packedSum e (s.regNat xb) f i)

/-- 41_packing.md R126, R127, R136 to R138: an unpacker leaves, normalised, the sums of the fields that land on each index,
negated with `N`; `BUNPACK` does so when its destination was zero, and else (93_implementation_defined.md U6) leaves a length
no greater than the coefficients that had to be zero. -/
def Obligations.UnpackersWriteFieldSums : Prop :=
  ∀ (s : State) (p : Packing) (pd : CipIx) (fa : FrpIx) (xb xw xc : Reg) (sgn neg : Bool),
    (unpackInstr p pd fa xb xw xc sgn neg).ready s = true →
    let f := fieldWidth p s.width (s.regNat xw)
    let z := s.preZeroed pd fa (s.regNat xb) (s.regNat xc)
    let zero : Prop := s.memRead (s.cipBase pd) (z * (s.cipLimbs pd + 1)) = 0
    ∃ t out, exec (unpackInstr p pd fa xb xw xc sgn neg) s = .next t ∧ t.err = 0
      ∧ (p ≠ .bits ∨ zero → t.HoldsPoly pd out) ∧ (p = .bits → ¬zero → t.cipLen pd ≤ z)
      ∧ Normalised out
      ∧ ∀ k, out.getD k 0 = (if neg then -1 else 1)
        * landingSum sgn (s.unpackInt p sgn fa) (s.frpLen fa) (s.regNat xb) (s.regNat xc) f k

/-- 41_packing.md R133: packing a normalised polynomial whose coefficients lie in their fields and unpacking it with the same
operands gives it back, for all three packings, signed or not, negated or not, whatever slots and memory they share. A slot so wide
that a header, a signed limb, could not count its limbs is left out (log entry 24). -/
def Obligations.PackThenUnpackRestores : Prop :=
  ∀ (p : Packing) (s t u : State) (fd : FrpIx) (pa pd : CipIx) (xb xw : Reg) (sgn neg : Bool),
    exec (packInstr p fd pa xb xw sgn neg) s = .next t → t.err = 0 →
    exec (unpackInstr p pd fd xb xw xb sgn neg) t = .next u → u.err = 0 →
    Normalised (s.poly pa) →
    InFields sgn (fieldWidth p s.width (s.regNat xw)) (if neg then (s.poly pa).map (fun v => -v) else s.poly pa) →
    (p = .bits → t.memRead (s.cipBase pd) (t.preZeroed pd fd (s.regNat xb) (s.regNat xb) * (s.cipLimbs pd + 1)) = 0) →
    2 * s.cipLimbs pd < s.radix →
    u.poly pd = s.poly pa

/-- 41_packing.md R126: the fields of a packed sum decode to the numbers packed, and so do those of its residue modulo
`2^(cnt·f)`. -/
def Obligations.PackedFieldsDecode : Prop :=
  ∀ (e : List Int) (f : Nat) (sgn : Bool), 1 ≤ f → InFields sgn f e →
    let v := packedSum e e.length f 0
    ∀ j, (h : j < e.length) → fieldValue sgn v f j = e[j] ∧ fieldValue sgn (v % 2 ^ (e.length * f)) f j = e[j]

/-- 10_state.md R42, R45: a polynomial written as R45 says reads back as R42 says, wherever the header, a signed limb, can hold
the count of the slot's limbs (log entry 24). -/
def Obligations.WrittenPolynomialReadsBack : Prop :=
  ∀ (t : State) (pd : CipIx) (out : List Int), t.HoldsPoly pd out → (∀ v ∈ out, v.natAbs < t.radix ^ t.cipLimbs pd) →
    2 * t.cipLimbs pd < t.radix → t.poly pd = out

/-! Fermat-ring commands. -/

/-- 42_fermat_ring.md R156, R157: the raw patterns added or subtracted modulo `B^(n+1)`, without normalisation. -/
def Obligations.RawAddSubtract : Prop :=
  (∀ (s : State) (fd fa fb : FrpIx), (Instr.fadd fd fa fb).ready s = true →
    ∃ t, exec (.fadd fd fa fb) s = .next t ∧ t.err = 0 ∧ t.frpLen fd = s.frpLen fa
      ∧ ∀ i < s.frpLen fa, t.raw fd i = (s.raw fa i + s.raw fb i) % s.radix ^ (s.frpN fd + 1))
    ∧ ∀ (s : State) (fd fa fb : FrpIx), (Instr.fsub fd fa fb).ready s = true →
      ∃ t, exec (.fsub fd fa fb) s = .next t ∧ t.err = 0 ∧ t.frpLen fd = s.frpLen fa
        ∧ ∀ i < s.frpLen fa, (t.raw fd i : Int) = ((s.raw fa i : Int) - s.raw fb i) % (s.radix ^ (s.frpN fd + 1) : Nat)

/-- 42_fermat_ring.md R156: the residue of the sum is the sum of the residues while the signed sum keeps to the overflow limb's
range, and likewise of the difference. -/
def Obligations.AddSubtractResidues : Prop :=
  ∀ (s t : State) (fd fa fb : FrpIx) (i : Nat), i < s.frpLen fa →
    let a := sval s.width (s.frpN fa) (s.raw fa i)
    let b := sval s.width (s.frpN fa) (s.raw fb i)
    let bound : Int := 2 ^ (s.width - 1) * (s.radix ^ s.frpN fa : Nat)
    (exec (.fadd fd fa fb) s = .next t → t.err = 0 → -bound ≤ a + b → a + b < bound →
        t.val fd i = (s.val fa i + s.val fb i) % s.modulus fa)
      ∧ (exec (.fsub fd fa fb) s = .next t → t.err = 0 → -bound ≤ a - b → a - b < bound →
        (t.val fd i : Int) = ((s.val fa i : Int) - s.val fb i) % (s.modulus fa : Int))

/-- 42_fermat_ring.md R155: `FNORM` writes every coefficient in canonical form and changes no value; done again it changes no
pattern. -/
def Obligations.NormaliseKeepsValues : Prop :=
  ∀ (s : State) (fd : FrpIx), s.FrpReady fd →
    ∃ t, exec (.fnorm fd) s = .next t ∧ t.err = 0 ∧ t.frpLen fd = s.frpLen fd
      ∧ (∀ i < s.frpLen fd, t.raw fd i = s.val fd i ∧ t.raw fd i ≤ s.radix ^ s.frpN fd)
      ∧ (∀ i, t.val fd i = s.val fd i)
      ∧ ∃ u, exec (.fnorm fd) t = .next u ∧ u.err = 0 ∧ ∀ i < s.frpLen fd, u.raw fd i = t.raw fd i

/-- 42_fermat_ring.md R158, R159: the products, canonical; an input whose coefficients the later writes do not lie over is left
normalised. -/
def Obligations.PointwiseProducts : Prop :=
  (∀ (s : State) (fd fa fb : FrpIx), (Instr.fpmul fd fa fb).ready s = true →
    ∃ t, exec (.fpmul fd fa fb) s = .next t ∧ t.err = 0 ∧ t.frpLen fd = s.frpLen fa
      ∧ (let apart (j k : FrpIx) : Prop := Apart (s.frpBase j) (s.frpLen fa * (s.frpN fd + 1)) (s.frpBase k)
            (s.frpLen fa * (s.frpN fd + 1))
        (apart fa fd → fa = fb ∨ apart fa fb → ∀ i < s.frpLen fa, t.raw fa i = s.val fa i)
          ∧ (apart fb fd → ∀ i < s.frpLen fa, t.raw fb i = s.val fb i))
      ∧ ∀ i < s.frpLen fa, t.raw fd i = s.val fa i * s.val fb i % s.modulus fd)
    ∧ ∀ (s : State) (fd fa : FrpIx), (Instr.fpsqr fd fa).ready s = true →
      ∃ t, exec (.fpsqr fd fa) s = .next t ∧ t.err = 0 ∧ t.frpLen fd = s.frpLen fa
        ∧ (Apart (s.frpBase fa) (s.frpLen fa * (s.frpN fd + 1)) (s.frpBase fd) (s.frpLen fa * (s.frpN fd + 1)) →
          ∀ i < s.frpLen fa, t.raw fa i = s.val fa i)
        ∧ ∀ i < s.frpLen fa, t.raw fd i = s.val fa i ^ 2 % s.modulus fd

/-- 42_fermat_ring.md R160: `FRESCALE` multiplies every coefficient by `2^(−depth)`: times `2^depth`, the result is the value
before. -/
def Obligations.RescaleRemovesDepth : Prop :=
  ∀ (s : State) (fd : FrpIx), s.FrpReady fd →
    ∃ t, exec (.frescale fd) s = .next t ∧ t.err = 0 ∧ t.frpLen fd = s.frpLen fd
      ∧ ∀ i < s.frpLen fd, t.raw fd i < s.modulus fd ∧ t.raw fd i * 2 ^ s.frpDepth fd % s.modulus fd = s.val fd i

/-- 42_fermat_ring.md R161, R162: setting the length fills with zeros and changes no value below it; lowering `n` empties the
polynomial. -/
def Obligations.LengthAndWidthCommands : Prop :=
  (∀ (s : State) (fd : FrpIx) (xm : Reg), s.FrpReady fd → s.regNat xm ≤ s.frpSize fd →
    ∃ t, exec (.fsetlen fd xm) s = .next t ∧ t.err = 0 ∧ t.frpLen fd = s.regNat xm
      ∧ (∀ i < s.regNat xm, t.val fd i = s.val fd i)
      ∧ (∀ i, s.frpLen fd ≤ i → i < s.regNat xm → t.raw fd i = 0)
      ∧ ∀ i < s.frpLen fd, t.raw fd i = s.raw fd i)
    ∧ ∀ (s : State) (fd : FrpIx) (xn : Reg), s.FrpReady fd → 1 ≤ s.regNat xn → s.regNat xn ≤ s.frpN fd →
      ∃ t, exec (.flowern fd xn) s = .next t ∧ t.err = 0 ∧ t.frpN fd = s.regNat xn ∧ t.frpLen fd = 0 ∧ t.mem = s.mem

/-- 42_fermat_ring.md R151: `ρ` is the residue of `2^(3nW/4) − 2^(nW/4)`, its square is 2, its `2nW`-th power `−1`, its order
exactly `4nW`; and the rule's two small cases. -/
def Obligations.RootOfUnity : Prop :=
  (∀ (lw : LimbWidth) (n : Nat), 1 ≤ n →
    let w := lw.bits
    let M := fermatMod w n
    let ρ := rho w n
    ((ρ : Int) = ((2 : Int) ^ (3 * n * w / 4) - 2 ^ (n * w / 4)) % M) ∧ 4 ∣ n * w ∧ ρ ^ 2 % M = 2
      ∧ ρ ^ (2 * n * w) % M = M - 1 ∧ 2 ^ (n * w) % M = M - 1 ∧ (∀ k, ρ ^ k % M = 1 ↔ 4 * n * w ∣ k)
      ∧ ∀ k, ρ ^ (2 * k) % M = 2 ^ k % M)
    ∧ fermatMod 8 1 = 257 ∧ rho 8 1 = 60 ∧ fermatMod 8 2 = 65537 ∧ rho 8 2 = 4080

/-- 42_fermat_ring.md R152, R163: `FMULRHO` multiplies one coefficient by the power of `ρ`, whatever the exponent register holds,
and leaves the slot's other coefficients. -/
def Obligations.RootMultiplication : Prop :=
  ∀ (s : State) (fd : FrpIx) (xi xe : Reg), s.FrpReady fd → s.regNat xi < s.frpLen fd →
    ∃ t, exec (.fmulrho fd xi xe) s = .next t ∧ t.err = 0
      ∧ t.raw fd (s.regNat xi) = s.val fd (s.regNat xi) * rho s.width (s.frpN fd) ^ s.regNat xe % s.modulus fd
      ∧ ∀ i, i ≠ s.regNat xi → t.raw fd i = s.raw fd i

/-- 42_fermat_ring.md R164, R165: the forward butterfly leaves the sum and the twiddled difference, the inverse butterfly the sum
and difference with the second operand times `ρ^(−e)`; the slot's other coefficients stay. -/
def Obligations.ButterflyResults : Prop :=
  ∀ (s : State) (fd : FrpIx) (xi xj xe : Reg),
    let i := s.regNat xi
    let j := s.regNat xj
    let u := s.val fd i
    let v := s.val fd j
    let M := s.modulus fd
    let ρe := rho s.width (s.frpN fd) ^ s.regNat xe
    s.FrpReady fd → i < s.frpLen fd → j < s.frpLen fd → i ≠ j →
    (∃ t, exec (.fbfly fd xi xj xe) s = .next t ∧ t.err = 0 ∧ t.raw fd i = (u + v) % M
        ∧ (t.raw fd j : Int) = ((u : Int) - v) * ρe % M ∧ ∀ l, l ≠ i → l ≠ j → t.raw fd l = s.raw fd l)
      ∧ ∃ t τ, exec (.ibfly fd xi xj xe) s = .next t ∧ t.err = 0 ∧ τ < M ∧ τ * ρe % M = v ∧ t.raw fd i = (u + τ) % M
        ∧ (t.raw fd j : Int) = ((u : Int) - τ) % M ∧ ∀ l, l ≠ i → l ≠ j → t.raw fd l = s.raw fd l

/-- 42_fermat_ring.md R166: a forward butterfly and then the inverse one with the same operands double both coefficients. -/
def Obligations.ButterfliesDouble : Prop :=
  ∀ (s t u : State) (fd : FrpIx) (xi xj xe : Reg), exec (.fbfly fd xi xj xe) s = .next t → t.err = 0 →
    exec (.ibfly fd xi xj xe) t = .next u → u.err = 0
      ∧ u.val fd (s.regNat xi) = 2 * s.val fd (s.regNat xi) % s.modulus fd
      ∧ u.val fd (s.regNat xj) = 2 * s.val fd (s.regNat xj) % s.modulus fd

/-! Transforms and convolutions. -/

/-- 43_fft_convolution.md R180, R182: `FFT` leaves the first `m` values of the transform, canonical, and `LEN = m`. -/
def Obligations.ForwardTransform : Prop :=
  ∀ (s : State) (fd : FrpIx) (xm : Reg), (Instr.fft fd xm).ready s = true →
    ∃ t, exec (.fft fd xm) s = .next t ∧ t.err = 0 ∧ t.frpLen fd = s.regNat xm
      ∧ ∀ k < s.regNat xm, t.raw fd k = transformAt s.width (s.frpN fd) (s.frpDepth fd) (s.vals fd) k

/-- 43_fft_convolution.md R184: there is exactly one sequence of residues whose transform begins with the slot's values, and
`IFFT` leaves it times `2^depth`, canonical; `LEN` stays. -/
def Obligations.InverseTransform : Prop :=
  ∀ (s : State) (fd : FrpIx), (Instr.ifft fd).ready s = true →
    ∃ t a, exec (.ifft fd) s = .next t ∧ t.err = 0 ∧ t.frpLen fd = s.frpLen fd
      ∧ (∀ b : List Nat, (b.length = s.frpLen fd ∧ (∀ x ∈ b, x < s.modulus fd)
          ∧ ∀ k < s.frpLen fd, transformAt s.width (s.frpN fd) (s.frpDepth fd) b k = s.val fd k) ↔ b = a)
      ∧ ∀ j < s.frpLen fd, t.raw fd j = 2 ^ s.frpDepth fd * a.getD j 0 % s.modulus fd

/-- 43_fft_convolution.md R184: `FFT` to at least the input's length, then `IFFT`, then `FRESCALE` give the input's values back,
zero-padded. Under a demand function of the implementation's own (log entry 2) the `IFFT` may lack scratch space. -/
def Obligations.TransformRoundTrip : Prop :=
  ∀ (s t u v : State) (fd : FrpIx) (xm : Reg), s.frpLen fd ≤ s.regNat xm →
    exec (.fft fd xm) s = .next t → t.err = 0 → exec (.ifft fd) t = .next u → exec (.frescale fd) u = .next v →
    (s.params.scrTable = .default → u.err = 0)
      ∧ (u.err = 0 → v.err = 0 ∧ v.frpLen fd = s.regNat xm ∧ ∀ i, v.val fd i = s.val fd i)

/-- 43_fft_convolution.md R185, R186: the first `m` coefficients of the cyclic and of the negacyclic product, canonical and already
rescaled, and `LEN = m`. -/
def Obligations.Convolutions : Prop :=
  (∀ (s : State) (fd fa fb : FrpIx) (xm : Reg), (Instr.cconv fd fa fb xm).ready s = true →
    ∃ t, exec (.cconv fd fa fb xm) s = .next t ∧ t.err = 0 ∧ t.frpLen fd = s.regNat xm
      ∧ ∀ k < s.regNat xm, t.raw fd k = (∑ i ∈ Finset.range (s.frpLen fa), ∑ j ∈ Finset.range (s.frpLen fb),
        if (i + j) % s.frpSize fd = k then s.val fa i * s.val fb j else 0) % s.modulus fd)
    ∧ ∀ (s : State) (fd fa fb : FrpIx) (xm : Reg), (Instr.nconv fd fa fb xm).ready s = true →
      ∃ t, exec (.nconv fd fa fb xm) s = .next t ∧ t.err = 0 ∧ t.frpLen fd = s.regNat xm
        ∧ ∀ k < s.regNat xm, (t.raw fd k : Int) = ((∑ i ∈ Finset.range (s.frpLen fa), ∑ j ∈ Finset.range (s.frpLen fb),
            if i + j = k then (s.val fa i * s.val fb j : Int) else 0)
          - ∑ i ∈ Finset.range (s.frpLen fa), ∑ j ∈ Finset.range (s.frpLen fb),
            if i + j = k + s.frpSize fd then (s.val fa i * s.val fb j : Int) else 0) % (s.modulus fd : Int)

/-! Products. -/

/-- 44_multiplication_engine.md R200 to R205: `CMUL`, `KMUL`, `KMUL.T` and `KMUL.TL` leave the normalised list whose coefficients
are those of the exact product, all of them, those below `t` or those from `t` up. -/
def Obligations.ProductCommands : Prop :=
  ∀ (s : State) (q : ProductKind) (pd pa pb : CipIx), (productInstr q pd pa pb).ready s = true →
    ∃ t out, exec (productInstr q pd pa pb) s = .next t ∧ t.err = 0 ∧ t.HoldsPoly pd out ∧ Normalised out
      ∧ ∀ k, out.getD k 0 = s.wantedCoeff q (s.poly pa) (s.poly pb) k

/-- 44_multiplication_engine.md R204: the recursion controller computes the full product, for every threshold. -/
def Obligations.KaratsubaIsFullProduct : Prop :=
  ∀ (fuel cut : Nat) (u v : List Int), karatsuba fuel cut u v = fullProduct u v

/-! The functions behind the transforms. -/

/-- 00_scope.md R7, 42_fermat_ring.md R153: `brev_d` reads `d` bits backwards; `TW` is its formula, and where `2^d` divides `4nW`,
`ω_d^j = ρ^TW(n, d, j)` and `ω_d` is a principal `2^d`-th root of unity; with the examples of the two rules. -/
def Obligations.TwiddlesAndBitReversal : Prop :=
  (∀ d k : Nat, brev d k < 2 ^ d ∧ ∀ j < d, (brev d k).testBit j = k.testBit (d - 1 - j))
    ∧ brev 0 0 = 0 ∧ brev 3 1 = 4 ∧ brev 3 6 = 3
    ∧ (∀ (lw : LimbWidth) (n d : Nat), 1 ≤ n → 2 ^ d ∣ 4 * n * lw.bits →
      let w := lw.bits
      let M := fermatMod w n
      let ω := omega w n d
      (∀ j, tw w n d j = j * (4 * n * w / 2 ^ d) % (4 * n * w)) ∧ (∀ j, ω ^ j % M = rho w n ^ tw w n d j % M)
        ∧ (1 ≤ d → ω ^ 2 ^ (d - 1) % M = M - 1) ∧ ω ^ 2 ^ d % M = 1
        ∧ ∀ k, 0 < k → k < 2 ^ d → (∑ j ∈ Finset.range (2 ^ d), ω ^ (j * k)) % M = 0)
    ∧ tw 8 1 2 0 = 0 ∧ tw 8 1 2 1 = 8 ∧ tw 8 1 2 2 = 16 ∧ tw 8 1 2 3 = 24 ∧ omega 8 1 2 = 16 ∧ 16 ^ 2 = fermatMod 8 1 - 1
end

