-- ==== Sys2Proof/Laws/State.lean ====
section
/-! SUPPORT. One lemma per field per update of `State`, and what the register and descriptor accessors read after an update,
so that no proof unfolds a record update. -/

namespace Sys2Proof.Machine

set_option Elab.async false

variable (s : State)

/-! `setReg`. -/

@[simp] theorem State.setReg_params (r : Reg) (v : Word) : (s.setReg r v).params = s.params := rfl
@[simp] theorem State.setReg_regs (r : Reg) (v : Word) : (s.setReg r v).regs = s.regs.set r v := rfl
@[simp] theorem State.setReg_err (r : Reg) (v : Word) : (s.setReg r v).err = s.err := rfl
@[simp] theorem State.setReg_esticky (r : Reg) (v : Word) : (s.setReg r v).esticky = s.esticky := rfl
@[simp] theorem State.setReg_cseq (r : Reg) (v : Word) : (s.setReg r v).cseq = s.cseq := rfl
@[simp] theorem State.setReg_flagC (r : Reg) (v : Word) : (s.setReg r v).flagC = s.flagC := rfl
@[simp] theorem State.setReg_kcut (r : Reg) (v : Word) : (s.setReg r v).kcut = s.kcut := rfl
@[simp] theorem State.setReg_spans (r : Reg) (v : Word) : (s.setReg r v).spans = s.spans := rfl
@[simp] theorem State.setReg_cips (r : Reg) (v : Word) : (s.setReg r v).cips = s.cips := rfl
@[simp] theorem State.setReg_frps (r : Reg) (v : Word) : (s.setReg r v).frps = s.frps := rfl
@[simp] theorem State.setReg_mem (r : Reg) (v : Word) : (s.setReg r v).mem = s.mem := rfl
@[simp] theorem State.setReg_arenaSp (r : Reg) (v : Word) : (s.setReg r v).arenaSp = s.arenaSp := rfl
@[simp] theorem State.setReg_done (r : Reg) (v : Word) : (s.setReg r v).done = s.done := rfl
@[simp] theorem State.setReg_epoch (r : Reg) (v : Word) : (s.setReg r v).epoch = s.epoch := rfl
@[simp] theorem State.setReg_inputs (r : Reg) (v : Word) : (s.setReg r v).inputs = s.inputs := rfl

/-! `setRegNat`. -/

@[simp] theorem State.setRegNat_params (r : Reg) (n : Nat) : (s.setRegNat r n).params = s.params := rfl
@[simp] theorem State.setRegNat_regs (r : Reg) (n : Nat) : (s.setRegNat r n).regs = s.regs.set r (BitVec.ofNat 64 n) := rfl
@[simp] theorem State.setRegNat_err (r : Reg) (n : Nat) : (s.setRegNat r n).err = s.err := rfl
@[simp] theorem State.setRegNat_esticky (r : Reg) (n : Nat) : (s.setRegNat r n).esticky = s.esticky := rfl
@[simp] theorem State.setRegNat_cseq (r : Reg) (n : Nat) : (s.setRegNat r n).cseq = s.cseq := rfl
@[simp] theorem State.setRegNat_flagC (r : Reg) (n : Nat) : (s.setRegNat r n).flagC = s.flagC := rfl
@[simp] theorem State.setRegNat_kcut (r : Reg) (n : Nat) : (s.setRegNat r n).kcut = s.kcut := rfl
@[simp] theorem State.setRegNat_spans (r : Reg) (n : Nat) : (s.setRegNat r n).spans = s.spans := rfl
@[simp] theorem State.setRegNat_cips (r : Reg) (n : Nat) : (s.setRegNat r n).cips = s.cips := rfl
@[simp] theorem State.setRegNat_frps (r : Reg) (n : Nat) : (s.setRegNat r n).frps = s.frps := rfl
@[simp] theorem State.setRegNat_mem (r : Reg) (n : Nat) : (s.setRegNat r n).mem = s.mem := rfl
@[simp] theorem State.setRegNat_arenaSp (r : Reg) (n : Nat) : (s.setRegNat r n).arenaSp = s.arenaSp := rfl
@[simp] theorem State.setRegNat_done (r : Reg) (n : Nat) : (s.setRegNat r n).done = s.done := rfl
@[simp] theorem State.setRegNat_epoch (r : Reg) (n : Nat) : (s.setRegNat r n).epoch = s.epoch := rfl
@[simp] theorem State.setRegNat_inputs (r : Reg) (n : Nat) : (s.setRegNat r n).inputs = s.inputs := rfl

/-! `setSpan`. -/

@[simp] theorem State.setSpan_params (k : SpanIx) (v : SpanSlot) : (s.setSpan k v).params = s.params := rfl
@[simp] theorem State.setSpan_regs (k : SpanIx) (v : SpanSlot) : (s.setSpan k v).regs = s.regs := rfl
@[simp] theorem State.setSpan_err (k : SpanIx) (v : SpanSlot) : (s.setSpan k v).err = s.err := rfl
@[simp] theorem State.setSpan_esticky (k : SpanIx) (v : SpanSlot) : (s.setSpan k v).esticky = s.esticky := rfl
@[simp] theorem State.setSpan_cseq (k : SpanIx) (v : SpanSlot) : (s.setSpan k v).cseq = s.cseq := rfl
@[simp] theorem State.setSpan_flagC (k : SpanIx) (v : SpanSlot) : (s.setSpan k v).flagC = s.flagC := rfl
@[simp] theorem State.setSpan_kcut (k : SpanIx) (v : SpanSlot) : (s.setSpan k v).kcut = s.kcut := rfl
@[simp] theorem State.setSpan_spans (k : SpanIx) (v : SpanSlot) : (s.setSpan k v).spans = s.spans.set k v := rfl
@[simp] theorem State.setSpan_cips (k : SpanIx) (v : SpanSlot) : (s.setSpan k v).cips = s.cips := rfl
@[simp] theorem State.setSpan_frps (k : SpanIx) (v : SpanSlot) : (s.setSpan k v).frps = s.frps := rfl
@[simp] theorem State.setSpan_mem (k : SpanIx) (v : SpanSlot) : (s.setSpan k v).mem = s.mem := rfl
@[simp] theorem State.setSpan_arenaSp (k : SpanIx) (v : SpanSlot) : (s.setSpan k v).arenaSp = s.arenaSp := rfl
@[simp] theorem State.setSpan_done (k : SpanIx) (v : SpanSlot) : (s.setSpan k v).done = s.done := rfl
@[simp] theorem State.setSpan_epoch (k : SpanIx) (v : SpanSlot) : (s.setSpan k v).epoch = s.epoch := rfl
@[simp] theorem State.setSpan_inputs (k : SpanIx) (v : SpanSlot) : (s.setSpan k v).inputs = s.inputs := rfl

/-! `setCip`. -/

@[simp] theorem State.setCip_params (k : CipIx) (v : CipSlot) : (s.setCip k v).params = s.params := rfl
@[simp] theorem State.setCip_regs (k : CipIx) (v : CipSlot) : (s.setCip k v).regs = s.regs := rfl
@[simp] theorem State.setCip_err (k : CipIx) (v : CipSlot) : (s.setCip k v).err = s.err := rfl
@[simp] theorem State.setCip_esticky (k : CipIx) (v : CipSlot) : (s.setCip k v).esticky = s.esticky := rfl
@[simp] theorem State.setCip_cseq (k : CipIx) (v : CipSlot) : (s.setCip k v).cseq = s.cseq := rfl
@[simp] theorem State.setCip_flagC (k : CipIx) (v : CipSlot) : (s.setCip k v).flagC = s.flagC := rfl
@[simp] theorem State.setCip_kcut (k : CipIx) (v : CipSlot) : (s.setCip k v).kcut = s.kcut := rfl
@[simp] theorem State.setCip_spans (k : CipIx) (v : CipSlot) : (s.setCip k v).spans = s.spans := rfl
@[simp] theorem State.setCip_cips (k : CipIx) (v : CipSlot) : (s.setCip k v).cips = s.cips.set k v := rfl
@[simp] theorem State.setCip_frps (k : CipIx) (v : CipSlot) : (s.setCip k v).frps = s.frps := rfl
@[simp] theorem State.setCip_mem (k : CipIx) (v : CipSlot) : (s.setCip k v).mem = s.mem := rfl
@[simp] theorem State.setCip_arenaSp (k : CipIx) (v : CipSlot) : (s.setCip k v).arenaSp = s.arenaSp := rfl
@[simp] theorem State.setCip_done (k : CipIx) (v : CipSlot) : (s.setCip k v).done = s.done := rfl
@[simp] theorem State.setCip_epoch (k : CipIx) (v : CipSlot) : (s.setCip k v).epoch = s.epoch := rfl
@[simp] theorem State.setCip_inputs (k : CipIx) (v : CipSlot) : (s.setCip k v).inputs = s.inputs := rfl

/-! `setFrp`. -/

@[simp] theorem State.setFrp_params (k : FrpIx) (v : FrpSlot) : (s.setFrp k v).params = s.params := rfl
@[simp] theorem State.setFrp_regs (k : FrpIx) (v : FrpSlot) : (s.setFrp k v).regs = s.regs := rfl
@[simp] theorem State.setFrp_err (k : FrpIx) (v : FrpSlot) : (s.setFrp k v).err = s.err := rfl
@[simp] theorem State.setFrp_esticky (k : FrpIx) (v : FrpSlot) : (s.setFrp k v).esticky = s.esticky := rfl
@[simp] theorem State.setFrp_cseq (k : FrpIx) (v : FrpSlot) : (s.setFrp k v).cseq = s.cseq := rfl
@[simp] theorem State.setFrp_flagC (k : FrpIx) (v : FrpSlot) : (s.setFrp k v).flagC = s.flagC := rfl
@[simp] theorem State.setFrp_kcut (k : FrpIx) (v : FrpSlot) : (s.setFrp k v).kcut = s.kcut := rfl
@[simp] theorem State.setFrp_spans (k : FrpIx) (v : FrpSlot) : (s.setFrp k v).spans = s.spans := rfl
@[simp] theorem State.setFrp_cips (k : FrpIx) (v : FrpSlot) : (s.setFrp k v).cips = s.cips := rfl
@[simp] theorem State.setFrp_frps (k : FrpIx) (v : FrpSlot) : (s.setFrp k v).frps = s.frps.set k v := rfl
@[simp] theorem State.setFrp_mem (k : FrpIx) (v : FrpSlot) : (s.setFrp k v).mem = s.mem := rfl
@[simp] theorem State.setFrp_arenaSp (k : FrpIx) (v : FrpSlot) : (s.setFrp k v).arenaSp = s.arenaSp := rfl
@[simp] theorem State.setFrp_done (k : FrpIx) (v : FrpSlot) : (s.setFrp k v).done = s.done := rfl
@[simp] theorem State.setFrp_epoch (k : FrpIx) (v : FrpSlot) : (s.setFrp k v).epoch = s.epoch := rfl
@[simp] theorem State.setFrp_inputs (k : FrpIx) (v : FrpSlot) : (s.setFrp k v).inputs = s.inputs := rfl

/-! `setSpanLen`. -/

@[simp] theorem State.setSpanLen_params (k : SpanIx) (m : Nat) : (s.setSpanLen k m).params = s.params := rfl
@[simp] theorem State.setSpanLen_regs (k : SpanIx) (m : Nat) : (s.setSpanLen k m).regs = s.regs := rfl
@[simp] theorem State.setSpanLen_err (k : SpanIx) (m : Nat) : (s.setSpanLen k m).err = s.err := rfl
@[simp] theorem State.setSpanLen_esticky (k : SpanIx) (m : Nat) : (s.setSpanLen k m).esticky = s.esticky := rfl
@[simp] theorem State.setSpanLen_cseq (k : SpanIx) (m : Nat) : (s.setSpanLen k m).cseq = s.cseq := rfl
@[simp] theorem State.setSpanLen_flagC (k : SpanIx) (m : Nat) : (s.setSpanLen k m).flagC = s.flagC := rfl
@[simp] theorem State.setSpanLen_kcut (k : SpanIx) (m : Nat) : (s.setSpanLen k m).kcut = s.kcut := rfl
@[simp] theorem State.setSpanLen_spans (k : SpanIx) (m : Nat) : (s.setSpanLen k m).spans = s.spans.set k { s.spans[k] with len := BitVec.ofNat 64 m } := rfl
@[simp] theorem State.setSpanLen_cips (k : SpanIx) (m : Nat) : (s.setSpanLen k m).cips = s.cips := rfl
@[simp] theorem State.setSpanLen_frps (k : SpanIx) (m : Nat) : (s.setSpanLen k m).frps = s.frps := rfl
@[simp] theorem State.setSpanLen_mem (k : SpanIx) (m : Nat) : (s.setSpanLen k m).mem = s.mem := rfl
@[simp] theorem State.setSpanLen_arenaSp (k : SpanIx) (m : Nat) : (s.setSpanLen k m).arenaSp = s.arenaSp := rfl
@[simp] theorem State.setSpanLen_done (k : SpanIx) (m : Nat) : (s.setSpanLen k m).done = s.done := rfl
@[simp] theorem State.setSpanLen_epoch (k : SpanIx) (m : Nat) : (s.setSpanLen k m).epoch = s.epoch := rfl
@[simp] theorem State.setSpanLen_inputs (k : SpanIx) (m : Nat) : (s.setSpanLen k m).inputs = s.inputs := rfl

/-! `setCipLen`. -/

@[simp] theorem State.setCipLen_params (k : CipIx) (m : Nat) : (s.setCipLen k m).params = s.params := rfl
@[simp] theorem State.setCipLen_regs (k : CipIx) (m : Nat) : (s.setCipLen k m).regs = s.regs := rfl
@[simp] theorem State.setCipLen_err (k : CipIx) (m : Nat) : (s.setCipLen k m).err = s.err := rfl
@[simp] theorem State.setCipLen_esticky (k : CipIx) (m : Nat) : (s.setCipLen k m).esticky = s.esticky := rfl
@[simp] theorem State.setCipLen_cseq (k : CipIx) (m : Nat) : (s.setCipLen k m).cseq = s.cseq := rfl
@[simp] theorem State.setCipLen_flagC (k : CipIx) (m : Nat) : (s.setCipLen k m).flagC = s.flagC := rfl
@[simp] theorem State.setCipLen_kcut (k : CipIx) (m : Nat) : (s.setCipLen k m).kcut = s.kcut := rfl
@[simp] theorem State.setCipLen_spans (k : CipIx) (m : Nat) : (s.setCipLen k m).spans = s.spans := rfl
@[simp] theorem State.setCipLen_cips (k : CipIx) (m : Nat) : (s.setCipLen k m).cips = s.cips.set k { s.cips[k] with len := BitVec.ofNat 64 m } := rfl
@[simp] theorem State.setCipLen_frps (k : CipIx) (m : Nat) : (s.setCipLen k m).frps = s.frps := rfl
@[simp] theorem State.setCipLen_mem (k : CipIx) (m : Nat) : (s.setCipLen k m).mem = s.mem := rfl
@[simp] theorem State.setCipLen_arenaSp (k : CipIx) (m : Nat) : (s.setCipLen k m).arenaSp = s.arenaSp := rfl
@[simp] theorem State.setCipLen_done (k : CipIx) (m : Nat) : (s.setCipLen k m).done = s.done := rfl
@[simp] theorem State.setCipLen_epoch (k : CipIx) (m : Nat) : (s.setCipLen k m).epoch = s.epoch := rfl
@[simp] theorem State.setCipLen_inputs (k : CipIx) (m : Nat) : (s.setCipLen k m).inputs = s.inputs := rfl

/-! `setFrpLen`. -/

@[simp] theorem State.setFrpLen_params (k : FrpIx) (m : Nat) : (s.setFrpLen k m).params = s.params := rfl
@[simp] theorem State.setFrpLen_regs (k : FrpIx) (m : Nat) : (s.setFrpLen k m).regs = s.regs := rfl
@[simp] theorem State.setFrpLen_err (k : FrpIx) (m : Nat) : (s.setFrpLen k m).err = s.err := rfl
@[simp] theorem State.setFrpLen_esticky (k : FrpIx) (m : Nat) : (s.setFrpLen k m).esticky = s.esticky := rfl
@[simp] theorem State.setFrpLen_cseq (k : FrpIx) (m : Nat) : (s.setFrpLen k m).cseq = s.cseq := rfl
@[simp] theorem State.setFrpLen_flagC (k : FrpIx) (m : Nat) : (s.setFrpLen k m).flagC = s.flagC := rfl
@[simp] theorem State.setFrpLen_kcut (k : FrpIx) (m : Nat) : (s.setFrpLen k m).kcut = s.kcut := rfl
@[simp] theorem State.setFrpLen_spans (k : FrpIx) (m : Nat) : (s.setFrpLen k m).spans = s.spans := rfl
@[simp] theorem State.setFrpLen_cips (k : FrpIx) (m : Nat) : (s.setFrpLen k m).cips = s.cips := rfl
@[simp] theorem State.setFrpLen_frps (k : FrpIx) (m : Nat) : (s.setFrpLen k m).frps = s.frps.set k { s.frps[k] with len := BitVec.ofNat 64 m } := rfl
@[simp] theorem State.setFrpLen_mem (k : FrpIx) (m : Nat) : (s.setFrpLen k m).mem = s.mem := rfl
@[simp] theorem State.setFrpLen_arenaSp (k : FrpIx) (m : Nat) : (s.setFrpLen k m).arenaSp = s.arenaSp := rfl
@[simp] theorem State.setFrpLen_done (k : FrpIx) (m : Nat) : (s.setFrpLen k m).done = s.done := rfl
@[simp] theorem State.setFrpLen_epoch (k : FrpIx) (m : Nat) : (s.setFrpLen k m).epoch = s.epoch := rfl
@[simp] theorem State.setFrpLen_inputs (k : FrpIx) (m : Nat) : (s.setFrpLen k m).inputs = s.inputs := rfl

/-! `setFrpN`. -/

@[simp] theorem State.setFrpN_params (k : FrpIx) (m : Nat) : (s.setFrpN k m).params = s.params := rfl
@[simp] theorem State.setFrpN_regs (k : FrpIx) (m : Nat) : (s.setFrpN k m).regs = s.regs := rfl
@[simp] theorem State.setFrpN_err (k : FrpIx) (m : Nat) : (s.setFrpN k m).err = s.err := rfl
@[simp] theorem State.setFrpN_esticky (k : FrpIx) (m : Nat) : (s.setFrpN k m).esticky = s.esticky := rfl
@[simp] theorem State.setFrpN_cseq (k : FrpIx) (m : Nat) : (s.setFrpN k m).cseq = s.cseq := rfl
@[simp] theorem State.setFrpN_flagC (k : FrpIx) (m : Nat) : (s.setFrpN k m).flagC = s.flagC := rfl
@[simp] theorem State.setFrpN_kcut (k : FrpIx) (m : Nat) : (s.setFrpN k m).kcut = s.kcut := rfl
@[simp] theorem State.setFrpN_spans (k : FrpIx) (m : Nat) : (s.setFrpN k m).spans = s.spans := rfl
@[simp] theorem State.setFrpN_cips (k : FrpIx) (m : Nat) : (s.setFrpN k m).cips = s.cips := rfl
@[simp] theorem State.setFrpN_frps (k : FrpIx) (m : Nat) : (s.setFrpN k m).frps = s.frps.set k { s.frps[k] with n := BitVec.ofNat 64 m } := rfl
@[simp] theorem State.setFrpN_mem (k : FrpIx) (m : Nat) : (s.setFrpN k m).mem = s.mem := rfl
@[simp] theorem State.setFrpN_arenaSp (k : FrpIx) (m : Nat) : (s.setFrpN k m).arenaSp = s.arenaSp := rfl
@[simp] theorem State.setFrpN_done (k : FrpIx) (m : Nat) : (s.setFrpN k m).done = s.done := rfl
@[simp] theorem State.setFrpN_epoch (k : FrpIx) (m : Nat) : (s.setFrpN k m).epoch = s.epoch := rfl
@[simp] theorem State.setFrpN_inputs (k : FrpIx) (m : Nat) : (s.setFrpN k m).inputs = s.inputs := rfl

/-! `setFlagC`. -/

@[simp] theorem State.setFlagC_params (c : Bool) : (s.setFlagC c).params = s.params := rfl
@[simp] theorem State.setFlagC_regs (c : Bool) : (s.setFlagC c).regs = s.regs := rfl
@[simp] theorem State.setFlagC_err (c : Bool) : (s.setFlagC c).err = s.err := rfl
@[simp] theorem State.setFlagC_esticky (c : Bool) : (s.setFlagC c).esticky = s.esticky := rfl
@[simp] theorem State.setFlagC_cseq (c : Bool) : (s.setFlagC c).cseq = s.cseq := rfl
@[simp] theorem State.setFlagC_flagC (c : Bool) : (s.setFlagC c).flagC = c := rfl
@[simp] theorem State.setFlagC_kcut (c : Bool) : (s.setFlagC c).kcut = s.kcut := rfl
@[simp] theorem State.setFlagC_spans (c : Bool) : (s.setFlagC c).spans = s.spans := rfl
@[simp] theorem State.setFlagC_cips (c : Bool) : (s.setFlagC c).cips = s.cips := rfl
@[simp] theorem State.setFlagC_frps (c : Bool) : (s.setFlagC c).frps = s.frps := rfl
@[simp] theorem State.setFlagC_mem (c : Bool) : (s.setFlagC c).mem = s.mem := rfl
@[simp] theorem State.setFlagC_arenaSp (c : Bool) : (s.setFlagC c).arenaSp = s.arenaSp := rfl
@[simp] theorem State.setFlagC_done (c : Bool) : (s.setFlagC c).done = s.done := rfl
@[simp] theorem State.setFlagC_epoch (c : Bool) : (s.setFlagC c).epoch = s.epoch := rfl
@[simp] theorem State.setFlagC_inputs (c : Bool) : (s.setFlagC c).inputs = s.inputs := rfl

/-! `memWrite`. -/

@[simp] theorem State.memWrite_params (addr n v : Nat) : (s.memWrite addr n v).params = s.params := rfl
@[simp] theorem State.memWrite_regs (addr n v : Nat) : (s.memWrite addr n v).regs = s.regs := rfl
@[simp] theorem State.memWrite_err (addr n v : Nat) : (s.memWrite addr n v).err = s.err := rfl
@[simp] theorem State.memWrite_esticky (addr n v : Nat) : (s.memWrite addr n v).esticky = s.esticky := rfl
@[simp] theorem State.memWrite_cseq (addr n v : Nat) : (s.memWrite addr n v).cseq = s.cseq := rfl
@[simp] theorem State.memWrite_flagC (addr n v : Nat) : (s.memWrite addr n v).flagC = s.flagC := rfl
@[simp] theorem State.memWrite_kcut (addr n v : Nat) : (s.memWrite addr n v).kcut = s.kcut := rfl
@[simp] theorem State.memWrite_spans (addr n v : Nat) : (s.memWrite addr n v).spans = s.spans := rfl
@[simp] theorem State.memWrite_cips (addr n v : Nat) : (s.memWrite addr n v).cips = s.cips := rfl
@[simp] theorem State.memWrite_frps (addr n v : Nat) : (s.memWrite addr n v).frps = s.frps := rfl
@[simp] theorem State.memWrite_mem (addr n v : Nat) : (s.memWrite addr n v).mem = s.mem.fill (addr * s.limbBytes) (n * s.limbBytes) (numByte v (addr * s.limbBytes)) := rfl
@[simp] theorem State.memWrite_arenaSp (addr n v : Nat) : (s.memWrite addr n v).arenaSp = s.arenaSp := rfl
@[simp] theorem State.memWrite_done (addr n v : Nat) : (s.memWrite addr n v).done = s.done := rfl
@[simp] theorem State.memWrite_epoch (addr n v : Nat) : (s.memWrite addr n v).epoch = s.epoch := rfl
@[simp] theorem State.memWrite_inputs (addr n v : Nat) : (s.memWrite addr n v).inputs = s.inputs := rfl

/-! `memFree`. -/

@[simp] theorem State.memFree_params (addr n : Nat) : (s.memFree addr n).params = s.params := rfl
@[simp] theorem State.memFree_regs (addr n : Nat) : (s.memFree addr n).regs = s.regs := rfl
@[simp] theorem State.memFree_err (addr n : Nat) : (s.memFree addr n).err = s.err := rfl
@[simp] theorem State.memFree_esticky (addr n : Nat) : (s.memFree addr n).esticky = s.esticky := rfl
@[simp] theorem State.memFree_cseq (addr n : Nat) : (s.memFree addr n).cseq = s.cseq := rfl
@[simp] theorem State.memFree_flagC (addr n : Nat) : (s.memFree addr n).flagC = s.flagC := rfl
@[simp] theorem State.memFree_kcut (addr n : Nat) : (s.memFree addr n).kcut = s.kcut := rfl
@[simp] theorem State.memFree_spans (addr n : Nat) : (s.memFree addr n).spans = s.spans := rfl
@[simp] theorem State.memFree_cips (addr n : Nat) : (s.memFree addr n).cips = s.cips := rfl
@[simp] theorem State.memFree_frps (addr n : Nat) : (s.memFree addr n).frps = s.frps := rfl
@[simp] theorem State.memFree_mem (addr n : Nat) : (s.memFree addr n).mem = s.mem.fill (addr * s.limbBytes) (n * s.limbBytes) (Config.freeByte s.epoch) := rfl
@[simp] theorem State.memFree_arenaSp (addr n : Nat) : (s.memFree addr n).arenaSp = s.arenaSp := rfl
@[simp] theorem State.memFree_done (addr n : Nat) : (s.memFree addr n).done = s.done := rfl
@[simp] theorem State.memFree_epoch (addr n : Nat) : (s.memFree addr n).epoch = s.epoch := rfl
@[simp] theorem State.memFree_inputs (addr n : Nat) : (s.memFree addr n).inputs = s.inputs := rfl

/-! `complete`. -/

@[simp] theorem State.complete_params (k : Option ErrorKind) : (s.complete k).params = s.params := rfl
@[simp] theorem State.complete_regs (k : Option ErrorKind) : (s.complete k).regs = s.regs := rfl
@[simp] theorem State.complete_cseq (k : Option ErrorKind) : (s.complete k).cseq = s.cseq + 1 := rfl
@[simp] theorem State.complete_flagC (k : Option ErrorKind) : (s.complete k).flagC = s.flagC := rfl
@[simp] theorem State.complete_kcut (k : Option ErrorKind) : (s.complete k).kcut = s.kcut := rfl
@[simp] theorem State.complete_spans (k : Option ErrorKind) : (s.complete k).spans = s.spans := rfl
@[simp] theorem State.complete_cips (k : Option ErrorKind) : (s.complete k).cips = s.cips := rfl
@[simp] theorem State.complete_frps (k : Option ErrorKind) : (s.complete k).frps = s.frps := rfl
@[simp] theorem State.complete_mem (k : Option ErrorKind) : (s.complete k).mem = s.mem := rfl
@[simp] theorem State.complete_arenaSp (k : Option ErrorKind) : (s.complete k).arenaSp = 0 := rfl
@[simp] theorem State.complete_done (k : Option ErrorKind) : (s.complete k).done = true := rfl
@[simp] theorem State.complete_epoch (k : Option ErrorKind) : (s.complete k).epoch = s.epoch + 1 := rfl
@[simp] theorem State.complete_inputs (k : Option ErrorKind) : (s.complete k).inputs = s.inputs := rfl
@[simp] theorem State.complete_none_err : (s.complete none).err = 0 := rfl
@[simp] theorem State.complete_some_err (e : ErrorKind) : (s.complete (some e)).err = BitVec.ofNat 64 e.code := rfl
@[simp] theorem State.complete_none_esticky : (s.complete none).esticky = s.esticky := rfl
@[simp] theorem State.complete_some_esticky (e : ErrorKind) :
    (s.complete (some e)).esticky = s.esticky ||| BitVec.twoPow 64 e.code := rfl

/-! `endPulse`. -/

@[simp] theorem State.endPulse_params : s.endPulse.params = s.params := rfl
@[simp] theorem State.endPulse_regs : s.endPulse.regs = s.regs := rfl
@[simp] theorem State.endPulse_err : s.endPulse.err = s.err := rfl
@[simp] theorem State.endPulse_esticky : s.endPulse.esticky = s.esticky := rfl
@[simp] theorem State.endPulse_cseq : s.endPulse.cseq = s.cseq := rfl
@[simp] theorem State.endPulse_flagC : s.endPulse.flagC = s.flagC := rfl
@[simp] theorem State.endPulse_kcut : s.endPulse.kcut = s.kcut := rfl
@[simp] theorem State.endPulse_spans : s.endPulse.spans = s.spans := rfl
@[simp] theorem State.endPulse_cips : s.endPulse.cips = s.cips := rfl
@[simp] theorem State.endPulse_frps : s.endPulse.frps = s.frps := rfl
@[simp] theorem State.endPulse_mem : s.endPulse.mem = s.mem := rfl
@[simp] theorem State.endPulse_arenaSp : s.endPulse.arenaSp = s.arenaSp := rfl
@[simp] theorem State.endPulse_done : s.endPulse.done = false := rfl
@[simp] theorem State.endPulse_epoch : s.endPulse.epoch = s.epoch := rfl
@[simp] theorem State.endPulse_inputs : s.endPulse.inputs = s.inputs := rfl

/-! `memWriteList`: only memory changes. -/

theorem State.memWriteList_eq (addr stride : Nat) (vs : List Nat) :
    s.memWriteList addr stride vs = { s with mem := (s.memWriteList addr stride vs).mem } := by
  induction vs generalizing s addr with
  | nil => rfl
  | cons v vs ih => rw [State.memWriteList, ih]; rfl

@[simp] theorem State.memWriteList_params (addr stride : Nat) (vs : List Nat) :
    (s.memWriteList addr stride vs).params = s.params := by rw [State.memWriteList_eq]
@[simp] theorem State.memWriteList_regs (addr stride : Nat) (vs : List Nat) :
    (s.memWriteList addr stride vs).regs = s.regs := by rw [State.memWriteList_eq]
@[simp] theorem State.memWriteList_err (addr stride : Nat) (vs : List Nat) :
    (s.memWriteList addr stride vs).err = s.err := by rw [State.memWriteList_eq]
@[simp] theorem State.memWriteList_esticky (addr stride : Nat) (vs : List Nat) :
    (s.memWriteList addr stride vs).esticky = s.esticky := by rw [State.memWriteList_eq]
@[simp] theorem State.memWriteList_cseq (addr stride : Nat) (vs : List Nat) :
    (s.memWriteList addr stride vs).cseq = s.cseq := by rw [State.memWriteList_eq]
@[simp] theorem State.memWriteList_flagC (addr stride : Nat) (vs : List Nat) :
    (s.memWriteList addr stride vs).flagC = s.flagC := by rw [State.memWriteList_eq]
@[simp] theorem State.memWriteList_kcut (addr stride : Nat) (vs : List Nat) :
    (s.memWriteList addr stride vs).kcut = s.kcut := by rw [State.memWriteList_eq]
@[simp] theorem State.memWriteList_spans (addr stride : Nat) (vs : List Nat) :
    (s.memWriteList addr stride vs).spans = s.spans := by rw [State.memWriteList_eq]
@[simp] theorem State.memWriteList_cips (addr stride : Nat) (vs : List Nat) :
    (s.memWriteList addr stride vs).cips = s.cips := by rw [State.memWriteList_eq]
@[simp] theorem State.memWriteList_frps (addr stride : Nat) (vs : List Nat) :
    (s.memWriteList addr stride vs).frps = s.frps := by rw [State.memWriteList_eq]
@[simp] theorem State.memWriteList_arenaSp (addr stride : Nat) (vs : List Nat) :
    (s.memWriteList addr stride vs).arenaSp = s.arenaSp := by rw [State.memWriteList_eq]
@[simp] theorem State.memWriteList_done (addr stride : Nat) (vs : List Nat) :
    (s.memWriteList addr stride vs).done = s.done := by rw [State.memWriteList_eq]
@[simp] theorem State.memWriteList_epoch (addr stride : Nat) (vs : List Nat) :
    (s.memWriteList addr stride vs).epoch = s.epoch := by rw [State.memWriteList_eq]
@[simp] theorem State.memWriteList_inputs (addr stride : Nat) (vs : List Nat) :
    (s.memWriteList addr stride vs).inputs = s.inputs := by rw [State.memWriteList_eq]

/-! Registers. -/

@[simp] theorem State.reg_setReg (r q : Reg) (v : Word) : (s.setReg r v).reg q = if r = q then v else s.reg q := by
  simp [State.reg, State.setReg, Vector.getElem_set, Fin.ext_iff]

@[simp] theorem State.reg_setRegNat (r q : Reg) (n : Nat) :
    (s.setRegNat r n).reg q = if r = q then BitVec.ofNat 64 n else s.reg q := State.reg_setReg s r q _

/-- A read of a register depends on the registers alone. -/
theorem State.reg_congr {s t : State} (h : t.regs = s.regs) (r : Reg) : t.reg r = s.reg r := by simp only [State.reg, h]

/-! Descriptors. -/

theorem vector_get_set {α : Type} (v : Vector α 4) (j k : Fin 4) (x : α) :
    (v.set j x)[k] = if j = k then x else v[k] := by
  simp [Vector.getElem_set, Fin.ext_iff]

theorem State.spanBase_congr {s t : State} (h : t.spans = s.spans) (k : SpanIx) : t.spanBase k = s.spanBase k := by
  simp only [State.spanBase, h]
theorem State.spanLen_congr {s t : State} (h : t.spans = s.spans) (k : SpanIx) : t.spanLen k = s.spanLen k := by
  simp only [State.spanLen, h]
@[simp] theorem State.spanBase_setSpanLen (j k : SpanIx) (m : Nat) : (s.setSpanLen j m).spanBase k = s.spanBase k := by
  simp only [State.spanBase, State.setSpanLen_spans, vector_get_set]; split <;> (subst_vars; rfl)
@[simp] theorem State.spanLen_setSpanLen (j k : SpanIx) (m : Nat) :
    (s.setSpanLen j m).spanLen k = if j = k then m % 2 ^ 64 else s.spanLen k := by
  simp only [State.spanLen, State.setSpanLen_spans, vector_get_set]; split <;> rfl

theorem State.cipBase_congr {s t : State} (h : t.cips = s.cips) (k : CipIx) : t.cipBase k = s.cipBase k := by
  simp only [State.cipBase, h]
theorem State.cipLimbs_congr {s t : State} (h : t.cips = s.cips) (k : CipIx) : t.cipLimbs k = s.cipLimbs k := by
  simp only [State.cipLimbs, h]
theorem State.cipLen_congr {s t : State} (h : t.cips = s.cips) (k : CipIx) : t.cipLen k = s.cipLen k := by
  simp only [State.cipLen, h]
theorem State.cipAlloc_congr {s t : State} (h : t.cips = s.cips) (k : CipIx) : t.cipAlloc k = s.cipAlloc k := by
  simp only [State.cipAlloc, h]
@[simp] theorem State.cipBase_setCipLen (j k : CipIx) (m : Nat) : (s.setCipLen j m).cipBase k = s.cipBase k := by
  simp only [State.cipBase, State.setCipLen_cips, vector_get_set]; split <;> (subst_vars; rfl)
@[simp] theorem State.cipLimbs_setCipLen (j k : CipIx) (m : Nat) : (s.setCipLen j m).cipLimbs k = s.cipLimbs k := by
  simp only [State.cipLimbs, State.setCipLen_cips, vector_get_set]; split <;> (subst_vars; rfl)
@[simp] theorem State.cipLen_setCipLen (j k : CipIx) (m : Nat) :
    (s.setCipLen j m).cipLen k = if j = k then m % 2 ^ 64 else s.cipLen k := by
  simp only [State.cipLen, State.setCipLen_cips, vector_get_set]; split <;> rfl
@[simp] theorem State.cipAlloc_setCipLen (j k : CipIx) (m : Nat) : (s.setCipLen j m).cipAlloc k = s.cipAlloc k := by
  simp only [State.cipAlloc, State.setCipLen_cips, vector_get_set]; split <;> (subst_vars; rfl)

theorem State.frpBase_congr {s t : State} (h : t.frps = s.frps) (k : FrpIx) : t.frpBase k = s.frpBase k := by
  simp only [State.frpBase, h]
theorem State.frpDepth_congr {s t : State} (h : t.frps = s.frps) (k : FrpIx) : t.frpDepth k = s.frpDepth k := by
  simp only [State.frpDepth, h]
theorem State.frpN_congr {s t : State} (h : t.frps = s.frps) (k : FrpIx) : t.frpN k = s.frpN k := by
  simp only [State.frpN, h]
theorem State.frpLen_congr {s t : State} (h : t.frps = s.frps) (k : FrpIx) : t.frpLen k = s.frpLen k := by
  simp only [State.frpLen, h]
theorem State.frpScratch_congr {s t : State} (h : t.frps = s.frps) (k : FrpIx) : t.frpScratch k = s.frpScratch k := by
  simp only [State.frpScratch, h]
@[simp] theorem State.frpBase_setFrpLen (j k : FrpIx) (m : Nat) : (s.setFrpLen j m).frpBase k = s.frpBase k := by
  simp only [State.frpBase, State.setFrpLen_frps, vector_get_set]; split <;> (subst_vars; rfl)
@[simp] theorem State.frpDepth_setFrpLen (j k : FrpIx) (m : Nat) : (s.setFrpLen j m).frpDepth k = s.frpDepth k := by
  simp only [State.frpDepth, State.setFrpLen_frps, vector_get_set]; split <;> (subst_vars; rfl)
@[simp] theorem State.frpN_setFrpLen (j k : FrpIx) (m : Nat) : (s.setFrpLen j m).frpN k = s.frpN k := by
  simp only [State.frpN, State.setFrpLen_frps, vector_get_set]; split <;> (subst_vars; rfl)
@[simp] theorem State.frpLen_setFrpLen (j k : FrpIx) (m : Nat) :
    (s.setFrpLen j m).frpLen k = if j = k then m % 2 ^ 64 else s.frpLen k := by
  simp only [State.frpLen, State.setFrpLen_frps, vector_get_set]; split <;> rfl
@[simp] theorem State.frpScratch_setFrpLen (j k : FrpIx) (m : Nat) : (s.setFrpLen j m).frpScratch k = s.frpScratch k := by
  simp only [State.frpScratch, State.setFrpLen_frps, vector_get_set]; split <;> (subst_vars; rfl)
@[simp] theorem State.frpBase_setFrpN (j k : FrpIx) (m : Nat) : (s.setFrpN j m).frpBase k = s.frpBase k := by
  simp only [State.frpBase, State.setFrpN_frps, vector_get_set]; split <;> (subst_vars; rfl)
@[simp] theorem State.frpDepth_setFrpN (j k : FrpIx) (m : Nat) : (s.setFrpN j m).frpDepth k = s.frpDepth k := by
  simp only [State.frpDepth, State.setFrpN_frps, vector_get_set]; split <;> (subst_vars; rfl)
@[simp] theorem State.frpN_setFrpN (j k : FrpIx) (m : Nat) :
    (s.setFrpN j m).frpN k = if j = k then m % 2 ^ 64 else s.frpN k := by
  simp only [State.frpN, State.setFrpN_frps, vector_get_set]; split <;> rfl
@[simp] theorem State.frpLen_setFrpN (j k : FrpIx) (m : Nat) : (s.setFrpN j m).frpLen k = s.frpLen k := by
  simp only [State.frpLen, State.setFrpN_frps, vector_get_set]; split <;> (subst_vars; rfl)
@[simp] theorem State.frpScratch_setFrpN (j k : FrpIx) (m : Nat) : (s.setFrpN j m).frpScratch k = s.frpScratch k := by
  simp only [State.frpScratch, State.setFrpN_frps, vector_get_set]; split <;> (subst_vars; rfl)

end Sys2Proof.Machine
end

