-- ==== Sys2Proof/Laws/Memory.lean ====
section
/-! SUPPORT. The laws of limb memory: a read after a write, the frame of a write, the canonical form that every memory
operation keeps, and what numbers read as. -/

namespace Sys2Proof.Machine

set_option Elab.async false

/-! One byte. -/

theorem lookupCell_insertCell (a c : Nat) (b : Byte) (cells : List Host.Cell) :
    lookupCell c (insertCell a b cells) = if a = c then some b else lookupCell c cells := by
  induction cells with
  | nil => simp [insertCell, lookupCell]
  | cons x rest ih =>
    obtain ⟨d, y⟩ := x
    simp only [insertCell]
    split
    · simp [lookupCell]
    · split <;> simp only [lookupCell, ih] <;> grind

theorem Memory.byteAt_writeByte (m : Memory) (a c : Nat) (b : Byte) :
    (m.writeByte a b).byteAt c = if a = c then b else m.byteAt c := by
  simp only [Memory.byteAt, Memory.writeByte, lookupCell_insertCell]
  split <;> rfl

@[simp] theorem Memory.writeByte_epoch (m : Memory) (a : Nat) (b : Byte) : (m.writeByte a b).epoch = m.epoch := rfl

@[simp] theorem Memory.fill_epoch (m : Memory) (p k : Nat) (f : Nat → Byte) : (m.fill p k f).epoch = m.epoch := by
  induction k with
  | zero => rfl
  | succ k ih => simp [Memory.fill, ih]

/-- A fill writes its cells and no other. -/
theorem Memory.byteAt_fill (m : Memory) (p k : Nat) (f : Nat → Byte) (c : Nat) :
    (m.fill p k f).byteAt c = if p ≤ c ∧ c < p + k then f c else m.byteAt c := by
  induction k with
  | zero => simp only [Memory.fill]; grind
  | succ k ih => simp only [Memory.fill, Memory.byteAt_writeByte, ih]; grind

/-! The canonical form. -/

theorem cellsRiseFrom_mono {lo hi : Nat} (h : lo ≤ hi) {cells : List Host.Cell} (w : cellsRiseFrom hi cells = true) :
    cellsRiseFrom lo cells = true := by
  cases cells with
  | nil => rfl
  | cons x rest => simp only [cellsRiseFrom, Bool.and_eq_true, decide_eq_true_eq] at w ⊢; exact ⟨by omega, w.2⟩

theorem cellsRiseFrom_insertCell {lo a : Nat} {b : Byte} {cells : List Host.Cell} (h : lo ≤ a)
    (w : cellsRiseFrom lo cells = true) : cellsRiseFrom lo (insertCell a b cells) = true := by
  induction cells generalizing lo with
  | nil => simp [insertCell, cellsRiseFrom, h]
  | cons x rest ih =>
    obtain ⟨d, y⟩ := x
    simp only [cellsRiseFrom, Bool.and_eq_true, decide_eq_true_eq] at w
    simp only [insertCell]
    split
    · simp only [cellsRiseFrom, Bool.and_eq_true, decide_eq_true_eq]; exact ⟨h, by omega, w.2⟩
    · split
      · simp only [cellsRiseFrom, Bool.and_eq_true, decide_eq_true_eq]; subst_vars; exact ⟨h, w.2⟩
      · simp only [cellsRiseFrom, Bool.and_eq_true, decide_eq_true_eq]; exact ⟨w.1, ih (by omega) w.2⟩

theorem Memory.wf_writeByte {m : Memory} (h : m.wf = true) (a : Nat) (b : Byte) : (m.writeByte a b).wf = true :=
  cellsRiseFrom_insertCell (Nat.zero_le a) h

theorem Memory.wf_fill {m : Memory} (h : m.wf = true) (p k : Nat) (f : Nat → Byte) : (m.fill p k f).wf = true := by
  induction k with
  | zero => exact h
  | succ k ih => exact Memory.wf_writeByte ih _ _

theorem State.memWrite_wf {s : State} (h : s.mem.wf = true) (addr n v : Nat) : (s.memWrite addr n v).mem.wf = true :=
  Memory.wf_fill h _ _ _

theorem State.memFree_wf {s : State} (h : s.mem.wf = true) (addr n : Nat) : (s.memFree addr n).mem.wf = true :=
  Memory.wf_fill h _ _ _

theorem State.memWriteList_wf {s : State} (h : s.mem.wf = true) (addr stride : Nat) (vs : List Nat) :
    (s.memWriteList addr stride vs).mem.wf = true := by
  induction vs generalizing s addr with
  | nil => exact h
  | cons v vs ih => exact ih (State.memWrite_wf h _ _ _) _

theorem State.resetWith_wf (p : Params) (e : Nat) (inputs : List HostInput) :
    (State.resetWith p e inputs).mem.wf = true := rfl

theorem State.reset_wf : State.reset.mem.wf = true := rfl

/-! Cells below a bound. -/

theorem insertCell_below {bound a : Nat} {b : Byte} {cells : List Host.Cell} (h : a < bound)
    (w : cells.all (fun c => decide (c.1 < bound)) = true) :
    (insertCell a b cells).all (fun c => decide (c.1 < bound)) = true := by
  induction cells with
  | nil => simpa [insertCell] using h
  | cons x rest ih =>
    obtain ⟨d, y⟩ := x
    simp only [List.all_cons, Bool.and_eq_true, decide_eq_true_eq] at w
    simp only [insertCell]
    split
    · simp only [List.all_cons, Bool.and_eq_true, decide_eq_true_eq]; exact ⟨h, w⟩
    · split
      · simp only [List.all_cons, Bool.and_eq_true, decide_eq_true_eq]; exact ⟨h, w.2⟩
      · simp only [List.all_cons, Bool.and_eq_true, decide_eq_true_eq]; exact ⟨w.1, ih w.2⟩

theorem Memory.below_fill {m : Memory} {bound : Nat} (h : m.below bound = true) {p k : Nat} (hk : k = 0 ∨ p + k ≤ bound)
    (f : Nat → Byte) : (m.fill p k f).below bound = true := by
  induction k with
  | zero => exact h
  | succ k ih => exact insertCell_below (by omega) (ih (by omega))

/-- A number of limbs below `MEMLIMBS` is a number of cells below the bound of the invariant. -/
theorem State.cells_le {s : State} {addr n : Nat} (h : s.InMem addr n) :
    addr * s.limbBytes + n * s.limbBytes ≤ s.memLimbs * s.limbBytes := by
  rw [← Nat.add_mul]; exact Nat.mul_le_mul_right _ h

theorem State.memWrite_below {s : State} {bound : Nat} (h : s.mem.below bound = true) {addr n : Nat}
    (hb : n = 0 ∨ addr * s.limbBytes + n * s.limbBytes ≤ bound) (v : Nat) : (s.memWrite addr n v).mem.below bound = true :=
  Memory.below_fill h (by rcases hb with rfl | hb; exacts [.inl (Nat.zero_mul _), .inr hb]) _

theorem State.memFree_below {s : State} {bound : Nat} (h : s.mem.below bound = true) {addr n : Nat}
    (hb : n = 0 ∨ addr * s.limbBytes + n * s.limbBytes ≤ bound) : (s.memFree addr n).mem.below bound = true :=
  Memory.below_fill h (by rcases hb with rfl | hb; exacts [.inl (Nat.zero_mul _), .inr hb]) _

theorem State.memWriteList_below {s : State} {bound : Nat} (h : s.mem.below bound = true) {addr stride : Nat}
    {vs : List Nat} (hb : vs.length * stride = 0 ∨ (addr + vs.length * stride) * s.limbBytes ≤ bound) :
    (s.memWriteList addr stride vs).mem.below bound = true := by
  induction vs generalizing s addr with
  | nil => exact h
  | cons v vs ih =>
    simp only [List.length_cons, Nat.add_mul, Nat.one_mul] at hb
    refine ih (s := s.memWrite addr stride v) (State.memWrite_below h ?_ v) ?_
    · rcases Nat.eq_zero_or_pos stride with hz | hz
      · exact .inl hz
      · exact .inr (by rcases hb with hb | hb <;> [omega; nlinarith [Nat.zero_le (vs.length * stride * s.limbBytes)]])
    · rcases Nat.eq_zero_or_pos stride with hz | hz
      · exact .inl (by simp [hz])
      · refine .inr ?_
        have hl : (s.memWrite addr stride v).limbBytes = s.limbBytes := rfl
        rw [hl]
        rcases hb with hb | hb <;> [omega; (refine le_trans (le_of_eq ?_) hb; ring)]

/-! Numbers. -/

theorem Memory.readBytes_congr {m m' : Memory} {p k : Nat} (h : ∀ c, p ≤ c → c < p + k → m'.byteAt c = m.byteAt c) :
    m'.readBytes p k = m.readBytes p k := by
  induction k generalizing p with
  | zero => rfl
  | succ k ih =>
    simp only [Memory.readBytes]
    rw [h p (by omega) (by omega), ih (fun c h1 h2 => h c (by omega) (by omega))]

theorem Memory.readBytes_lt (m : Memory) (p k : Nat) : m.readBytes p k < 256 ^ k := by
  induction k generalizing p with
  | zero => simp [Memory.readBytes]
  | succ k ih =>
    have h1 := ih (p + 1)
    have h2 := (m.byteAt p).isLt
    simp only [Memory.readBytes, pow_succ]
    omega

theorem Memory.readBytes_add (m : Memory) (p k l : Nat) :
    m.readBytes p (k + l) = m.readBytes p k + 256 ^ k * m.readBytes (p + k) l := by
  induction k generalizing p with
  | zero => simp [Memory.readBytes]
  | succ k ih =>
    rw [show k + 1 + l = k + l + 1 by omega]
    simp only [Memory.readBytes, ih, pow_succ]
    rw [show p + 1 + k = p + (k + 1) by omega]
    ring

/-- The cells of a number, read back. -/
theorem Memory.readBytes_of_numByte {m : Memory} {v p q k : Nat} (hq : p ≤ q)
    (h : ∀ c, q ≤ c → c < q + k → m.byteAt c = numByte v p c) :
    m.readBytes q k = v / 256 ^ (q - p) % 256 ^ k := by
  induction k generalizing q with
  | zero => simp [Memory.readBytes, Nat.mod_one]
  | succ k ih =>
    simp only [Memory.readBytes]
    rw [h q (by omega) (by omega), ih (by omega) (fun c h1 h2 => h c (by omega) (by omega)), numByte, BitVec.toNat_ofNat,
      show q + 1 - p = q - p + 1 by omega, pow_succ 256 (q - p), ← Nat.div_div_eq_div_mul, pow_succ 256 k,
      Nat.mul_comm (256 ^ k) 256, Nat.mod_mul]

theorem Memory.readBytes_fill_numByte (m : Memory) (p k v : Nat) :
    (m.fill p k (numByte v p)).readBytes p k = v % 256 ^ k := by
  have := Memory.readBytes_of_numByte (m := m.fill p k (numByte v p)) (v := v) (Nat.le_refl p)
    (fun c h1 h2 => by rw [Memory.byteAt_fill, if_pos ⟨h1, h2⟩])
  simpa using this

/-! Limbs. -/

theorem LimbWidth.bytes_pos (w : LimbWidth) : 0 < w.bytes := by cases w <;> decide

theorem LimbWidth.radix_eq (w : LimbWidth) : w.radix = 256 ^ w.bytes := by cases w <;> rfl

theorem State.limbBytes_pos (s : State) : 0 < s.limbBytes := LimbWidth.bytes_pos _

theorem State.radix_eq (s : State) : s.radix = 256 ^ s.limbBytes := LimbWidth.radix_eq _

theorem State.radix_eq_width (s : State) : s.radix = 2 ^ s.width := rfl

theorem State.radix_pow (s : State) (n : Nat) : s.radix ^ n = 256 ^ (n * s.limbBytes) := by
  rw [State.radix_eq, ← pow_mul, Nat.mul_comm]

@[simp] theorem State.memWrite_width (s : State) (a n v : Nat) : (s.memWrite a n v).width = s.width := rfl
@[simp] theorem State.memWrite_limbBytes (s : State) (a n v : Nat) : (s.memWrite a n v).limbBytes = s.limbBytes := rfl
@[simp] theorem State.memWrite_radix (s : State) (a n v : Nat) : (s.memWrite a n v).radix = s.radix := rfl
@[simp] theorem State.memFree_limbBytes (s : State) (a n : Nat) : (s.memFree a n).limbBytes = s.limbBytes := rfl

/-- A limb read depends on the parameters and on memory alone. -/
theorem State.memRead_congr {s t : State} (hp : t.params = s.params) (hm : t.mem = s.mem) (a n : Nat) :
    t.memRead a n = s.memRead a n := by simp only [State.memRead, State.limbBytes, hp, hm]

theorem State.limb_congr {s t : State} (hp : t.params = s.params) (hm : t.mem = s.mem) (a : Nat) :
    t.limb a = s.limb a := by simp only [State.limb, State.limbBytes, hp, hm]

/-- A read depends on the bytes of its limbs. -/
theorem State.memRead_congr_bytes {s t : State} (hp : t.params = s.params) {a n : Nat}
    (h : ∀ c, a * s.limbBytes ≤ c → c < (a + n) * s.limbBytes → t.mem.byteAt c = s.mem.byteAt c) :
    t.memRead a n = s.memRead a n := by
  have hl : t.limbBytes = s.limbBytes := by simp only [State.limbBytes, hp]
  simp only [State.memRead, hl]
  exact Memory.readBytes_congr fun c h1 h2 => h c h1 (by rw [Nat.add_mul]; exact h2)

theorem State.memRead_one (s : State) (a : Nat) : s.memRead a 1 = s.limb a := by
  simp only [State.memRead, State.limb, Nat.one_mul]

theorem State.memRead_zero (s : State) (a : Nat) : s.memRead a 0 = 0 := by
  simp [State.memRead, Memory.readBytes]

theorem State.memRead_add (s : State) (a k l : Nat) :
    s.memRead a (k + l) = s.memRead a k + s.radix ^ k * s.memRead (a + k) l := by
  simp only [State.memRead, Nat.add_mul, State.radix_pow, Memory.readBytes_add]

theorem State.memRead_lt (s : State) (a n : Nat) : s.memRead a n < s.radix ^ n := by
  rw [State.radix_pow]; exact Memory.readBytes_lt _ _ _

theorem State.limb_lt (s : State) (a : Nat) : s.limb a < s.radix := by
  rw [State.radix_eq]; exact Memory.readBytes_lt _ _ _

/-- The frame of a write, by bytes. -/
theorem State.byteAt_memWrite (s : State) (addr n v c : Nat) :
    (s.memWrite addr n v).mem.byteAt c
      = if addr * s.limbBytes ≤ c ∧ c < addr * s.limbBytes + n * s.limbBytes then numByte v (addr * s.limbBytes) c
        else s.mem.byteAt c :=
  Memory.byteAt_fill _ _ _ _ _

theorem State.byteAt_memFree (s : State) (addr n c : Nat) :
    (s.memFree addr n).mem.byteAt c
      = if addr * s.limbBytes ≤ c ∧ c < addr * s.limbBytes + n * s.limbBytes then Config.freeByte s.epoch c
        else s.mem.byteAt c :=
  Memory.byteAt_fill _ _ _ _ _

/-- Regions of limbs that lie apart are regions of cells that lie apart. -/
theorem cells_apart {b n c m l : Nat} (h : b + n ≤ c ∨ c + m ≤ b) : b * l + n * l ≤ c * l ∨ c * l + m * l ≤ b * l := by
  rcases h with h | h
  · exact .inl (by rw [← Nat.add_mul]; exact Nat.mul_le_mul_right _ h)
  · exact .inr (by rw [← Nat.add_mul]; exact Nat.mul_le_mul_right _ h)

/-- What was written reads back. -/
theorem State.memRead_memWrite (s : State) (addr n v : Nat) : (s.memWrite addr n v).memRead addr n = v % s.radix ^ n := by
  rw [State.radix_pow]; exact Memory.readBytes_fill_numByte _ _ _ _

/-- A region apart from the one written reads as before. -/
theorem State.memRead_memWrite_of_apart (s : State) {addr n v b k : Nat} (h : addr + n ≤ b ∨ b + k ≤ addr) :
    (s.memWrite addr n v).memRead b k = s.memRead b k := by
  refine State.memRead_congr_bytes (s := s) (t := s.memWrite addr n v) rfl fun c h1 h2 => ?_
  rw [State.byteAt_memWrite, if_neg]
  rw [Nat.add_mul] at h2
  rcases cells_apart (l := s.limbBytes) h with h | h <;> omega

theorem State.memRead_memFree_of_apart (s : State) {addr n b k : Nat} (h : addr + n ≤ b ∨ b + k ≤ addr) :
    (s.memFree addr n).memRead b k = s.memRead b k := by
  refine State.memRead_congr_bytes (s := s) (t := s.memFree addr n) rfl fun c h1 h2 => ?_
  rw [State.byteAt_memFree, if_neg]
  rw [Nat.add_mul] at h2
  rcases cells_apart (l := s.limbBytes) h with h | h <;> omega

/-- A region inside the one written reads as those limbs of the number. -/
theorem State.memRead_memWrite_inside (s : State) {addr n v j k : Nat} (h : j + k ≤ n) :
    (s.memWrite addr n v).memRead (addr + j) k = v / s.radix ^ j % s.radix ^ k := by
  have hb : (j + k) * s.limbBytes ≤ n * s.limbBytes := Nat.mul_le_mul_right _ h
  rw [Nat.add_mul] at hb
  rw [State.radix_pow, State.radix_pow]
  have := Memory.readBytes_of_numByte (m := (s.memWrite addr n v).mem) (v := v) (p := addr * s.limbBytes)
    (q := (addr + j) * s.limbBytes) (k := k * s.limbBytes) (Nat.mul_le_mul_right _ (Nat.le_add_right _ _))
    (fun c h1 h2 => by
      rw [Nat.add_mul] at h1 h2
      rw [State.byteAt_memWrite, if_pos ⟨by omega, by omega⟩])
  simpa [State.memRead, Nat.add_mul, Nat.add_sub_cancel_left] using this

/-! Lists of numbers. -/

theorem State.memWriteList_limbBytes (s : State) (a st : Nat) (vs : List Nat) :
    (s.memWriteList a st vs).limbBytes = s.limbBytes := by simp only [State.limbBytes, State.memWriteList_params]

/-- The frame of a list write, by bytes. -/
theorem State.byteAt_memWriteList_of_outside (s : State) (addr stride : Nat) (vs : List Nat) {c : Nat}
    (h : c < addr * s.limbBytes ∨ (addr + vs.length * stride) * s.limbBytes ≤ c) :
    (s.memWriteList addr stride vs).mem.byteAt c = s.mem.byteAt c := by
  induction vs generalizing s addr with
  | nil => rfl
  | cons v vs ih =>
    have h1 : (addr + stride) * s.limbBytes ≤ (addr + (vs.length + 1) * stride) * s.limbBytes :=
      Nat.mul_le_mul_right _ (by nlinarith)
    have h2 : (addr + stride + vs.length * stride) * s.limbBytes = (addr + (vs.length + 1) * stride) * s.limbBytes := by ring
    simp only [List.length_cons] at h
    rw [State.memWriteList, ih, State.byteAt_memWrite, if_neg]
    · rw [Nat.add_mul] at h1; omega
    · simp only [State.memWrite_limbBytes]
      rcases h with h | h
      · exact .inl (by rw [Nat.add_mul]; omega)
      · exact .inr (by rw [h2]; exact h)

/-- A region apart from the ones written reads as before. -/
theorem State.memRead_memWriteList_of_apart (s : State) {addr stride : Nat} {vs : List Nat} {b k : Nat}
    (h : addr + vs.length * stride ≤ b ∨ b + k ≤ addr) :
    (s.memWriteList addr stride vs).memRead b k = s.memRead b k := by
  refine State.memRead_congr_bytes (by simp) fun c h1 h2 => State.byteAt_memWriteList_of_outside s _ _ _ ?_
  rcases h with h | h
  · exact .inr (le_trans (Nat.mul_le_mul_right _ h) h1)
  · exact .inl (lt_of_lt_of_le h2 (Nat.mul_le_mul_right _ h))

/-- Every number of the list reads back. -/
theorem State.memRead_memWriteList (s : State) (addr stride : Nat) (vs : List Nat) (i : Nat) (h : i < vs.length) :
    (s.memWriteList addr stride vs).memRead (addr + i * stride) stride = vs[i] % s.radix ^ stride := by
  induction vs generalizing s addr i with
  | nil => exact absurd h (Nat.not_lt_zero _)
  | cons v vs ih =>
    rw [State.memWriteList]
    cases i with
    | zero =>
      rw [Nat.zero_mul, Nat.add_zero, State.memRead_memWriteList_of_apart _ (.inr (Nat.le_refl _)), State.memRead_memWrite]
      rfl
    | succ i =>
      have := ih (s.memWrite addr stride v) (addr + stride) i (by simpa using h)
      rw [show addr + (i + 1) * stride = addr + stride + i * stride by ring]
      simpa using this

end Sys2Proof.Machine
end

