-- ==== Sys2Proof/Laws/Commands.lean ====
section
/-! SUPPORT. What a command can do, said once: the outcome of `command`, the checks, and for the effect of every command the
conditions under which it is reached and the state it gives, so that no proof unfolds an effect. -/

namespace Sys2Proof.Machine

set_option Elab.async false

/-! Outcome of a command. -/

/-- A command run ends in a next state: its effect completed, or the state before completed with an error. -/
theorem command_next {s t : State} {r : Except ErrorKind State} :
    command s r = .next t ↔ (∃ u, r = .ok u ∧ t = u.complete none) ∨ (∃ k, r = .error k ∧ t = s.complete (some k)) := by
  cases r <;> simp [command, eq_comm]

@[simp] theorem command_ok (s u : State) : command s (.ok u) = .next (u.complete none) := rfl

@[simp] theorem command_error (s : State) (k : ErrorKind) : command s (.error k) = .next (s.complete (some k)) := rfl

theorem command_total (s : State) (r : Except ErrorKind State) : ∃ t, command s r = .next t := by
  cases r <;> simp

/-! Checks. -/

section
variable {α : Type} {p : Prop} [Decidable p] {k e : ErrorKind}

@[simp] theorem require_ok {u : Unit} : require p k = .ok u ↔ p := by
  unfold require; split <;> simp_all

@[simp] theorem require_error : require p k = .error e ↔ ¬p ∧ k = e := by
  unfold require; split <;> simp_all

@[simp] theorem require_bind_ok {f : Unit → Except ErrorKind α} {t : α} :
    (require p k >>= f) = .ok t ↔ p ∧ f () = .ok t := by
  unfold require; split <;> simp_all [bind, Except.bind]

@[simp] theorem require_bind_error {f : Unit → Except ErrorKind α} :
    (require p k >>= f) = .error e ↔ (¬p ∧ k = e) ∨ (p ∧ f () = .error e) := by
  unfold require; split <;> simp_all [bind, Except.bind]

@[simp] theorem map_require_ok {f : Unit → α} {t : α} : (f <$> require p k) = .ok t ↔ p ∧ t = f () := by
  unfold require; split <;> simp_all [Functor.map, Except.map, eq_comm]

@[simp] theorem map_require_error {f : Unit → α} : (f <$> require p k) = .error e ↔ ¬p ∧ k = e := by
  unfold require; split <;> simp_all [Functor.map, Except.map]

@[simp] theorem pure_eq_ok {a t : α} : (pure a : Except ErrorKind α) = .ok t ↔ t = a := by
  simp [pure, Except.pure, eq_comm]

@[simp] theorem pure_ne_error {a : α} : (pure a : Except ErrorKind α) ≠ .error e := by
  simp [pure, Except.pure]

end

/-- The checks of 42_fermat_ring.md R154 for one slot. -/
theorem State.checkFrp_ok {s : State} {k : FrpIx} {legal fits : Prop} [Decidable legal] [Decidable fits] {u : Unit} :
    s.checkFrp k legal fits = .ok u ↔ s.FrpReady k ∧ legal ∧ fits := by
  simp only [State.checkFrp, require_bind_ok, require_ok, State.FrpReady]; tauto

/-- The checks of 42_fermat_ring.md R154 for three slots. -/
theorem State.checkFrps_ok {s : State} {d a b : FrpIx} {legal fits : Prop} [Decidable legal] [Decidable fits] {u : Unit} :
    s.checkFrps d a b legal fits = .ok u ↔ s.FrpsReady d a b ∧ legal ∧ fits := by
  simp only [State.checkFrps, require_bind_ok, require_ok, State.FrpsReady, State.FrpReady, State.SameGeometry]
  constructor
  · rintro ⟨⟨h1, h2, h3⟩, ⟨h4, h5⟩, h6, ⟨h7, h8, h9⟩, h10, h11⟩
    exact ⟨⟨⟨h1, h7, h11⟩, ⟨h2, h8, h4.2 ▸ h11⟩, ⟨h3, h9, h5.2 ▸ h11⟩, h4, h5⟩, h6, h10⟩
  · rintro ⟨⟨⟨h1, h7, h11⟩, ⟨h2, h8, _⟩, ⟨h3, h9, _⟩, h4, h5⟩, h6, h10⟩
    exact ⟨⟨h1, h2, h3⟩, ⟨h4, h5⟩, h6, ⟨h7, h8, h9⟩, h10, h11⟩

/-- An `Except` bind answers `ok` when both parts do. -/
theorem bind_ok_iff {α β : Type} {x : Except ErrorKind α} {f : α → Except ErrorKind β} {b : β} :
    (x >>= f) = .ok b ↔ ∃ a, x = .ok a ∧ f a = .ok b := by
  cases x <;> simp [bind, Except.bind]

/-- A mapped `Except` answers `ok` when its argument does. -/
theorem map_ok_iff {α β : Type} {x : Except ErrorKind α} {f : α → β} {b : β} :
    (f <$> x) = .ok b ↔ ∃ a, x = .ok a ∧ b = f a := by
  cases x <;> simp [Functor.map, Except.map, eq_comm]

/-- An `Except` bind answers an error when the first part does, or the second after it. -/
theorem bind_error_iff {α β : Type} {x : Except ErrorKind α} {f : α → Except ErrorKind β} {e : ErrorKind} :
    (x >>= f) = .error e ↔ x = .error e ∨ ∃ a, x = .ok a ∧ f a = .error e := by
  cases x <;> simp [bind, Except.bind]

/-! The effects of the limb commands. -/

section
variable {s t : State}

theorem laddBody_ok {sd sa sb : SpanIx} :
    laddBody sd sa sb s = .ok t ↔ (Instr.ladd sd sa sb).ready s = true
      ∧ t = (s.writeSpan sd (max (s.spanLen sa) (s.spanLen sb))
          ((s.spanNum sa + s.spanNum sb) % s.radix ^ max (s.spanLen sa) (s.spanLen sb))).setFlagC
          (carryOut s.radix (max (s.spanLen sa) (s.spanLen sb)) (s.spanNum sa + s.spanNum sb)) := by
  simp [laddBody, addSubCheck, Instr.ready, bind_ok_iff, and_assoc]

theorem lsubBody_ok {sd sa sb : SpanIx} :
    lsubBody sd sa sb s = .ok t ↔ (Instr.lsub sd sa sb).ready s = true
      ∧ t = (s.writeSpan sd (max (s.spanLen sa) (s.spanLen sb))
          (natMod ((s.spanNum sa : Int) - (s.spanNum sb : Int)) (s.radix ^ max (s.spanLen sa) (s.spanLen sb)))).setFlagC
          (borrowOut (s.spanNum sa) (s.spanNum sb)) := by
  simp [lsubBody, addSubCheck, Instr.ready, bind_ok_iff, and_assoc]

theorem lmulBody_ok {sd sa sb : SpanIx} :
    lmulBody sd sa sb s = .ok t ↔ (Instr.lmul sd sa sb).ready s = true
      ∧ t = s.writeSpan sd (s.spanLen sa + s.spanLen sb) (s.spanNum sa * s.spanNum sb) := by
  simp [lmulBody, Instr.ready, and_assoc]

theorem ldivremBody_ok {sq sr sa sv : SpanIx} :
    ldivremBody sq sr sa sv s = .ok t ↔ (Instr.ldivrem sq sr sa sv).ready s = true
      ∧ t = s.writeDivision sq sr (s.spanLen sa) (s.spanLen sv) (s.spanNum sa / s.spanNum sv)
          (s.spanNum sa % s.spanNum sv) := by
  simp [ldivremBody, Instr.ready, and_assoc]

theorem lrecipBody_ok {xd xs : Reg} :
    lrecipBody xd xs s = .ok t ↔ (Instr.lrecip xd xs).ready s = true
      ∧ t = s.setRegNat xd (recip s.width (s.regLimb xs)) := by
  simp [lrecipBody, Instr.ready]

theorem ldiv1pBody_ok {sq sa : SpanIx} {xv xi xr : Reg} :
    ldiv1pBody sq sa xv xi xr s = .ok t ↔ (Instr.ldiv1p sq sa xv xi xr).ready s = true
      ∧ t = if s.regLimb xi = recip s.width (s.regLimb xv) then
            (s.writeSpan sq (s.spanLen sa) (s.spanNum sa / s.regLimb xv)).setRegNat xr (s.spanNum sa % s.regLimb xv)
          else ((s.memFree (s.spanBase sq) (s.spanLen sa)).setSpanLen sq (s.spanLen sa)).setReg xr
            (Config.freeWord s.epoch) := by
  by_cases h : s.regLimb xi = recip s.width (s.regLimb xv) <;> simp [ldiv1pBody, Instr.ready, h, and_assoc]

theorem lcopyBody_ok {sd sa : SpanIx} :
    lcopyBody sd sa s = .ok t ↔ (Instr.lcopy sd sa).ready s = true ∧ t = s.writeSpan sd (s.spanLen sa) (s.spanNum sa) := by
  simp [lcopyBody, Instr.ready, and_assoc]

theorem lclrBody_ok {sd : SpanIx} :
    lclrBody sd s = .ok t ↔ (Instr.lclr sd).ready s = true ∧ t = s.memWrite (s.spanBase sd) (s.spanLen sd) 0 := by
  simp [lclrBody, Instr.ready]

theorem lcmpBody_ok {xd : Reg} {sa sb : SpanIx} :
    lcmpBody xd sa sb s = .ok t ↔ (Instr.lcmp xd sa sb).ready s = true
      ∧ t = s.setReg xd (compareWord (s.spanNum sa) (s.spanNum sb)) := by
  simp [lcmpBody, Instr.ready, and_assoc]

/-! The effects of the scans, packers and unpackers. -/

theorem pbitsBody_ok {xd xs : Reg} {pa : CipIx} :
    pbitsBody xd xs pa s = .ok t ↔ (Instr.pbits xd xs pa).ready s = true
      ∧ t = (s.setRegNat xd (listMax ((s.poly pa).map (fun v => bitlen v.natAbs)))).setRegNat xs
          (signIndicator (s.poly pa)) := by
  simp [pbitsBody, scanCheck, Instr.ready, bind_ok_iff, and_assoc]

theorem plimbsBody_ok {xd xs : Reg} {pa : CipIx} :
    plimbsBody xd xs pa s = .ok t ↔ (Instr.plimbs xd xs pa).ready s = true
      ∧ t = (s.setRegNat xd (listMax ((s.poly pa).map (fun v => nlimbs s.width v.natAbs)))).setRegNat xs
          (signIndicator (s.poly pa)) := by
  simp [plimbsBody, scanCheck, Instr.ready, bind_ok_iff, and_assoc]

theorem packBody_ok {p : Packing} {fd : FrpIx} {pa : CipIx} {xb xw : Reg} {sgn neg : Bool} :
    packBody p fd pa xb xw sgn neg s = .ok t ↔ s.PackReady p fd pa (s.regNat xb) (s.regNat xw)
      ∧ t = (if fieldsHold sgn (fieldWidth p s.width (s.regNat xw)) (negateIf neg (s.poly pa)) = true then
            s.writeCoeffs fd (packedCoeffs (negateIf neg (s.poly pa)) (s.regNat xb) (fieldWidth p s.width (s.regNat xw))
              (ceilDiv (s.cipLen pa) (s.regNat xb)) (s.radix ^ (s.frpN fd + 1)))
          else s.memFree (s.frpBase fd) (ceilDiv (s.cipLen pa) (s.regNat xb) * (s.frpN fd + 1))).setFrpLen fd
            (ceilDiv (s.cipLen pa) (s.regNat xb)) := by
  simp only [packBody, packCheck, bind_ok_iff, require_ok, exists_const, State.PackReady, State.regNat]
  by_cases h : fieldsHold sgn (fieldWidth p s.width (s.reg xw).toNat) (negateIf neg (s.poly pa)) = true <;>
    simp [h, and_assoc]

theorem unpackBody_ok {i : Instr} {p : Packing} {pd : CipIx} {fa : FrpIx} {xb xw xc : Reg} {sgn neg : Bool} :
    unpackBody i p pd fa xb xw xc sgn neg s = .ok t
      ↔ s.UnpackReady i p pd fa (s.regNat xb) (s.regNat xw) (s.regNat xc) sgn neg
      ∧ t = s.writePoly pd (s.unpacked p fa (s.regNat xb) (s.regNat xw) (s.regNat xc) sgn neg) := by
  simp only [unpackBody, unpackCheck, bind_ok_iff, require_ok, exists_const, State.UnpackReady, State.UnpackLegal,
    State.PolyFits, State.regNat, pure_eq_ok]
  constructor
  · rintro ⟨⟨h1, h2, h3, h4, h5, h6, h7, h8⟩, h9, h10, h11, h12⟩
    exact ⟨⟨⟨h1, h2, h3.1, h3.2, h4, h5, h6, h7, h8⟩, ⟨h9, h10⟩, h11⟩, h12⟩
  · rintro ⟨⟨⟨h1, h2, h3, h3', h4, h5, h6, h7, h8⟩, ⟨h9, h10⟩, h11⟩, h12⟩
    exact ⟨⟨h1, h2, ⟨h3, h3'⟩, h4, h5, h6, h7, h8⟩, h9, h10, h11, h12⟩

theorem bunpackBody_ok {pd : CipIx} {fa : FrpIx} {xb xw xc : Reg} {sgn neg : Bool} :
    bunpackBody pd fa xb xw xc sgn neg s = .ok t ↔ (Instr.bunpack pd fa xb xw xc sgn neg).ready s = true
      ∧ t = if s.memRead (s.cipBase pd) (s.preZeroed pd fa (s.regNat xb) (s.regNat xc) * (s.cipLimbs pd + 1)) = 0 then
            s.writePoly pd (s.unpacked .bits fa (s.regNat xb) (s.regNat xw) (s.regNat xc) sgn neg)
          else s.freePoly pd (s.preZeroed pd fa (s.regNat xb) (s.regNat xc)) := by
  simp only [Instr.ready, decide_eq_true_eq, bunpackBody, bind_ok_iff, unpackBody_ok, ← State.regNat.eq_def]
  constructor
  · rintro ⟨u, ⟨h, rfl⟩, ht⟩
    refine ⟨h, ?_⟩
    split at ht <;> simp_all only [pure_eq_ok, if_true, if_false]
  · rintro ⟨h, rfl⟩
    refine ⟨_, ⟨h, rfl⟩, ?_⟩
    split <;> rfl

/-! The effects of the Fermat-ring commands. -/

theorem fnormBody_ok {fd : FrpIx} :
    fnormBody fd s = .ok t ↔ (Instr.fnorm fd).ready s = true ∧ t = s.writeCoeffs fd (s.vals fd) := by
  simp only [Instr.ready, decide_eq_true_eq]
  simp only [fnormBody, bind_ok_iff, exists_const, State.checkFrp_ok, pure_eq_ok, and_true]

theorem rawBody_ok {fd fa fb : FrpIx} {combine : Int → Int → Int} :
    rawBody fd fa fb combine s = .ok t ↔ (s.FrpsReady fd fa fb ∧ s.frpLen fa = s.frpLen fb)
      ∧ t = (s.writeCoeffs fd (List.zipWith (fun a b => natMod (combine (a : Nat) (b : Nat)) (s.radix ^ (s.frpN fd + 1)))
          (s.raws fa) (s.raws fb))).setFrpLen fd (s.frpLen fa) := by
  simp only [rawBody, bind_ok_iff, exists_const, State.checkFrps_ok, pure_eq_ok, and_true]

theorem pointwiseBody_ok {fd fa fb : FrpIx} {i : Instr} :
    pointwiseBody fd fa fb i s = .ok t
      ↔ (s.FrpsReady fd fa fb ∧ s.frpLen fa = s.frpLen fb ∧ s.ScratchFits i) ∧ t = s.writePointwise fd fa fb := by
  simp only [pointwiseBody, bind_ok_iff, exists_const, require_ok, State.checkFrps_ok, pure_eq_ok, and_true]
  constructor
  · rintro ⟨h, h', rfl⟩; exact ⟨⟨h.1, h.2, h'⟩, rfl⟩
  · rintro ⟨⟨h, h1, h'⟩, rfl⟩; exact ⟨⟨h, h1⟩, h', rfl⟩

theorem frescaleBody_ok {fd : FrpIx} :
    frescaleBody fd s = .ok t ↔ (Instr.frescale fd).ready s = true
      ∧ t = s.writeCoeffs fd ((s.vals fd).map
          (fun v => s.timesRho fd v (rescaleExp s.width (s.frpN fd) (s.frpDepth fd)))) := by
  simp only [Instr.ready, decide_eq_true_eq]
  simp only [frescaleBody, bind_ok_iff, exists_const, State.checkFrp_ok, pure_eq_ok, and_true]

theorem fsetlenBody_ok {fd : FrpIx} {xm : Reg} :
    fsetlenBody fd xm s = .ok t ↔ (Instr.fsetlen fd xm).ready s = true
      ∧ t = (s.memWrite (s.caddr fd (s.frpLen fd)) ((s.regNat xm - s.frpLen fd) * (s.frpN fd + 1)) 0).setFrpLen fd
          (s.regNat xm) := by
  simp only [Instr.ready, decide_eq_true_eq]
  simp only [fsetlenBody, bind_ok_iff, exists_const, State.checkFrp_ok, State.regNat, pure_eq_ok, true_and]

theorem flowernBody_ok {fd : FrpIx} {xn : Reg} :
    flowernBody fd xn s = .ok t ↔ (Instr.flowern fd xn).ready s = true
      ∧ t = (s.setFrpN fd (s.regNat xn)).setFrpLen fd 0 := by
  simp only [Instr.ready, decide_eq_true_eq]
  simp only [flowernBody, bind_ok_iff, exists_const, State.checkFrp_ok, State.regNat, pure_eq_ok,
    require_ok, and_true]
  constructor
  · rintro ⟨h, h', rfl⟩; exact ⟨⟨h.1, h.2, h'⟩, rfl⟩
  · rintro ⟨⟨h, h1, h'⟩, rfl⟩; exact ⟨⟨h, h1⟩, h', rfl⟩

theorem fmulrhoBody_ok {fd : FrpIx} {xi xe : Reg} :
    fmulrhoBody fd xi xe s = .ok t ↔ (Instr.fmulrho fd xi xe).ready s = true
      ∧ t = s.writeCoeff fd (s.regNat xi) (s.timesRho fd (s.val fd (s.regNat xi)) (s.regNat xe)) := by
  simp only [Instr.ready, decide_eq_true_eq]
  simp only [fmulrhoBody, bind_ok_iff, exists_const, State.checkFrp_ok, State.regNat, pure_eq_ok, and_true]

theorem fbflyBody_ok {fd : FrpIx} {xi xj xe : Reg} :
    fbflyBody fd xi xj xe s = .ok t ↔ (Instr.fbfly fd xi xj xe).ready s = true
      ∧ t = s.writePair fd (s.regNat xi) (s.regNat xj)
          ((s.val fd (s.regNat xi) + s.val fd (s.regNat xj)) % s.modulus fd)
          (s.timesRho fd (s.subMod fd (s.val fd (s.regNat xi)) (s.val fd (s.regNat xj))) (s.regNat xe)) := by
  simp only [Instr.ready, decide_eq_true_eq]
  simp only [fbflyBody, bind_ok_iff, exists_const, State.checkFrp_ok, State.regNat, pure_eq_ok, and_true]

theorem ibflyBody_ok {fd : FrpIx} {xi xj xe : Reg} :
    ibflyBody fd xi xj xe s = .ok t ↔ (Instr.ibfly fd xi xj xe).ready s = true
      ∧ t = s.writePair fd (s.regNat xi) (s.regNat xj)
          ((s.val fd (s.regNat xi) + s.timesRho fd (s.val fd (s.regNat xj))
            (negExp s.width (s.frpN fd) (s.regNat xe))) % s.modulus fd)
          (s.subMod fd (s.val fd (s.regNat xi)) (s.timesRho fd (s.val fd (s.regNat xj))
            (negExp s.width (s.frpN fd) (s.regNat xe)))) := by
  simp only [Instr.ready, decide_eq_true_eq]
  simp only [ibflyBody, bind_ok_iff, exists_const, State.checkFrp_ok, State.regNat, pure_eq_ok, and_true]

/-! The effects of the transforms and convolutions. -/

theorem fftBody_ok {fd : FrpIx} {xm : Reg} :
    fftBody fd xm s = .ok t ↔ (Instr.fft fd xm).ready s = true
      ∧ t = s.writeTransform fd ((List.range (s.regNat xm)).map
          (dft s.width (s.frpN fd) (s.frpDepth fd) (s.vals fd))) := by
  simp only [Instr.ready, decide_eq_true_eq]
  simp only [fftBody, bind_ok_iff, exists_const, State.checkFrp_ok, State.regNat, pure_eq_ok, require_ok,
    true_and]
  constructor
  · rintro ⟨h, h1, h2, h3, rfl⟩; exact ⟨⟨h.1, h.2, h1, h2, h3⟩, rfl⟩
  · rintro ⟨⟨h, h0, h1, h2, h3⟩, rfl⟩; exact ⟨⟨h, h0⟩, h1, h2, h3, rfl⟩

theorem ifftBody_ok {fd : FrpIx} :
    ifftBody fd s = .ok t ↔ (Instr.ifft fd).ready s = true
      ∧ t = (s.writeCoeffs fd (s.inverseOutputs fd)).freeFrom fd (s.frpLen fd) := by
  simp only [Instr.ready, decide_eq_true_eq]
  simp only [ifftBody, bind_ok_iff, exists_const, State.checkFrp_ok, require_ok, and_true, pure_eq_ok]
  constructor
  · rintro ⟨h, h1, h2, h3, rfl⟩; exact ⟨⟨h, h1, h2, h3⟩, rfl⟩
  · rintro ⟨⟨h, h1, h2, h3⟩, rfl⟩; exact ⟨h, h1, h2, h3, rfl⟩

theorem convBody_ok {fd fa fb : FrpIx} {xm : Reg} {extra : Nat} {i : Instr}
    {coeff : Nat → Nat → List Nat → List Nat → Nat → Nat} :
    convBody fd fa fb xm extra i coeff s = .ok t ↔ s.ConvReady fd fa fb (s.regNat xm) extra i
      ∧ t = ((s.freeBlock fa).freeBlock fb).writeTransform fd ((List.range (s.regNat xm)).map
          (coeff (s.modulus fd) (s.frpSize fd) (s.vals fa) (s.vals fb))) := by
  simp only [convBody, bind_ok_iff, exists_const, State.checkFrps_ok, State.ConvReady, State.regNat, pure_eq_ok, require_ok, true_and]
  constructor
  · rintro ⟨h, h1, h2, h3, rfl⟩; exact ⟨⟨h.1, h.2, h1, h2.1, h2.2.1, h2.2.2, h3⟩, rfl⟩
  · rintro ⟨⟨h, h0, h1, h2, h2', h2'', h3⟩, rfl⟩; exact ⟨⟨h, h0⟩, h1, ⟨h2, h2', h2''⟩, h3, rfl⟩

/-! The effect of the products. -/

theorem productBody_ok {pd pa pb : CipIx} {i : Instr} {product : List Int → List Int → List Int} :
    productBody pd pa pb i product s = .ok t
      ↔ s.ProductReady pd pa pb i (product (s.poly pa) (s.poly pb))
      ∧ t = s.writePoly pd (trim (product (s.poly pa) (s.poly pb))) := by
  simp only [productBody, bind_ok_iff, exists_const, State.ProductReady, State.ProductLegal, State.PolyFits, pure_eq_ok, require_ok]
  constructor
  · rintro ⟨h, h1, h2, h3, h4, rfl⟩
    exact ⟨⟨⟨h.1, h.2.1, h.2.2, h1.1, h1.2.1, h1.2.2⟩, ⟨h2, h3⟩, h4⟩, rfl⟩
  · rintro ⟨⟨⟨h, h', h'', h1, h1', h1''⟩, ⟨h2, h3⟩, h4⟩, rfl⟩
    exact ⟨⟨h, h', h''⟩, ⟨h1, h1', h1''⟩, h2, h3, h4, rfl⟩

end

/-! The control register map and its two commands. -/

/-- The map names exactly the listed numbers, and the numbers it maps to read-only registers are the read-only ones. -/
theorem csr_map (c : CsrNum) : (Csr.ofNumber c).isSome = csrListed c
    ∧ (csrReadOnly c = true ↔ ∃ x ∈ [Csr.lauid, .pw, .pmem, .pscr, .err, .cseq], Csr.ofNumber c = some x) := by
  have key : ∀ a : Fin 13, ∀ b : Fin 64, (Csr.ofNumber (BitVec.ofNat 12 (64 * a + b))).isSome = csrListed (BitVec.ofNat 12 (64 * a + b))
      ∧ (csrReadOnly (BitVec.ofNat 12 (64 * a + b)) = true
        ↔ ∃ x ∈ [Csr.lauid, .pw, .pmem, .pscr, .err, .cseq], Csr.ofNumber (BitVec.ofNat 12 (64 * a + b)) = some x) := by
    decide +kernel
  by_cases hc : c.toNat < 832
  · have h := key ⟨c.toNat / 64, by omega⟩ ⟨c.toNat % 64, by omega⟩
    simpa only [Nat.div_add_mod, BitVec.ofNat_toNat, BitVec.setWidth_eq] using h
  · have h1 : Csr.ofNumber c = none := by
      unfold Csr.ofNumber
      iterate 9 rw [if_neg (by omega)]
      rw [if_neg (by omega), if_neg (by omega), if_neg (by omega)]
    have h2 : csrListed c = false := by
      simp only [csrListed, Bool.or_eq_false_iff, Bool.and_eq_false_iff, decide_eq_false_iff_not]; omega
    have h3 : csrReadOnly c = false := by
      simp only [csrReadOnly, Bool.or_eq_false_iff, decide_eq_false_iff_not]; omega
    simp [h1, h2, h3]

theorem State.writeCsr_eq_none (s : State) (x : Csr) (v : Word) :
    s.writeCsr x v = none ↔ x ∈ [Csr.lauid, .pw, .pmem, .pscr, .err, .cseq] := by
  cases x <;> simp [State.writeCsr]

theorem Csr.ofNumber_isSome (c : CsrNum) : (Csr.ofNumber c).isSome = csrListed c := (csr_map c).1

/-- Exactly the read-only registers refuse a write. -/
theorem State.writeCsr_ofNumber (s : State) {c : CsrNum} {x : Csr} (v : Word) (h : Csr.ofNumber c = some x) :
    s.writeCsr x v = none ↔ csrReadOnly c = true := by
  rw [State.writeCsr_eq_none, (csr_map c).2]
  simp only [h, Option.some.injEq, exists_eq_right']

theorem csrrBody_ok {s t : State} {xd : Reg} {c : CsrNum} :
    csrrBody xd c s = .ok t ↔ ∃ x, Csr.ofNumber c = some x ∧ t = s.setReg xd (s.readCsr x) := by
  unfold csrrBody
  cases h : Csr.ofNumber c <;> simp [eq_comm]

theorem csrwBody_ok {s t : State} {c : CsrNum} {xs : Reg} :
    csrwBody c xs s = .ok t ↔ ∃ x, Csr.ofNumber c = some x ∧ s.writeCsr x (s.reg xs) = some t := by
  unfold csrwBody
  cases h : Csr.ofNumber c with
  | none => simp
  | some x => cases h' : s.writeCsr x (s.reg xs) <;> simp [h']

end Sys2Proof.Machine
end

