-- ==== Sys2Proof/Laws/Numbers.lean ====
section
/-! SUPPORT. The number functions do what 00_scope.md R7, R8 and 10_state.md R48 say, and the coefficient lists behave as lists
of coefficients. -/

namespace Sys2Proof.Machine

set_option Elab.async false

/-! 00_scope.md R7. -/

/-- `bitlen(v)` is the least `k` with `v < 2^k`. -/
theorem bitlen_le_iff {v k : Nat} : bitlen v ≤ k ↔ v < 2 ^ k := by
  unfold bitlen
  split
  · subst_vars; simp
  · rename_i h
    rw [Nat.succ_le_iff, Nat.log2_lt h]

/-- `nlimbs(v)` is the least `k` with `v < B^k`. -/
theorem nlimbs_le_iff {w v k : Nat} (hw : 0 < w) : nlimbs w v ≤ k ↔ v < 2 ^ (k * w) := by
  rw [← bitlen_le_iff, nlimbs, ← Nat.lt_succ_iff, Nat.div_lt_iff_lt_mul hw, Nat.succ_mul]
  omega

theorem brev_lt (d k : Nat) : brev d k < 2 ^ d := by
  induction d generalizing k with
  | zero => simp [brev]
  | succ d ih =>
    have h := ih (k / 2)
    have h2 : k % 2 * 2 ^ d ≤ 2 ^ d := by
      rcases Nat.mod_two_eq_zero_or_one k with h | h <;> simp [h]
    simp only [brev, pow_succ]
    omega

theorem natMod_lt {m : Nat} (hm : 0 < m) (v : Int) : natMod v m < m := by
  have h1 := Int.emod_nonneg v (b := (m : Int)) (by omega)
  have h2 := Int.emod_lt_of_pos v (b := (m : Int)) (by omega)
  unfold natMod
  omega

theorem natMod_cast {m : Nat} (hm : 0 < m) (v : Int) : ((natMod v m : Nat) : Int) = v % m := by
  unfold natMod
  exact Int.toNat_of_nonneg (Int.emod_nonneg v (by omega))

theorem natMod_natCast (v m : Nat) : natMod (v : Int) m = v % m := by
  unfold natMod
  rw [← Int.natCast_mod, Int.toNat_natCast]

theorem natMod_of_lt {v m : Nat} (h : v < m) : natMod (v : Int) m = v := by rw [natMod_natCast, Nat.mod_eq_of_lt h]

theorem ceilDiv_le_iff {a b k : Nat} (hb : 0 < b) : ceilDiv a b ≤ k ↔ a ≤ k * b := by
  rw [ceilDiv, ← Nat.lt_succ_iff, Nat.div_lt_iff_lt_mul hb, Nat.succ_mul]
  omega

theorem sumN_eq_sum {α : Type} [AddCommMonoid α] (n : Nat) (f : Nat → α) : sumN n f = ∑ i ∈ Finset.range n, f i := by
  induction n with
  | zero => rfl
  | succ n ih => rw [sumN, ih, Finset.sum_range_succ]

/-! 00_scope.md R8. -/

theorem sext_congr (b v : Nat) : (sext b v : Int) ≡ v [ZMOD 2 ^ b] := by
  unfold sext
  split
  · rfl
  · exact Int.sub_emod_right _ _

theorem sext_bounds {b v : Nat} (hb : 0 < b) (h : v < 2 ^ b) : -2 ^ (b - 1) ≤ sext b v ∧ sext b v < 2 ^ (b - 1) := by
  obtain ⟨c, rfl⟩ : ∃ c, b = c + 1 := ⟨b - 1, by omega⟩
  have hp : (2 : Int) ^ (c + 1) = 2 * 2 ^ c := by ring
  have hq : 2 ^ (c + 1) = 2 * 2 ^ c := by ring
  have hc : ((2 ^ c : Nat) : Int) = 2 ^ c := by push_cast; rfl
  unfold sext
  simp only [Nat.add_sub_cancel, hp]
  split <;> constructor <;> omega

/-! 10_state.md R48. -/

theorem fermatMod_pos (w n : Nat) : 0 < fermatMod w n := Nat.succ_pos _

theorem residue_lt (w n r : Nat) : residue w n r < fermatMod w n := natMod_lt (fermatMod_pos w n) _

/-- A canonical pattern is its own residue. -/
theorem residue_canonical {w n r : Nat} (hw : 1 < w) (h : r ≤ 2 ^ (n * w)) : residue w n r = r := by
  have hp : 0 < 2 ^ (n * w) := Nat.pow_pos (by omega)
  have h1 : 1 < 2 ^ (w - 1) := Nat.one_lt_two_pow (by omega)
  have hs : sval w n r = r := by
    unfold sval
    rcases Nat.lt_or_eq_of_le h with h | h
    · rw [Nat.mod_eq_of_lt h, Nat.div_eq_of_lt h, sext, if_pos (by omega)]; simp
    · rw [h, Nat.mod_self, Nat.div_self hp, sext, if_pos h1]; push_cast; ring
  rw [residue, hs]
  exact natMod_of_lt (Nat.lt_succ_of_le h)

theorem State.val_lt (s : State) (k : FrpIx) (i : Nat) : s.val k i < fermatMod s.width (s.frpN k) := by
  unfold State.val
  split
  · exact residue_lt _ _ _
  · exact fermatMod_pos _ _

@[simp] theorem State.vals_length (s : State) (k : FrpIx) : (s.vals k).length = s.frpLen k := by simp [State.vals]

@[simp] theorem State.raws_length (s : State) (k : FrpIx) : (s.raws k).length = s.frpLen k := by simp [State.raws]

@[simp] theorem State.poly_length (s : State) (k : CipIx) : (s.poly k).length = s.cipLen k := by simp [State.poly]

/-! Coefficient lists. -/

theorem trim_length_le (l : List Int) : (trim l).length ≤ l.length := by
  induction l with
  | nil => simp [trim]
  | cons x xs ih =>
    simp only [trim]
    split
    · split <;> simp
    · rename_i h; rw [h] at ih; simpa using ih

/-- Trimming changes no coefficient. -/
theorem trim_getD (l : List Int) (i : Nat) : (trim l).getD i 0 = l.getD i 0 := by
  induction l generalizing i with
  | nil => simp [trim]
  | cons x xs ih =>
    simp only [trim]
    split
    · rename_i h
      have ih' : ∀ i, xs.getD i 0 = 0 := fun i => by rw [← ih, h]; rfl
      cases i with
      | zero => split <;> simp_all
      | succ i => rw [List.getD_cons_succ, ih']; split <;> simp
    · rename_i h
      rw [h] at ih
      cases i with
      | zero => simp
      | succ i => simpa [List.getD_cons_succ] using ih i

/-- A trimmed list ends in a coefficient that is not 0. -/
theorem trim_getLast_ne_zero (l : List Int) (h : trim l ≠ []) : (trim l).getLast h ≠ 0 := by
  induction l with
  | nil => simp [trim] at h
  | cons x xs ih =>
    cases ht : trim xs with
    | nil =>
      have hx : trim (x :: xs) = if x = 0 then [] else [x] := by rw [trim, ht]
      by_cases h0 : x = 0
      · exact absurd (hx.trans (if_pos h0)) h
      · simpa [hx.trans (if_neg h0)] using h0
    | cons y ys =>
      have hx : trim (x :: xs) = x :: y :: ys := by rw [trim, ht]
      simp only [ht] at ih
      simpa [hx, List.getLast_cons] using ih (by simp)

theorem fullProduct_length (a b : List Int) :
    (fullProduct a b).length = if a.length = 0 ∨ b.length = 0 then 0 else a.length + b.length - 1 := by
  unfold fullProduct
  split <;> simp

end Sys2Proof.Machine
end

