-- ==== Sys2Proof/Laws/Operands.lean ====
section
/-! SUPPORT. What each shared operation does to the operands, said once: the writes through a slot read back, leave every
other limb, and change no other field; and what the host does at its ports. -/

namespace Sys2Proof.Machine

set_option Elab.async false

variable (s : State)

/-! The accessors of slots through a write to memory, a register, the flag, and a completion. -/

@[simp] theorem State.spanBase_memWrite (a n v : Nat) (k : SpanIx) : (s.memWrite a n v).spanBase k = s.spanBase k := rfl
@[simp] theorem State.spanLen_memWrite (a n v : Nat) (k : SpanIx) : (s.memWrite a n v).spanLen k = s.spanLen k := rfl
@[simp] theorem State.cipBase_memWriteList (a st : Nat) (vs : List Nat) (k : CipIx) :
    (s.memWriteList a st vs).cipBase k = s.cipBase k := State.cipBase_congr (by simp) k
@[simp] theorem State.cipLimbs_memWriteList (a st : Nat) (vs : List Nat) (k : CipIx) :
    (s.memWriteList a st vs).cipLimbs k = s.cipLimbs k := State.cipLimbs_congr (by simp) k
@[simp] theorem State.frpBase_memWriteList (a st : Nat) (vs : List Nat) (k : FrpIx) :
    (s.memWriteList a st vs).frpBase k = s.frpBase k := State.frpBase_congr (by simp) k
@[simp] theorem State.frpN_memWriteList (a st : Nat) (vs : List Nat) (k : FrpIx) :
    (s.memWriteList a st vs).frpN k = s.frpN k := State.frpN_congr (by simp) k

/-- The address of a coefficient depends on its slot alone. -/
theorem State.caddr_congr {s t : State} {k : FrpIx} (hb : t.frpBase k = s.frpBase k) (hn : t.frpN k = s.frpN k) (i : Nat) :
    t.caddr k i = s.caddr k i := by simp only [State.caddr, hb, hn]

/-- The pattern of a coefficient depends on the slot's base and width, the parameters and memory. -/
theorem State.raw_congr {s t : State} {k : FrpIx} (hb : t.frpBase k = s.frpBase k) (hn : t.frpN k = s.frpN k)
    (hp : t.params = s.params) (hm : t.mem = s.mem) (i : Nat) : t.raw k i = s.raw k i := by
  simp only [State.raw, State.caddr_congr hb hn, hn, State.memRead_congr hp hm]

/-! Spans. -/

/-- Writing through an output span: the number reads back, and `LEN` is its count. -/
theorem State.writeSpan_spec (k : SpanIx) (m v : Nat) :
    (s.writeSpan k m v).memRead (s.spanBase k) m = v % s.radix ^ m
      ∧ (∀ j, (s.writeSpan k m v).spanBase j = s.spanBase j)
      ∧ (∀ j, (s.writeSpan k m v).spanLen j = if k = j then m % 2 ^ 64 else s.spanLen j)
      ∧ ∀ c, c < s.spanBase k * s.limbBytes ∨ (s.spanBase k + m) * s.limbBytes ≤ c →
        (s.writeSpan k m v).mem.byteAt c = s.mem.byteAt c := by
  refine ⟨?_, fun j => by simp [State.writeSpan], fun j => by simp [State.writeSpan], fun c h => ?_⟩
  · rw [← State.memRead_memWrite s (s.spanBase k) m v]
    exact State.memRead_congr rfl rfl _ _
  · change (s.memWrite (s.spanBase k) m v).mem.byteAt c = _
    rw [State.byteAt_memWrite, if_neg]
    rw [Nat.add_mul] at h
    omega

/-- The number of a span whose limbs were just written. -/
theorem State.spanNum_writeSpan {k : SpanIx} {m v : Nat} (hm : m < 2 ^ 64) (hv : v < s.radix ^ m) :
    (s.writeSpan k m v).spanNum k = v := by
  have h := s.writeSpan_spec k m v
  rw [State.spanNum, h.2.1, h.2.2.1, if_pos rfl, Nat.mod_eq_of_lt hm, h.1, Nat.mod_eq_of_lt hv]

/-! Coefficients of an FRP. -/

/-- Writing coefficients 0, 1, …: each reads back, and every other limb stays. -/
theorem State.writeCoeffs_spec (k : FrpIx) (vs : List Nat) :
    (∀ i, (h : i < vs.length) → (s.writeCoeffs k vs).raw k i = vs[i] % s.radix ^ (s.frpN k + 1))
      ∧ ∀ c, c < s.frpBase k * s.limbBytes ∨ (s.frpBase k + vs.length * (s.frpN k + 1)) * s.limbBytes ≤ c →
        (s.writeCoeffs k vs).mem.byteAt c = s.mem.byteAt c := by
  refine ⟨fun i h => ?_, fun c h => State.byteAt_memWriteList_of_outside s _ _ _ h⟩
  rw [← State.memRead_memWriteList s (s.frpBase k) (s.frpN k + 1) vs i h]
  simp [State.raw, State.caddr, State.writeCoeffs]

/-- Writing one coefficient: it reads back. -/
theorem State.raw_writeCoeff (k : FrpIx) (i v : Nat) : (s.writeCoeff k i v).raw k i = v % s.radix ^ (s.frpN k + 1) :=
  State.memRead_memWrite s (s.caddr k i) (s.frpN k + 1) v

/-- Writing one coefficient leaves the others of the slot. -/
theorem State.raw_writeCoeff_ne (k : FrpIx) {i j : Nat} (h : i ≠ j) (v : Nat) : (s.writeCoeff k i v).raw k j = s.raw k j := by
  change (s.memWrite (s.caddr k i) (s.frpN k + 1) v).memRead (s.caddr k j) (s.frpN k + 1) = _
  refine State.memRead_memWrite_of_apart s ?_
  rcases Nat.lt_or_gt_of_ne h with h | h
  · left
    have := Nat.mul_le_mul_right (s.frpN k + 1) (Nat.succ_le_of_lt h)
    simp only [State.caddr, Nat.succ_mul] at this ⊢; omega
  · right
    have := Nat.mul_le_mul_right (s.frpN k + 1) (Nat.succ_le_of_lt h)
    simp only [State.caddr, Nat.succ_mul] at this ⊢; omega

/-! Compact polynomials. -/

/-- `WritePoly` (10_state.md R45): the limbs of each coefficient, `LEN`, and nothing else. -/
theorem State.writePoly_spec (k : CipIx) (out : List Int) :
    (∀ i, (h : i < out.length) → (s.writePoly k out).memRead (s.cipAddr k i) (s.cipLimbs k + 1)
        = coeffImage s.width out[i] % s.radix ^ (s.cipLimbs k + 1))
      ∧ (s.writePoly k out).cipLen k = out.length % 2 ^ 64
      ∧ (∀ j, (s.writePoly k out).cipBase j = s.cipBase j ∧ (s.writePoly k out).cipLimbs j = s.cipLimbs j
        ∧ (s.writePoly k out).cipAlloc j = s.cipAlloc j)
      ∧ ∀ c, c < s.cipBase k * s.limbBytes ∨ (s.cipBase k + out.length * (s.cipLimbs k + 1)) * s.limbBytes ≤ c →
        (s.writePoly k out).mem.byteAt c = s.mem.byteAt c := by
  refine ⟨fun i h => ?_, by simp [State.writePoly], fun j => ⟨by simp [State.writePoly], by simp [State.writePoly], ?_⟩,
    fun c h => ?_⟩
  · have := State.memRead_memWriteList s (s.cipBase k) (s.cipLimbs k + 1) (out.map (coeffImage s.width)) i (by simpa using h)
    rw [List.getElem_map] at this
    rw [← this]
    exact State.memRead_congr rfl rfl _ _
  · simpa [State.writePoly] using State.cipAlloc_congr (t := s.memWriteList (s.cipBase k) (s.cipLimbs k + 1) _) (by simp) j
  · change (s.memWriteList (s.cipBase k) (s.cipLimbs k + 1) (out.map (coeffImage s.width))).mem.byteAt c = _
    exact State.byteAt_memWriteList_of_outside s _ _ _ (by simpa using h)

/-- The limbs of a coefficient that fits its slot. -/
theorem coeffImage_lt {w L : Nat} (hw : 0 < w) {v : Int} (h : nlimbs w v.natAbs ≤ L) : coeffImage w v < (2 ^ w) ^ (L + 1) := by
  have h1 : v.natAbs < 2 ^ (L * w) := (nlimbs_le_iff hw).1 h
  have h2 : natMod (v.sign * (nlimbs w v.natAbs : Nat)) (2 ^ w) < 2 ^ w := natMod_lt (Nat.pow_pos (by omega)) _
  have h3 : (2 ^ w) ^ (L + 1) = 2 ^ w * 2 ^ (L * w) := by rw [pow_succ, ← pow_mul, Nat.mul_comm w L, Nat.mul_comm]
  have h4 : 2 ^ w * v.natAbs + 2 ^ w ≤ 2 ^ w * 2 ^ (L * w) := by
    rw [← Nat.mul_succ]; exact Nat.mul_le_mul_left _ h1
  unfold coeffImage
  omega

/-! The scratch demand. -/

/-- Under the default table the demand is the table's (70_reset_and_hazards.md R268). -/
theorem State.scrNeed_default (h : s.params.scrTable = .default) (i : Instr) : s.scrNeed i = s.defaultNeed i := by
  simp only [State.scrNeed, h]

/-- Under an implementation's own function the demand is that function's, of a command that may raise `AllocFailed`. -/
theorem State.scrNeed_own {k : Nat} (h : s.params.scrTable = .own k) (i : Instr) :
    s.scrNeed i = if allocates i = true then Config.scrNeed k s.params i (s.readData i) else 0 := by
  simp only [State.scrNeed, h]

/-- The demand depends on the parameters, what the command reads, and the default table's value alone. -/
theorem State.scrNeed_congr {t : State} {i : Instr} (hp : t.params = s.params) (hr : t.readData i = s.readData i)
    (hd : t.defaultNeed i = s.defaultNeed i) : t.scrNeed i = s.scrNeed i := by
  unfold State.scrNeed
  rw [hp, hr, hd]

/-- The values of coefficients whose headers name limbs do not depend on the draw. -/
theorem State.cipRead_complete (e : Option ErrorKind) (k : CipIx) : (s.complete e).cipRead k = s.cipRead k := by
  refine congrArg (s.cipFields k ++ ·) (List.map_congr_left fun j _ => ?_)
  change (if (s.cipHeader k j).natAbs ≤ s.cipLimbs k then (s.complete e).cipCoeff k j else 0) = _
  split
  · rename_i h
    simp only [State.cipCoeff]
    rw [if_pos h, if_pos (show ((s.complete e).cipHeader k j).natAbs ≤ (s.complete e).cipLimbs k from h)]
    rfl
  · rfl

/-- The demand does not depend on the history of commands (70_reset_and_hazards.md R269): not on what a completion writes. -/
theorem State.scrNeed_complete (e : Option ErrorKind) (i : Instr) : (s.complete e).scrNeed i = s.scrNeed i := by
  refine State.scrNeed_congr s rfl ?_ (by cases i <;> rfl)
  cases i
  case cmul pd pa pb | kmul pd pa pb | kmulT pd pa pb _ | kmulTL pd pa pb _ =>
    simp only [State.readData, State.cipRead_complete]
    rfl
  all_goals rfl

/-- The demand does not depend on the flag (10_state.md R28). -/
theorem State.scrNeed_setFlagC (c : Bool) (i : Instr) : (s.setFlagC c).scrNeed i = s.scrNeed i := by
  cases i <;> rfl

/-- Of memory the demand depends on what the command reads alone (20_memory.md R72). -/
theorem State.scrNeed_mem {m : Memory} {i : Instr} (h : ({ s with mem := m } : State).readData i = s.readData i) :
    ({ s with mem := m } : State).scrNeed i = s.scrNeed i := by
  refine State.scrNeed_congr s rfl h ?_
  cases i <;> rfl

/-! The host. -/

/-- A host write (20_memory.md R66) is a write of one limb, or stops outside limb memory. -/
theorem State.hostWrite_next {addr : Nat} {v : Word} {t : State} :
    s.hostWrite addr v = .next t ↔ addr < s.memLimbs ∧ t = s.memWrite addr 1 v.toNat := by
  unfold State.hostWrite; split <;> simp_all [eq_comm]

/-- `rst` (70_reset_and_hazards.md R260). -/
theorem State.takeReset_next {t : State} : s.takeReset = .next t ↔ t = State.resetWith s.params s.epoch s.inputs := by
  simp [State.takeReset, eq_comm]

end Sys2Proof.Machine
end

