-- ==== Sys2Proof/Laws/PerInstr.lean ====
section
/-! SUPPORT. The per-instruction family `RowMatch`: the word an instruction encodes to lies in its row of the opcode table
(30_encoding.md R88), one lemma for each constructor. -/

namespace Sys2Proof.Laws

set_option Elab.async false

/-- The command word agrees with its row's pattern on its row's mask. -/
def RowMatch.Statement (i : Instr) : Prop := encode i &&& i.row.mask = i.row.pattern

/-- A slot field has bits 3:2 clear. -/
theorem slotBits_and (k : Fin 4) : slotBits k &&& 0xC#4 = 0 := by revert k; decide

/-- A word agrees with a row field by field. -/
theorem word_and (f g : Fields) : f.word &&& g.word
    = (Fields.mk (f.op &&& g.op) (f.a &&& g.a) (f.b &&& g.b) (f.c &&& g.c) (f.d &&& g.d) (f.fn &&& g.fn)).word := by
  ext i hi
  simp only [Fields.word, BitVec.getElem_and, BitVec.getElem_append]
  grind

/-- The flags and the register of `fn` leave its other bits clear. -/
theorem fnBits_and_flags (r : BitVec 4) (s n : Bool) : fnBits r s n &&& 0xC0#8 = 0 := by
  revert r s n; decide

theorem fnBits_and_none (s n : Bool) : fnBits 0 s n &&& 0xCF#8 = 0 := by
  revert s n; decide

theorem fnBits_and_reg (r : BitVec 4) : fnBits r false false &&& 0xF0#8 = 0 := by
  revert r; decide

/-- A command whose fields agree with its row's, field by field, lies in its row. -/
theorem row_match {i : Instr} {o : Opcode} {a b c d : BitVec 4} {fn : BitVec 8} (ma mb mc md : BitVec 4) (mf pf : BitVec 8)
    (he : encodeFields i = rFields o a b c d fn := by rfl)
    (hm : i.row.mask = (Fields.mk 0xFF ma mb mc md mf).word := by rfl)
    (hp : i.row.pattern = (Fields.mk o.code 0 0 0 0 pf).word := by rfl)
    (ha : a &&& ma = 0 := by first | exact slotBits_and _ | exact BitVec.and_zero | decide)
    (hb : b &&& mb = 0 := by first | exact slotBits_and _ | exact BitVec.and_zero | decide)
    (hc : c &&& mc = 0 := by first | exact slotBits_and _ | exact BitVec.and_zero | decide)
    (hd : d &&& md = 0 := by first | exact slotBits_and _ | exact BitVec.and_zero | decide)
    (hf : fn &&& mf = pf := by
      first
        | exact fnBits_and_flags _ _ _
        | exact fnBits_and_none _ _
        | exact fnBits_and_reg _
        | exact BitVec.and_zero
        | decide) :
    RowMatch.Statement i := by
  have ho : o.code &&& 0xFF = o.code := BitVec.and_allOnes
  rw [RowMatch.Statement, hm, hp, encode, he, word_and]
  simp only [rFields, ho, ha, hb, hc, hd, hf]

theorem RowMatch.nop : RowMatch.Statement (.nop) := row_match 0xF 0xF 0xF 0xF 0xFF 0
theorem RowMatch.seti (xd : Reg) (imm : Imm16) : RowMatch.Statement (.seti xd imm) := row_match 0 0xF 0 0 0 0
theorem RowMatch.shli (xd : Reg) (imm : Imm16) : RowMatch.Statement (.shli xd imm) := row_match 0 0xF 0 0 0 0
theorem RowMatch.csrr (xd : Reg) (csr : CsrNum) : RowMatch.Statement (.csrr xd csr) := row_match 0 0 0 0 0xFF 0
theorem RowMatch.csrw (csr : CsrNum) (xs : Reg) : RowMatch.Statement (.csrw csr xs) := row_match 0 0 0 0 0xFF 0
theorem RowMatch.ladd (sd sa sb : SpanIx) : RowMatch.Statement (.ladd sd sa sb) := row_match 0xC 0xC 0xC 0xF 0xFF 0
theorem RowMatch.lsub (sd sa sb : SpanIx) : RowMatch.Statement (.lsub sd sa sb) := row_match 0xC 0xC 0xC 0xF 0xFF 0
theorem RowMatch.lmul (sd sa sb : SpanIx) : RowMatch.Statement (.lmul sd sa sb) := row_match 0xC 0xC 0xC 0xF 0xFF 0
theorem RowMatch.ldivrem (sq sr sa sv : SpanIx) : RowMatch.Statement (.ldivrem sq sr sa sv) := row_match 0xC 0xC 0xC 0xC 0xFF 0
theorem RowMatch.lrecip (xd xs : Reg) : RowMatch.Statement (.lrecip xd xs) := row_match 0 0 0xF 0xF 0xFF 0
theorem RowMatch.ldiv1p (sq sa : SpanIx) (xv xi xr : Reg) : RowMatch.Statement (.ldiv1p sq sa xv xi xr) := row_match 0xC 0xC 0 0 0xF0 0 (hf := fnBits_and_reg _)
theorem RowMatch.lcopy (sd sa : SpanIx) : RowMatch.Statement (.lcopy sd sa) := row_match 0xC 0xC 0xF 0xF 0xFF 0
theorem RowMatch.lclr (sd : SpanIx) : RowMatch.Statement (.lclr sd) := row_match 0xC 0xF 0xF 0xF 0xFF 0
theorem RowMatch.lcmp (xd : Reg) (sa sb : SpanIx) : RowMatch.Statement (.lcmp xd sa sb) := row_match 0 0xC 0xC 0xF 0xFF 0
theorem RowMatch.pbits (xd xs : Reg) (pa : CipIx) : RowMatch.Statement (.pbits xd xs pa) := row_match 0 0 0xC 0xF 0xFF 0
theorem RowMatch.plimbs (xd xs : Reg) (pa : CipIx) : RowMatch.Statement (.plimbs xd xs pa) := row_match 0 0 0xC 0xF 0xFF 0
theorem RowMatch.lpack (fd : FrpIx) (pa : CipIx) (xb xw : Reg) (sgn neg : Bool) : RowMatch.Statement (.lpack fd pa xb xw sgn neg) := row_match 0xC 0xC 0 0 0xCF 0
theorem RowMatch.lunpack (pd : CipIx) (fa : FrpIx) (xb xw xc : Reg) (sgn neg : Bool) : RowMatch.Statement (.lunpack pd fa xb xw xc sgn neg) := row_match 0xC 0xC 0 0 0xC0 0
theorem RowMatch.bpack (fd : FrpIx) (pa : CipIx) (xb xw : Reg) (sgn neg : Bool) : RowMatch.Statement (.bpack fd pa xb xw sgn neg) := row_match 0xC 0xC 0 0 0xCF 0
theorem RowMatch.bunpack (pd : CipIx) (fa : FrpIx) (xb xw xc : Reg) (sgn neg : Bool) : RowMatch.Statement (.bunpack pd fa xb xw xc sgn neg) := row_match 0xC 0xC 0 0 0xC0 0
theorem RowMatch.ypack (fd : FrpIx) (pa : CipIx) (xb xw : Reg) (sgn neg : Bool) : RowMatch.Statement (.ypack fd pa xb xw sgn neg) := row_match 0xC 0xC 0 0 0xCF 0
theorem RowMatch.yunpack (pd : CipIx) (fa : FrpIx) (xb xw xc : Reg) (sgn neg : Bool) : RowMatch.Statement (.yunpack pd fa xb xw xc sgn neg) := row_match 0xC 0xC 0 0 0xC0 0
theorem RowMatch.fadd (fd fa fb : FrpIx) : RowMatch.Statement (.fadd fd fa fb) := row_match 0xC 0xC 0xC 0xF 0xFF 0
theorem RowMatch.fsub (fd fa fb : FrpIx) : RowMatch.Statement (.fsub fd fa fb) := row_match 0xC 0xC 0xC 0xF 0xFF 0
theorem RowMatch.fnorm (fd : FrpIx) : RowMatch.Statement (.fnorm fd) := row_match 0xC 0xF 0xF 0xF 0xFF 0
theorem RowMatch.fpmul (fd fa fb : FrpIx) : RowMatch.Statement (.fpmul fd fa fb) := row_match 0xC 0xC 0xC 0xF 0xFF 0
theorem RowMatch.fpsqr (fd fa : FrpIx) : RowMatch.Statement (.fpsqr fd fa) := row_match 0xC 0xC 0xF 0xF 0xFF 0
theorem RowMatch.frescale (fd : FrpIx) : RowMatch.Statement (.frescale fd) := row_match 0xC 0xF 0xF 0xF 0xFF 0
theorem RowMatch.fsetlen (fd : FrpIx) (xm : Reg) : RowMatch.Statement (.fsetlen fd xm) := row_match 0xC 0 0xF 0xF 0xFF 0
theorem RowMatch.flowern (fd : FrpIx) (xn : Reg) : RowMatch.Statement (.flowern fd xn) := row_match 0xC 0 0xF 0xF 0xFF 0
theorem RowMatch.fmulrho (fd : FrpIx) (xi xe : Reg) : RowMatch.Statement (.fmulrho fd xi xe) := row_match 0xC 0 0 0xF 0xFF 0
theorem RowMatch.fbfly (fd : FrpIx) (xi xj xe : Reg) : RowMatch.Statement (.fbfly fd xi xj xe) := row_match 0xC 0 0 0 0xFF 0
theorem RowMatch.ibfly (fd : FrpIx) (xi xj xe : Reg) : RowMatch.Statement (.ibfly fd xi xj xe) := row_match 0xC 0 0 0 0xFF 0
theorem RowMatch.fft (fd : FrpIx) (xm : Reg) : RowMatch.Statement (.fft fd xm) := row_match 0xC 0 0xF 0xF 0xFF 0
theorem RowMatch.ifft (fd : FrpIx) : RowMatch.Statement (.ifft fd) := row_match 0xC 0xF 0xF 0xF 0xFF 0
theorem RowMatch.cconv (fd fa fb : FrpIx) (xm : Reg) : RowMatch.Statement (.cconv fd fa fb xm) := row_match 0xC 0xC 0xC 0 0xFF 0
theorem RowMatch.nconv (fd fa fb : FrpIx) (xm : Reg) : RowMatch.Statement (.nconv fd fa fb xm) := row_match 0xC 0xC 0xC 0 0xFF 0
theorem RowMatch.cmul (pd pa pb : CipIx) : RowMatch.Statement (.cmul pd pa pb) := row_match 0xC 0xC 0xC 0xF 0xFF 0
theorem RowMatch.kmul (pd pa pb : CipIx) : RowMatch.Statement (.kmul pd pa pb) := row_match 0xC 0xC 0xC 0xF 0xFF 0
theorem RowMatch.kmulT (pd pa pb : CipIx) (xt : Reg) : RowMatch.Statement (.kmulT pd pa pb xt) := row_match 0xC 0xC 0xC 0 0xFF 0x1
theorem RowMatch.kmulTL (pd pa pb : CipIx) (xt : Reg) : RowMatch.Statement (.kmulTL pd pa pb xt) := row_match 0xC 0xC 0xC 0 0xFF 0x2

end Sys2Proof.Laws
end

