-- ==== Sys2Proof/Tests/Slice0.lean ====
section
/-! SUPPORT. The model's own tests: the ill-formed commands the checks refuse, a word written out from 30_encoding.md R88 for
every command, vectors of 95_test_vectors.md (each named by its row there), and for every obligation with hypotheses a state
and operands that meet them, at the boundary values where clauses meet. -/

namespace Sys2Proof.Tests

set_option Elab.async false

open Sys2Proof.Machine

/-! ## Ill-formed commands (WellFormed.lean) -/

theorem test_wellFormed_csrr_unlisted : (Instr.csrr 2 0x015).wellFormed = false := by decide
theorem test_wellFormed_csrr_gap : (Instr.csrr 2 0x305).wellFormed = false := by decide
theorem test_wellFormed_csrw_unlisted : (Instr.csrw 0x108 9).wellFormed = false := by decide
theorem test_wellFormed_csrw_readOnly :
    (Instr.csrw 0x000 9).wellFormed = false ∧ (Instr.csrw 0x010 9).wellFormed = false
      ∧ (Instr.csrw 0x012 9).wellFormed = false := by decide
theorem test_wellFormed_fbfly_sameRegister : (Instr.fbfly 0 1 1 3).wellFormed = false := by decide
theorem test_wellFormed_ibfly_sameRegister : (Instr.ibfly 0 1 1 3).wellFormed = false := by decide

/-- The listing of 10_state.md R36 and the register map name the same numbers. -/
theorem test_csrListed_is_map :
    (List.range 4096).all (fun v => csrListed (BitVec.ofNat 12 v) == (Csr.ofNumber (BitVec.ofNat 12 v)).isSome) = true := by
  decide +kernel

/-! ## Decoding: one word for every constructor, from its row of 30_encoding.md R88 -/

theorem test_decode_nop : decode 0x01000000 = .ok .nop := by rfl
theorem test_decode_seti : decode 0x02301234 = .ok (.seti 3 0x1234) := by rfl
theorem test_decode_shli : decode 0x0330ABCD = .ok (.shli 3 0xABCD) := by rfl
theorem test_decode_csrr : decode 0x04230A00 = .ok (.csrr 2 0x30A) := by rfl
theorem test_decode_csrw : decode 0x05120100 = .ok (.csrw 0x201 1) := by rfl
theorem test_decode_ladd : decode 0x10012000 = .ok (.ladd 0 1 2) := by rfl
theorem test_decode_lsub : decode 0x11012000 = .ok (.lsub 0 1 2) := by rfl
theorem test_decode_lmul : decode 0x12321000 = .ok (.lmul 3 2 1) := by rfl
theorem test_decode_ldivrem : decode 0x13012300 = .ok (.ldivrem 0 1 2 3) := by rfl
theorem test_decode_lrecip : decode 0x14F20000 = .ok (.lrecip 15 2) := by rfl
theorem test_decode_ldiv1p : decode 0x15014506 = .ok (.ldiv1p 0 1 4 5 6) := by rfl
theorem test_decode_lcopy : decode 0x16300000 = .ok (.lcopy 3 0) := by rfl
theorem test_decode_lclr : decode 0x17200000 = .ok (.lclr 2) := by rfl
theorem test_decode_lcmp : decode 0x18712000 = .ok (.lcmp 7 1 2) := by rfl
theorem test_decode_pbits : decode 0x20451000 = .ok (.pbits 4 5 1) := by rfl
theorem test_decode_plimbs : decode 0x21543000 = .ok (.plimbs 5 4 3) := by rfl
theorem test_decode_lpack : decode 0x22101230 = .ok (.lpack 1 0 1 2 true true) := by rfl
theorem test_decode_lunpack : decode 0x23011223 = .ok (.lunpack 0 1 1 2 3 false true) := by rfl
theorem test_decode_bpack : decode 0x24001210 = .ok (.bpack 0 0 1 2 true false) := by rfl
theorem test_decode_bunpack : decode 0x25011213 = .ok (.bunpack 0 1 1 2 3 true false) := by rfl
theorem test_decode_ypack : decode 0x26211200 = .ok (.ypack 2 1 1 2 false false) := by rfl
theorem test_decode_yunpack : decode 0x27101213 = .ok (.yunpack 1 0 1 2 3 true false) := by rfl
theorem test_decode_fadd : decode 0x30201000 = .ok (.fadd 2 0 1) := by rfl
theorem test_decode_fsub : decode 0x31201000 = .ok (.fsub 2 0 1) := by rfl
theorem test_decode_fnorm : decode 0x32300000 = .ok (.fnorm 3) := by rfl
theorem test_decode_fpmul : decode 0x33201000 = .ok (.fpmul 2 0 1) := by rfl
theorem test_decode_fpsqr : decode 0x34210000 = .ok (.fpsqr 2 1) := by rfl
theorem test_decode_frescale : decode 0x35200000 = .ok (.frescale 2) := by rfl
theorem test_decode_fsetlen : decode 0x36190000 = .ok (.fsetlen 1 9) := by rfl
theorem test_decode_flowern : decode 0x371A0000 = .ok (.flowern 1 10) := by rfl
theorem test_decode_fmulrho : decode 0x38013000 = .ok (.fmulrho 0 1 3) := by rfl
theorem test_decode_fbfly : decode 0x39012300 = .ok (.fbfly 0 1 2 3) := by rfl
theorem test_decode_ibfly : decode 0x3A321000 = .ok (.ibfly 3 2 1 0) := by rfl
theorem test_decode_fft : decode 0x402B0000 = .ok (.fft 2 11) := by rfl
theorem test_decode_ifft : decode 0x41200000 = .ok (.ifft 2) := by rfl
theorem test_decode_cconv : decode 0x42201400 = .ok (.cconv 2 0 1 4) := by rfl
theorem test_decode_nconv : decode 0x43201400 = .ok (.nconv 2 0 1 4) := by rfl
theorem test_decode_cmul : decode 0x50201000 = .ok (.cmul 2 0 1) := by rfl
theorem test_decode_kmul : decode 0x51201000 = .ok (.kmul 2 0 1) := by rfl
theorem test_decode_kmulT : decode 0x51201501 = .ok (.kmulT 2 0 1 5) := by rfl
theorem test_decode_kmulTL : decode 0x51201502 = .ok (.kmulTL 2 0 1 5) := by rfl

/-- Rows Y36 to Y44, K32 and M13: each of these words is illegal. -/
theorem test_decode_illegal_words :
    ([0x00000000, 0xFFFFFFFF, 0x01000001, 0x02311234, 0x04101001, 0x06000000, 0x19000000, 0x28000000, 0x3B000000, 0x44000000,
      0x52000000, 0x10412000, 0x10012001, 0x10012100, 0x22001201, 0x22401200, 0x51201503, 0x51201500] : List CmdWord).all
      (fun w => match decode w with | .ok _ => false | .error _ => true) = true := by decide +kernel

/-! ## Helpers -/

/-- An outcome is a next state with the property `p`. -/
def nextWith (o : Host.Outcome State Fault Refusal) (p : State → Bool) : Bool :=
  match o with
  | .next t => p t
  | .fault _ => false
  | .refused _ => false

/-- What `nextWith` checks, as a statement says it. -/
theorem of_nextWith {o : Host.Outcome State Fault Refusal} {P : State → Prop} [DecidablePred P]
    (h : nextWith o (fun t => decide (P t)) = true) : ∃ t, o = .next t ∧ P t := by
  cases o with
  | next t => exact ⟨t, rfl, of_decide_eq_true h⟩
  | fault _ => exact absurd h (by simp [nextWith])
  | refused _ => exact absurd h (by simp [nextWith])

/-- A small machine: 8-bit limbs, 96 of them, all written (`vals`, then zeros), 64 limbs of scratch, register `i` holding `i`. -/
def small (vals : List Nat) : State :=
  { State.resetWith ⟨.w8, 96, 64, .default⟩ 0 [] with
    mem := ⟨0, (List.range 96).map (fun a => (a, BitVec.ofNat 8 (vals.getD a 0)))⟩
    regs := Vector.ofFn (fun i => BitVec.ofNat 64 i.val) }

/-- `S[k] = (base, len)`. -/
def span (s : State) (k : SpanIx) (base len : Word) : State := s.setSpan k ⟨base, len⟩

/-- `P[k] = (BASE, LIMBS, LEN, ALLOC)`. -/
def cip (s : State) (k : CipIx) (base limbs len alloc : Word) : State := s.setCip k ⟨base, limbs, len, alloc⟩

/-- `P[k]` holding the polynomial `c`. -/
def cipOf (s : State) (k : CipIx) (base limbs alloc : Word) (c : List Int) : State := (cip s k base limbs 0 alloc).writePoly k c

/-- `F[k] = (BASE, DEPTH, N, LEN, SCRATCH)`. -/
def frp (s : State) (k : FrpIx) (base depth n len scratch : Word) : State := s.setFrp k ⟨base, depth, n, len, scratch⟩

/-- `F[k]` holding the raw patterns `c`. -/
def frpOf (s : State) (k : FrpIx) (base depth n scratch : Word) (c : List Nat) : State :=
  (frp s k base depth n (BitVec.ofNat 64 c.length) scratch).writeCoeffs k c

/-- Limbs `a` to `a + n − 1`. -/
def limbs (s : State) (a n : Nat) : List Nat := (List.range n).map (fun i => s.limb (a + i))

/-- Other parameters, the rest of the state as it is. -/
def withScratch (s : State) (cap : Nat) : State := { s with params := { s.params with scrCap := cap } }

/-! ## Vectors of 95_test_vectors.md -/

/-! System commands. -/

theorem test_nop_Y1 : nextWith (exec .nop (small [])) (fun t => t.cseq == 1 && t.err == 0) = true := by decide +kernel

theorem test_seti_Y7 : nextWith (exec (.seti 3 0xFFFF) ((small []).setReg 3 0x1234ABCD00010002))
    (fun t => t.reg 3 == 0xFFFF) = true := by decide +kernel

theorem test_shli_Y6 : nextWith (exec (.shli 3 3) ((small []).setReg 3 0x1234ABCD00010002))
    (fun t => t.reg 3 == 0xABCD000100020003) = true := by decide +kernel

theorem test_csrr_Y8 : nextWith (exec (.csrr 1 0x000) (small [])) (fun t => t.reg 1 == 0x4C415531) = true := by decide +kernel

/-- Row Y12: the count before this command. -/
theorem test_csrr_Y12 : nextWith (exec (.csrr 1 0x012) { small [] with cseq := 11 })
    (fun t => t.reg 1 == 11 && t.cseq == 12) = true := by decide +kernel

theorem test_csrw_Y18 : nextWith (exec (.csrw 0x013 9) ((small []).setReg 9 0xFFFF))
    (fun t => t.flagC && t.readCsr .flags == 1) = true := by decide +kernel

theorem test_csrw_Y24 : nextWith (exec (.csrw 0x000 9) (small [])) (fun t => t.err == 9 && t.esticky == 0x200) = true := by
  decide +kernel

/-- 60_exceptions.md R236: a completion pulses `done`, with an error too; an idle step ends the pulse. -/
theorem test_done_pulse :
    nextWith (step { small [] with inputs := [.command 0x01000000] }) (fun t => t.done && nextWith (step t) (fun u => !u.done)) = true
      ∧ nextWith (step { small [] with inputs := [.command 0] }) (fun t => t.done && t.err == 9) = true := by decide +kernel

/-! Limb primitives. -/

theorem test_ladd_L4 : nextWith (exec (.ladd 0 1 2) (span (span (span (small [0xF0, 0x0F, 0, 0, 0x20, 0xF0]) 0 0 2) 1 0 2) 2 4 2))
    (fun t => limbs t 0 2 == [0x10, 0x00] && t.flagC) = true := by decide +kernel

theorem test_ladd_L5 : nextWith (exec (.ladd 0 1 2) (span (span (span (small []) 0 95 0) 1 0 2) 2 4 2))
    (fun t => t.err == 7 && t.esticky == 0x80) = true := by decide +kernel

theorem test_lsub_L8 : nextWith (exec (.lsub 0 1 2) (span (span (span (small [5, 0, 0, 0, 6, 1]) 0 20 0) 1 0 1) 2 4 2))
    (fun t => limbs t 20 2 == [0xFF, 0xFE] && t.spanLen 0 == 2 && t.flagC) = true := by decide +kernel

theorem test_lmul_L10 : nextWith (exec (.lmul 0 1 2) (span (span (span (small [0x34, 0x12, 0, 0, 0xFF]) 0 20 0) 1 0 2) 2 4 1))
    (fun t => limbs t 20 3 == [0xCC, 0x21, 0x12] && t.spanLen 0 == 3) = true := by decide +kernel

theorem test_lmul_L12 : nextWith (exec (.lmul 0 1 2) (span (span (span (small [3, 2]) 0 0 0) 1 0 2) 2 1 1))
    (fun t => limbs t 0 3 == [6, 4, 0]) = true := by decide +kernel

theorem test_ldivrem_L15 : nextWith
    (exec (.ldivrem 0 1 2 3) (span (span (span (span (small [0xE8, 3, 0, 0, 7, 0]) 0 20 0) 1 30 0) 2 0 2) 3 4 2))
    (fun t => limbs t 20 2 == [0x8E, 0] && limbs t 30 2 == [6, 0] && t.spanLen 0 == 2 && t.spanLen 1 == 2) = true := by
  decide +kernel

theorem test_ldivrem_L18 : nextWith (exec (.ldivrem 0 0 2 3) (span (span (span (small [0xE8, 3, 0, 0, 7]) 0 20 0) 2 0 2) 3 4 1))
    (fun t => limbs t 20 2 == [6, 0] && t.spanLen 0 == 1) = true := by decide +kernel

theorem test_lrecip_L20 :
    ([(255, 0x01), (128, 0xFF), (1, 0xFF), (3, 0x55), (7, 0x24), (0x103, 0x55)] : List (Word × Word)).all (fun c =>
      nextWith (exec (.lrecip 1 2) ((small []).setReg 2 c.1)) (fun t => t.reg 1 == c.2)) = true := by decide +kernel

theorem test_lrecip_L21 : nextWith (exec (.lrecip 1 2) ((small []).setReg 2 0x100)) (fun t => t.err == 2 && t.reg 1 == 1) = true := by
  decide +kernel

theorem test_ldiv1p_L23 : nextWith
    (exec (.ldiv1p 0 1 4 5 6) (((span (span (small [0xE8, 3]) 0 20 0) 1 0 2).setReg 4 7).setReg 5 0x24))
    (fun t => limbs t 20 2 == [0x8E, 0] && t.spanLen 0 == 2 && t.reg 6 == 6) = true := by decide +kernel

theorem test_lcopy_L26 : nextWith (exec (.lcopy 0 1) (span (span (small [1, 2, 3, 9]) 0 1 0) 1 0 3))
    (fun t => limbs t 0 4 == [1, 1, 2, 3] && t.spanLen 0 == 3) = true := by decide +kernel

theorem test_lclr_L27 : nextWith (exec (.lclr 2) (span (small [1, 2, 3, 9]) 2 1 2))
    (fun t => limbs t 0 4 == [1, 0, 0, 9] && t.spanLen 2 == 2) = true := by decide +kernel

/-- Row L28, the first three comparisons. -/
theorem test_lcmp_L28 :
    nextWith (exec (.lcmp 7 1 2) (span (span (small [0, 1, 0, 0, 0xFF]) 1 0 2) 2 4 1)) (fun t => t.reg 7 == 1) = true
      ∧ nextWith (exec (.lcmp 7 1 2) (span (span (small [0xFF, 0, 0, 0, 0xFF]) 1 0 2) 2 4 1)) (fun t => t.reg 7 == 0) = true
      ∧ nextWith (exec (.lcmp 7 1 2) (span (span (small [0xFF, 0, 0, 0, 0, 1]) 1 0 1) 2 4 2))
        (fun t => t.reg 7 == 0xFFFFFFFFFFFFFFFF) = true := by decide +kernel

/-! Scans, packers, unpackers. -/

theorem test_pbits_K1 : nextWith (exec (.pbits 4 5 0) (cipOf (small []) 0 0 1 4 [7, -5, 0, 42]))
    (fun t => t.reg 4 == 6 && t.reg 5 == 1) = true := by decide +kernel

theorem test_pbits_K4 : nextWith (exec (.pbits 4 4 0) (cipOf (small []) 0 0 1 4 [7, -5])) (fun t => t.reg 4 == 1) = true := by
  decide +kernel

/-- Row K7: sizes come from values, not headers. -/
theorem test_plimbs_K7 : nextWith (exec (.plimbs 4 5 0) (cip (small [2, 5, 0, 0xFE, 6, 0]) 0 0 2 2 2))
    (fun t => t.reg 4 == 1 && t.reg 5 == 1) = true := by decide +kernel

theorem test_lpack_K12 : nextWith (exec (.lpack 0 0 2 1 true true) (frp (cipOf (small []) 0 0 1 4 [-3, 4]) 0 40 0 2 0 0))
    (fun t => limbs t 40 3 == [3, 0xFC, 0xFF] && t.frpLen 0 == 1) = true := by decide +kernel

theorem test_bpack_K20 : nextWith
    (exec (.bpack 0 0 1 2 true false) (((frp (cipOf (small []) 0 0 1 4 [-5, 7]) 0 40 0 2 0 0).setReg 1 2).setReg 2 8))
    (fun t => limbs t 40 3 == [0xFB, 6, 0]) = true := by decide +kernel

theorem test_ypack_K26 : nextWith
    (exec (.ypack 0 0 1 2 true false) (frp (cipOf (small []) 0 0 2 4 [-300, 5]) 0 40 1 2 0 0))
    (fun t => limbs t 40 6 == [0xD4, 0xFE, 0xFF, 5, 0, 0] && t.frpLen 0 == 2) = true := by decide +kernel

theorem test_lunpack_X11 : nextWith
    (exec (.lunpack 0 1 1 2 3 true false) ((frpOf (cip (small []) 0 0 2 0 8) 1 40 0 2 0 [0xFFFE]).setReg 3 1))
    (fun t => t.poly 0 == [-3] && limbs t 0 3 == [0xFF, 3, 0]) = true := by decide +kernel

theorem test_lunpack_X16 : nextWith
    (exec (.lunpack 0 1 1 2 3 false false) ((frpOf (cip (small []) 0 0 1 0 8) 1 40 0 2 0 [0xFFFE]).setReg 3 1))
    (fun t => t.err == 6 && t.esticky == 0x40) = true := by decide +kernel

theorem test_bunpack_X3 : nextWith
    (exec (.bunpack 0 1 2 8 2 true false) (frpOf (cip (small []) 0 0 1 0 8) 1 40 0 2 0 [0x06FB]))
    (fun t => t.poly 0 == [-5, 7] && limbs t 0 4 == [0xFF, 5, 1, 7]) = true := by decide +kernel

theorem test_bunpack_X6 : nextWith
    (exec (.bunpack 0 1 1 8 2 false false) (frpOf (cip (small []) 0 0 1 0 8) 1 40 1 2 0 [0x0203, 0x0405]))
    (fun t => t.poly 0 == [3, 7, 4]) = true := by decide +kernel

theorem test_yunpack_X18 : nextWith
    (exec (.yunpack 0 1 1 2 3 true false) ((frpOf (cip (small []) 0 0 2 0 8) 1 40 1 2 0 [0xFFFED4, 5]).setReg 3 1))
    (fun t => t.poly 0 == [-300, 5] && limbs t 0 6 == [0xFE, 0x2C, 1, 1, 5, 0]) = true := by decide +kernel

/-! Ring operations. -/

theorem test_fnorm_Q1 : nextWith (exec (.fnorm 0) (frpOf (small []) 0 40 2 1 0 [0xFF05, 0x0100, 0x0101, 0x7FFF]))
    (fun t => limbs t 40 8 == [6, 0, 0, 1, 0, 0, 0x80, 0]) = true := by decide +kernel

theorem test_fadd_Q4 : nextWith
    (exec (.fadd 2 0 1) (frp (frpOf (frpOf (small []) 0 40 1 1 0 [0xFF, 0x100]) 1 50 1 1 0 [2, 0x100]) 2 60 1 1 0 0))
    (fun t => limbs t 60 4 == [1, 1, 0, 2] && t.frpLen 2 == 2) = true := by decide +kernel

theorem test_fadd_Q7 : nextWith (exec (.fadd 0 0 1) (frpOf (frpOf (small []) 0 40 1 1 0 [0x7F00]) 1 50 1 1 0 [0x100]))
    (fun t => limbs t 40 2 == [0, 0x80]) = true := by decide +kernel

theorem test_fsub_Q6 : nextWith
    (exec (.fsub 2 0 1) (frp (frpOf (frpOf (small []) 0 40 1 1 0 [5]) 1 50 1 1 0 [0xFA]) 2 60 1 1 0 0))
    (fun t => limbs t 60 2 == [0x0B, 0xFF] && t.vals 2 == [12]) = true := by decide +kernel

theorem test_fpmul_Q9 : nextWith
    (exec (.fpmul 2 0 1)
      (frp (frpOf (frpOf (small []) 0 40 2 1 0 [0xFFFF, 0x100, 5, 16]) 1 50 2 1 0 [2, 0x100, 250, 16]) 2 60 2 1 0 0))
    (fun t => limbs t 60 8 == [0xFF, 0, 1, 0, 0xDE, 0, 0, 1] && limbs t 40 2 == [0, 1]) = true := by decide +kernel

theorem test_fpsqr_Q10 : nextWith (exec (.fpsqr 2 1) (frp (frpOf (small []) 1 50 2 1 0 [2, 256, 250, 16]) 2 60 2 1 0 0))
    (fun t => t.vals 2 == [4, 1, 49, 256]) = true := by decide +kernel

theorem test_frescale_Q12 : nextWith (exec (.frescale 0) (frpOf (small []) 0 40 2 1 0 [8, 1, 256, 3]))
    (fun t => t.vals 0 == [2, 193, 64, 65]) = true := by decide +kernel

theorem test_fsetlen_Q14 : nextWith (exec (.fsetlen 0 4) (frp (small (List.replicate 96 7)) 0 40 2 1 2 0))
    (fun t => t.frpLen 0 == 4 && limbs t 40 8 == [7, 7, 7, 7, 0, 0, 0, 0]) = true := by decide +kernel

theorem test_flowern_Q15 : nextWith (exec (.flowern 0 1) (frp (small []) 0 40 0 2 1 0))
    (fun t => t.frpN 0 == 1 && t.frpLen 0 == 0) = true := by decide +kernel

theorem test_fmulrho_Q16 :
    ([(0, 60), (1, 2), (2, 120), (16, 197), (31, 1), (32, 60), (33, 2), (0xFFFFFFFFFFFFFFFF, 1)] : List (Word × Nat)).all
      (fun c => nextWith (exec (.fmulrho 0 0 3) ((frpOf (small []) 0 40 0 1 0 [60]).setReg 3 c.1))
        (fun t => t.vals 0 == [c.2])) = true := by decide +kernel

theorem test_fbfly_Q19 : nextWith (exec (.fbfly 0 0 1 4) (frpOf (small []) 0 40 1 1 0 [5, 3])) (fun t => t.vals 0 == [8, 8]) = true := by
  decide +kernel

theorem test_fbfly_Q23 : nextWith (exec (.fbfly 0 1 0 0) (frpOf (small []) 0 40 1 1 0 [256, 256]))
    (fun t => t.vals 0 == [0, 255]) = true := by decide +kernel

theorem test_ibfly_Q20 : nextWith (exec (.ibfly 0 0 1 4) (frpOf (small []) 0 40 1 1 0 [8, 8])) (fun t => t.vals 0 == [10, 6]) = true := by
  decide +kernel

/-! Transforms and convolutions. -/

/-- U8: an empty slot's `IFFT` completes without error, `LEN` stays, and the limb before its block keeps its value. -/
theorem test_ifft_empty : nextWith (exec (.ifft 0) (frp (small []) 0 40 2 1 0 1))
    (fun t => t.err == 0 && t.frpLen 0 == 0 && decide (t.mem.byteAt 39 = 0)) = true := by decide +kernel

theorem test_fft_T1 : nextWith (exec (.fft 0 4) (frpOf (small []) 0 40 2 1 1 [1, 2, 3, 4]))
    (fun t => t.vals 0 == [10, 255, 223, 30]) = true := by decide +kernel

theorem test_fft_T3 : nextWith (exec (.fft 0 3) (frpOf (small []) 0 40 2 1 1 [1, 2])) (fun t => t.vals 0 == [3, 256, 33]) = true := by
  decide +kernel

theorem test_ifft_T9 : nextWith (exec (.ifft 0) (frpOf (small []) 0 40 2 1 1 [10, 255, 223, 30]))
    (fun t => t.vals 0 == [4, 8, 12, 16]) = true := by decide +kernel

theorem test_ifft_T11 : nextWith (exec (.ifft 0) (frpOf (small []) 0 40 2 1 1 [3, 256, 33]))
    (fun t => t.vals 0 == [4, 8, 0]) = true := by decide +kernel

/-- The inputs of rows V1 and V2. -/
def convInputs : State :=
  frp (frpOf (frpOf (small []) 0 40 2 1 1 [1, 2, 3, 4]) 1 50 2 1 1 [5, 6, 7, 8]) 2 60 2 1 0 1

theorem test_cconv_V1 : nextWith (exec (.cconv 2 0 1 4) convInputs) (fun t => t.vals 2 == [66, 68, 66, 60]) = true := by decide +kernel

theorem test_nconv_V2 : nextWith (exec (.nconv 2 0 1 4) convInputs) (fun t => t.vals 2 == [201, 221, 2, 60]) = true := by decide +kernel

/-! Products. -/

theorem test_cmul_M1 : nextWith
    (exec (.cmul 2 0 1) (cip (cipOf (cipOf (small []) 0 0 1 8 [7, -5, 0, 42]) 1 20 1 8 [1, 0, 1]) 2 40 2 0 8))
    (fun t => limbs t 40 18 == [1, 7, 0, 0xFF, 5, 0, 1, 7, 0, 1, 0x25, 0, 0, 0, 0, 1, 0x2A, 0] && t.cipLen 2 == 6) = true := by
  decide +kernel

theorem test_cmul_M8 : nextWith
    (exec (.cmul 2 0 1) (cip (cipOf (cipOf (small []) 0 0 1 8 [255, 255]) 1 20 1 8 [255, 255]) 2 40 1 0 2))
    (fun t => t.err == 6) = true := by decide +kernel

/-- The inputs of row M10, threshold 1. -/
def squareInputs : State := withScratch { cip (cipOf (small []) 0 0 1 8 [-2, 0, 0, 1]) 2 40 2 0 8 with kcut := 1 } 128

theorem test_kmul_M10 : nextWith (exec (.kmul 2 0 0) squareInputs) (fun t => t.poly 2 == [4, 0, 0, -4, 0, 0, 1]) = true := by
  decide +kernel

theorem test_kmul_M18 : nextWith (exec (.kmul 2 0 0) (withScratch squareInputs 127)) (fun t => t.err == 1) = true := by decide +kernel

theorem test_kmulT_M11 : nextWith (exec (.kmulT 2 0 0 5) squareInputs) (fun t => t.poly 2 == [4, 0, 0, -4]) = true := by
  decide +kernel

theorem test_kmulTL_M12 : nextWith (exec (.kmulTL 2 0 0 4) squareInputs) (fun t => t.poly 2 == [0, 0, 0, 0, 0, 0, 1]) = true := by
  decide +kernel

/-! ## Witnesses: for every obligation with hypotheses, a state and operands that meet them -/

/-- The next state of an outcome, `d` where there is none. -/
def nextOf (o : Host.Outcome State Fault Refusal) (d : State) : State :=
  match o with
  | .next t => t
  | .fault _ => d
  | .refused _ => d

theorem next_nextOf {o : Host.Outcome State Fault Refusal} {d : State} (h : nextWith o (fun _ => true) = true) :
    o = .next (nextOf o d) := by
  cases o with
  | next t => rfl
  | fault _ => exact absurd h (by simp [nextWith])
  | refused _ => exact absurd h (by simp [nextWith])

/-- A state in which every command of the table can execute normally: spans at 0, 4, 8 and 12, compact polynomials at 16, 24 and
32, ring polynomials of two coefficients of two limbs at 48, 57 and 66. -/
def rich : State :=
  let s := span (span (span (span (small [1, 2, 3, 4, 5, 6, 7, 8, 9, 10, 11, 12, 13]) 0 0 2) 1 4 2) 2 8 2) 3 12 1
  let s := cip (cipOf (cipOf s 0 16 1 4 [3, -2]) 1 24 1 4 [1, 2]) 2 32 3 0 4
  frpOf (frpOf (frpOf s 0 48 1 2 1 [5, 7]) 1 57 1 2 1 [2, 3]) 2 66 1 2 1 [1, 4]

/-- One command for every row of the opcode table, all of which execute normally in `rich`. -/
def readyCommands : List Instr :=
  [.nop, .seti 1 2, .shli 1 2, .csrr 1 0x014, .csrw 0x014 1, .ladd 0 1 2, .lsub 0 1 2, .lmul 0 1 2, .ldivrem 0 1 2 3, .lrecip 1 2,
    .ldiv1p 0 1 4 5 6, .lcopy 0 1, .lclr 0, .lcmp 1 1 2, .pbits 1 2 0, .plimbs 1 2 0, .lpack 0 0 1 1 true false,
    .lunpack 2 0 1 1 1 false false, .bpack 0 0 1 8 true false, .bunpack 2 0 1 8 1 false false, .ypack 0 0 1 1 true false,
    .yunpack 2 0 1 1 1 false false, .fadd 2 0 1, .fsub 2 0 1, .fnorm 0, .fpmul 2 0 1, .fpsqr 2 0, .frescale 0, .fsetlen 0 2,
    .flowern 0 2, .fmulrho 0 1 5, .fbfly 0 0 1 5, .ibfly 0 0 1 5, .fft 0 2, .ifft 0, .cconv 2 0 1 2, .nconv 2 0 1 2, .cmul 2 0 1,
    .kmul 2 0 1, .kmulT 2 0 1 2, .kmulTL 2 0 1 1]

theorem test_readyCommands_every_row : readyCommands.map Instr.row = opcodeTable := by decide +kernel

/-- The demands of the default table, at the commands that have one and one that has none (70_reset_and_hazards.md R268). -/
theorem test_scrNeed_default :
    ([.lmul 0 1 2, .fpmul 2 0 1, .cconv 2 0 1 2, .cmul 2 0 1, .kmulT 2 0 1 2, .fft 0 2] : List Instr).map (fun i => rich.scrNeed i)
      = [4, 6, 6, 4, 64, 0] := by decide +kernel

/-- 20_memory.md R72: neither a limb outside the operands, nor a destination, nor a scratch buffer is read; a source limb is. -/
theorem test_readData :
    ([95, 70, 54] : List Nat).all (fun a => (rich.memWrite a 1 9).readData (.fpmul 2 0 1) == rich.readData (.fpmul 2 0 1)) = true
      ∧ (rich.memWrite 48 1 9).readData (.fpmul 2 0 1) ≠ rich.readData (.fpmul 2 0 1)
      ∧ (rich.readData (.cmul 2 0 1)).drop 8 = [3, -2, 24, 1, 2, 4, 1, 2] := by decide +kernel

/-- 41_packing.md R136 to R138: the overflow limb at 50 is read by `LUNPACK`, not by `BUNPACK` and `YUNPACK`. -/
theorem test_readData_overflow :
    (rich.memWrite 50 1 9).readData (.bunpack 2 0 1 8 1 true false) = rich.readData (.bunpack 2 0 1 8 1 true false)
      ∧ (rich.memWrite 50 1 9).readData (.yunpack 2 0 1 1 1 true false) = rich.readData (.yunpack 2 0 1 1 1 true false)
      ∧ (rich.memWrite 50 1 9).readData (.lunpack 2 0 1 1 1 true false) ≠ rich.readData (.lunpack 2 0 1 1 1 true false) := by
  decide +kernel

theorem test_witness_ReadyCommandSucceeds : readyCommands.all (fun i => i.ready rich) = true := by decide +kernel

/-- Every command does succeed there. -/
theorem test_every_command_succeeds : readyCommands.all (fun i => nextWith (exec i rich) (fun t => t.err == 0)) = true := by
  decide +kernel

/-- A state in which no command with a check executes normally: regions outside memory, descriptors malformed. -/
def broken : State :=
  let s := span (span (span (span (small []) 0 97 0) 1 97 0) 2 97 0) 3 97 0
  let s := cip (cip (cip s 0 0 1 5 4) 1 0 1 5 4) 2 0 1 5 4
  frp (frp (frp s 0 0 64 1 0 0) 1 0 64 1 0 0) 2 0 64 1 0 0

/-- The commands of `readyCommands` but the three that never fail; two name a control register that does not exist, `LRECIP`
the register that holds 0. -/
def unreadyCommands : List Instr :=
  [.csrr 1 0x015, .csrw 0x000 1, .lrecip 1 0] ++ (readyCommands.drop 5).filter (fun i => decide (i ≠ .lrecip 1 2))

theorem test_witness_UnreadyCommandRaises : unreadyCommands.length = 38 ∧ unreadyCommands.all (fun i => !i.ready broken) = true := by
  decide +kernel

/-! Encoding and the step. -/

theorem test_witness_EncodeOfDecode : decode 0x27101213 = .ok (.yunpack 1 0 1 2 3 true false) := by rfl

theorem test_witness_OpcodeTableDecides_legal :
    decode 0x51201502 = .ok (.kmulTL 2 0 1 5) ∧ (⟨"KMUL.TL", 0x51000002, 0xFFCCC0FF⟩ : OpRow) ∈ opcodeTable :=
  ⟨rfl, by decide +kernel⟩

theorem test_witness_OpcodeTableDecides_illegal : decode 0x51201503 = .error .kmulMode ∧ opcodeTable ≠ [] :=
  ⟨rfl, by decide +kernel⟩

theorem test_witness_StepRunsDecodedCommand :
    (State.reset.withFetchWord 32 0x10012000).inputs = [.command 0x10012000] ∧ decode 0x10012000 = .ok (.ladd 0 1 2) :=
  ⟨rfl, rfl⟩

theorem test_witness_IllegalWordsCompleteWithError :
    (State.reset.withFetchWord 32 0x10412000).inputs = [.command 0x10412000] ∧ decode 0x10412000 = .error .slotField :=
  ⟨rfl, rfl⟩

/-- The first and last opcode of each range that the third clause names. -/
theorem test_witness_IllegalWordsCompleteWithError_opcodes :
    ([0x00, 0x06, 0x0F, 0x19, 0x1F, 0x28, 0x2F, 0x3B, 0x3F, 0x44, 0x4F, 0x52, 0xFF] : List Nat).all (fun o =>
      decide (let v := ((BitVec.ofNat 32 (o * 2 ^ 24)).extractLsb' 24 8).toNat
        v = 0x00 ∨ (0x06 ≤ v ∧ v ≤ 0x0F) ∨ (0x19 ≤ v ∧ v ≤ 0x1F) ∨ (0x28 ≤ v ∧ v ≤ 0x2F) ∨ (0x3B ≤ v ∧ v ≤ 0x3F)
          ∨ (0x44 ≤ v ∧ v ≤ 0x4F) ∨ 0x52 ≤ v)) = true := by decide +kernel

theorem test_witness_StepTakesHostInputs_idle : State.reset.inputs = [] := by rfl

/-- The last limb of memory, with a value wider than a limb, and the first address outside. -/
theorem test_witness_StepTakesHostInputs_write :
    (∃ s : State, s.inputs = [.writeLimb 95 0x1FF] ∧ 95 < s.memLimbs)
      ∧ ∃ s : State, s.inputs = [.writeLimb 96 0x1FF] ∧ s.memLimbs ≤ 96 :=
  ⟨⟨{ small [] with inputs := [.writeLimb 95 0x1FF] }, rfl, by decide +kernel⟩,
    { small [] with inputs := [.writeLimb 96 0x1FF] }, rfl, by decide +kernel⟩

theorem test_witness_reset_input : ({ rich with inputs := [.rst, .command 0x01000000] } : State).inputs
    = .rst :: [.command 0x01000000] := by rfl

/-- `rich` with a command waiting has the invariant, and its step answers a next state. -/
theorem test_witness_InvariantKeptByStep :
    ({ rich with inputs := [.command 0x10012000] } : State).Inv
      ∧ ∃ t, step { rich with inputs := [.command 0x10012000] } = .next t ∧ t.err = 0 :=
  ⟨⟨by decide +kernel, by decide +kernel, by decide +kernel, by decide +kernel, by decide +kernel⟩,
    of_nextWith (by decide +kernel)⟩

/-! Errors and frames. -/

theorem test_witness_ErrorLeavesStateUnchanged : ∃ t, exec (.lrecip 1 0) rich = .next t ∧ t.err ≠ 0 :=
  of_nextWith (by decide +kernel)

theorem test_witness_StickyErrorRecord_set :
    ∃ t, exec (.lrecip 1 0) rich = .next t ∧ t.err = BitVec.ofNat 64 ErrorKind.divisionByZero.code :=
  of_nextWith (by decide +kernel)

theorem test_witness_StickyErrorRecord_kept :
    (∃ t, exec (.csrw 0x014 1) { rich with esticky := 0x200 } = .next t ∧ t.err = 0) ∧ (∀ xs, Instr.csrw 0x014 1 ≠ .csrw 0x011 xs)
      ∧ ({ rich with esticky := 0x200 } : State).esticky.getLsbD 9 = true :=
  ⟨of_nextWith (by decide +kernel), by decide +kernel, by decide +kernel⟩

theorem test_witness_StickyErrorRecord_zeroBits :
    (∃ t, exec (.csrw 0x011 15) { rich with esticky := 0x3FE } = .next t ∧ t.err = 0)
      ∧ ({ rich with esticky := 0x3FE } : State).esticky &&& ~~~0x3FE#64 = 0 :=
  ⟨of_nextWith (by decide +kernel), by decide +kernel⟩

theorem test_witness_RegisterFrame_notWritten :
    (∃ t, exec (.pbits 1 2 0) rich = .next t ∧ t.err = 0) ∧ 3 ∉ (Instr.pbits 1 2 0).writtenRegs :=
  ⟨of_nextWith (by decide +kernel), by decide⟩

theorem test_witness_RegisterFrame_error :
    ∃ t, exec (.lrecip 1 0) rich = .next t ∧ ((1 : Reg) ∉ (Instr.lrecip 1 0).writtenRegs ∨ t.err ≠ 0) :=
  of_nextWith (by decide +kernel)

theorem test_witness_ControlRegisterFrame_notWritten :
    (∃ t, exec (.ladd 0 1 2) rich = .next t ∧ t.err = 0)
      ∧ Csr.spanLen 1 ≠ .err ∧ Csr.spanLen 1 ≠ .esticky ∧ Csr.spanLen 1 ≠ .cseq ∧ Csr.spanLen 1 ∉ (Instr.ladd 0 1 2).writtenCsrs :=
  ⟨of_nextWith (by decide +kernel), by decide⟩

theorem test_witness_ControlRegisterFrame_error :
    Csr.frpLen 0 ∈ (Instr.flowern 0 0).writtenCsrs ∧ ∃ t, exec (.flowern 0 0) rich = .next t ∧ t.err ≠ 0 :=
  ⟨by decide, of_nextWith (by decide +kernel)⟩

/-- The bytes on either side of the two limbs at 4 that `LCOPY` stores to. -/
theorem test_witness_MemoryFrame :
    (∃ t, exec (.lcopy 1 2) rich = .next t ∧ t.err = 0)
      ∧ OutsideAll (3 / rich.limbBytes) ((Instr.lcopy 1 2).stores rich)
      ∧ OutsideAll (6 / rich.limbBytes) ((Instr.lcopy 1 2).stores rich)
      ∧ ¬OutsideAll (4 / rich.limbBytes) ((Instr.lcopy 1 2).stores rich)
      ∧ ¬OutsideAll (5 / rich.limbBytes) ((Instr.lcopy 1 2).stores rich) := by
  refine ⟨of_nextWith (by decide +kernel), ?_⟩
  unfold OutsideAll
  decide +kernel

theorem test_witness_MemoryFrame_error : ∃ t, exec (.lcopy 1 0) broken = .next t ∧ t.err ≠ 0 := of_nextWith (by decide +kernel)

/-! Traps. -/

theorem test_witness_IllFormedCommandIsIllegal : (Instr.ibfly 0 2 2 1).wellFormed = false := by decide

/-- `LEN` one beyond `ALLOC`; `DEPTH` 64; `LEN` one beyond `2^DEPTH`. -/
theorem test_witness_MalformedSlotIsIllegal :
    (2 ∈ (Instr.cmul 2 0 1).cipSlots ∧ ¬(cip rich 2 32 3 5 4).CipShape 2)
      ∧ (1 ∈ (Instr.fadd 2 0 1).frpSlots ∧ ¬(frp rich 1 0 64 1 0 0).FrpShape 1)
      ∧ 0 ∈ (Instr.fnorm 0).frpSlots ∧ ¬(frp rich 0 0 1 2 3 0).FrpShape 0 := by decide +kernel

/-- No command of the table with an `IllegalCommand` condition is legal in `broken`; every command is in `rich`. -/
theorem test_witness_MalformedSlotIsIllegal_legalIn :
    ([Instr.csrr 1 0x015, .csrw 0x000 1] ++ readyCommands.drop 14).all (fun i => !i.legalIn broken) = true
      ∧ readyCommands.all (fun i => i.legalIn rich && i.regionsIn rich) = true
      ∧ (Instr.cconv 2 0 1 2).legalIn (frp rich 1 57 2 2 1 1) = false
      ∧ (Instr.fadd 2 0 1).legalIn (frp rich 1 57 1 2 1 1) = false := by decide +kernel

/-- Regions that end one limb beyond memory. -/
theorem test_witness_RegionOutsideMemoryRaises :
    (2 ∈ (Instr.ladd 0 1 2).inputSpans ∧ ¬(span rich 2 95 2).SpanIn 2)
      ∧ ((Instr.lmul 0 1 2).inputSpans ≠ [] ∧ (93, 4) ∈ (Instr.lmul 0 1 2).stores (span rich 0 93 0)
        ∧ (span rich 0 93 0).memLimbs < 93 + 4)
      ∧ (0 ∈ (Instr.pbits 1 2 0).cipSlots ∧ ¬(cip rich 0 89 1 0 4).CipIn 0
        ∧ (Instr.pbits 1 2 0).legalIn (cip rich 0 89 1 0 4) = true)
      ∧ 0 ∈ (Instr.ifft 0).frpSlots ∧ ¬(frp rich 0 88 1 2 0 1).FrpIn 0
        ∧ (Instr.ifft 0).legalIn (frp rich 0 88 1 2 0 1) = true := by decide +kernel

/-- A convolution, a packer and an addition whose `LengthOverflow` conditions fail by one. -/
theorem test_witness_RegionOutsideMemoryRaises_regionsIn :
    ((Instr.cconv 2 0 1 3).legalIn rich = true ∧ (Instr.cconv 2 0 1 3).regionsIn rich = false)
      ∧ ((Instr.bpack 0 0 1 8 true false).legalIn (frp rich 0 48 0 2 0 0) = true
        ∧ (Instr.bpack 0 0 1 8 true false).regionsIn (frp rich 0 48 0 2 0 0) = false)
      ∧ (Instr.ladd 0 1 2).legalIn (span rich 0 95 0) = true
        ∧ (Instr.ladd 0 1 2).regionsIn (span rich 0 95 0) = false := by decide +kernel

theorem test_witness_ZeroWidthRingTooSmall :
    0 ∈ (Instr.fnorm 0).frpSlots ∧ (frp rich 0 94 1 0 2 0).FrpShape 0 ∧ (frp rich 0 94 1 0 2 0).FrpIn 0
      ∧ (frp rich 0 94 1 0 2 0).frpN 0 = 0 := by decide +kernel

/-- `rich` with `N` = 0 in all three ring slots. -/
def zeroWidth : State := frp (frp (frp rich 0 48 1 0 1 1) 1 57 1 0 1 1) 2 66 1 0 1 1

/-- Every command that names an FRP slot, at the boundary of each class: all its earlier conditions hold, a block ends one limb
beyond memory, a length is one beyond `2^DEPTH`. -/
theorem test_witness_ZeroWidthRingTooSmall_classes :
    (let cs := (readyCommands.filter (fun i => !i.frpSlots.isEmpty)).map (fun i =>
        match i with
        | .flowern fd _ => Instr.flowern fd 0
        | .fmulrho fd _ xe => Instr.fmulrho fd 0 xe
        | j => j);
      cs.length = 21 ∧ (cs.filter (fun i => decide (i ≠ .fbfly 0 0 1 5 ∧ i ≠ .ibfly 0 0 1 5))).all
        (fun i => i.frpSlots.all (fun k => decide (zeroWidth.frpN k = 0)) && i.legalIn zeroWidth && i.regionsIn zeroWidth) = true)
      ∧ ((Instr.fbfly 0 0 1 5).legalIn (frp zeroWidth 0 48 1 0 2 1) = true
        ∧ (Instr.fbfly 0 0 1 5).regionsIn (frp zeroWidth 0 48 1 0 2 1) = true)
      ∧ ((Instr.cconv 2 0 1 2).legalIn (frp zeroWidth 1 94 1 0 1 1) = true
        ∧ (Instr.cconv 2 0 1 2).regionsIn (frp zeroWidth 1 94 1 0 1 1) = false)
      ∧ (Instr.fnorm 0).legalIn (frp zeroWidth 0 48 1 0 3 1) = false := by decide +kernel

/-- A divisor of two zero limbs and an empty one; registers that hold 0 and `B`. -/
theorem test_witness_ZeroDivisorRaises :
    (let s := span rich 3 90 2;
      s.SpanIn 2 ∧ s.SpanIn 3 ∧ s.SpanOut 0 (s.spanLen 2) ∧ s.SpanOut 1 (s.spanLen 3) ∧ s.spanNum 3 = 0)
      ∧ (let s := span rich 3 96 0;
      s.SpanIn 2 ∧ s.SpanIn 3 ∧ s.SpanOut 0 (s.spanLen 2) ∧ s.SpanOut 1 (s.spanLen 3) ∧ s.spanNum 3 = 0)
      ∧ rich.regNat 0 % rich.radix = 0
      ∧ (let s := rich.setReg 3 0x100;
      s.SpanIn 1 ∧ s.SpanOut 0 (s.spanLen 1) ∧ s.regNat 3 % s.radix = 0) := by decide +kernel

/-- Three slots of one geometry, empty, in a memory of 4096 limbs, register 4 holding `m`. -/
def rings (depth n scratch : Word) (m : Word) : State :=
  (frp (frp (frp { small [] with params := ⟨.w8, 4096, 64, .default⟩ } 0 0 depth n 0 scratch) 1 1000 depth n 0 scratch)
    2 2000 depth n 0 scratch).setReg 4 m

/-- `n = 1` has the roots for depth 5 and not for depth 6; `m` is the whole length. -/
theorem test_witness_TransformResourcesChecked_one :
    ((rings 6 1 1 64).FrpReady 0 ∧ (rings 6 1 1 64).regNat 4 ≤ (rings 6 1 1 64).frpSize 0
        ∧ ¬RootsExist (rings 6 1 1 64).width ((rings 6 1 1 64).frpN 0) ((rings 6 1 1 64).frpDepth 0))
      ∧ (rings 5 1 0 32).FrpReady 0 ∧ (rings 5 1 0 32).regNat 4 ≤ (rings 5 1 0 32).frpSize 0
        ∧ RootsExist (rings 5 1 0 32).width ((rings 5 1 0 32).frpN 0) ((rings 5 1 0 32).frpDepth 0)
        ∧ (rings 5 1 0 32).frpScratch 0 = 0 := by decide +kernel

theorem test_witness_TransformResourcesChecked_cconv :
    ((rings 6 1 1 64).FrpsReady 2 0 1 ∧ (rings 6 1 1 64).regNat 4 ≤ (rings 6 1 1 64).frpSize 2
        ∧ ¬RootsExist (rings 6 1 1 64).width ((rings 6 1 1 64).frpN 2) ((rings 6 1 1 64).frpDepth 2))
      ∧ ((rings 5 1 0 32).FrpsReady 2 0 1 ∧ (rings 5 1 0 32).regNat 4 ≤ (rings 5 1 0 32).frpSize 2
        ∧ RootsExist (rings 5 1 0 32).width ((rings 5 1 0 32).frpN 2) ((rings 5 1 0 32).frpDepth 2)
        ∧ (rings 5 1 0 32).frpScratch 0 = 0)
      ∧ (withScratch (rings 5 1 1 32) 3).FrpsReady 2 0 1
        ∧ ¬(withScratch (rings 5 1 1 32) 3).ScratchFits (.cconv 2 0 1 4) := by decide +kernel

theorem test_witness_TransformResourcesChecked_nconv :
    ((rings 5 1 1 32).FrpsReady 2 0 1 ∧ (rings 5 1 1 32).regNat 4 ≤ (rings 5 1 1 32).frpSize 2
        ∧ ¬RootsExist (rings 5 1 1 32).width ((rings 5 1 1 32).frpN 2) ((rings 5 1 1 32).frpDepth 2 + 1))
      ∧ ((rings 4 1 0 16).FrpsReady 2 0 1 ∧ (rings 4 1 0 16).regNat 4 ≤ (rings 4 1 0 16).frpSize 2
        ∧ RootsExist (rings 4 1 0 16).width ((rings 4 1 0 16).frpN 2) ((rings 4 1 0 16).frpDepth 2 + 1)
        ∧ (rings 4 1 0 16).frpScratch 1 = 0)
      ∧ (withScratch (rings 4 1 1 16) 3).FrpsReady 2 0 1
        ∧ ¬(withScratch (rings 4 1 1 16) 3).ScratchFits (.nconv 2 0 1 4) := by decide +kernel

/-- Products (9, 6, −4, …) into no magnitude limbs, and of three coefficients into two. -/
theorem test_witness_TooWideBeforeTooLong_product : ∀ q ∈ [ProductKind.classical, .full, .low 3, .high 1],
    ((cip rich 2 32 0 0 1).ProductLegal 2 0 1 ∧ ¬(cip rich 2 32 0 0 1).CoeffsFit 2 ((cip rich 2 32 0 0 1).productOut q 0 1))
      ∧ (cip rich 2 32 1 0 2).ProductLegal 2 0 1 ∧ (cip rich 2 32 1 0 2).CoeffsFit 2 ((cip rich 2 32 1 0 2).productOut q 0 1)
        ∧ ¬(cip rich 2 32 1 0 2).LengthFits 2 ((cip rich 2 32 1 0 2).productOut q 0 1) := by decide +kernel

theorem test_witness_TooWideBeforeTooLong_unpack : ∀ p ∈ [Packing.limbs, .bits, .bytes],
    ((cip rich 2 32 0 0 1).UnpackLegal p 2 0 1 1 1
        ∧ ¬(cip rich 2 32 0 0 1).CoeffsFit 2 ((cip rich 2 32 0 0 1).unpacked p 0 1 1 1 false false))
      ∧ (cip rich 2 32 1 0 1).UnpackLegal p 2 0 1 1 1
        ∧ (cip rich 2 32 1 0 1).CoeffsFit 2 ((cip rich 2 32 1 0 1).unpacked p 0 1 1 1 false false)
        ∧ ¬(cip rich 2 32 1 0 1).LengthFits 2 ((cip rich 2 32 1 0 1).unpacked p 0 1 1 1 false false) := by decide +kernel

/-- Width 0, and the first width whose field does not fit the two limbs; the widest that fits is accepted. -/
theorem test_witness_PackingFitChecked :
    rich.FrpReady 0 ∧ rich.CipShape 0 ∧ rich.CipIn 0 ∧ rich.cipLen 0 ≤ rich.frpSize 0 * rich.regNat 1
      ∧ (∀ p ∈ [Packing.limbs, .bits, .bytes], ¬(widthLegal p rich.width (rich.regNat 0) = true
        ∧ rich.regNat 1 * fieldWidth p rich.width (rich.regNat 0) ≤ rich.frpN 0 * rich.width))
      ∧ ¬(widthLegal .limbs rich.width (rich.regNat 3) = true
        ∧ rich.regNat 1 * fieldWidth .limbs rich.width (rich.regNat 3) ≤ rich.frpN 0 * rich.width)
      ∧ ¬(widthLegal .bits rich.width (rich.regNat 9) = true
        ∧ rich.regNat 1 * fieldWidth .bits rich.width (rich.regNat 9) ≤ rich.frpN 0 * rich.width)
      ∧ rich.PackReady .limbs 0 0 (rich.regNat 1) (rich.regNat 2) := by decide +kernel

/-- Each operand condition at its first failing value. -/
theorem test_witness_OperandConditionsChecked :
    (frp rich 1 57 1 2 1 1).frpLen 0 ≠ (frp rich 1 57 1 2 1 1).frpLen 1
      ∧ ¬((frp rich 1 57 1 1 2 1).SameGeometry 2 0 ∧ (frp rich 1 57 1 1 2 1).SameGeometry 2 1)
      ∧ ¬(frp rich 1 57 2 2 2 1).SameGeometry 2 1
      ∧ rich.frpLen 0 ≤ rich.regNat 2 ∧ rich.regNat 1 = rich.regNat 1
      ∧ rich.frpN 0 < rich.regNat 3 ∧ (rich.FrpReady 0 ∧ rich.regNat 0 = 0)
      ∧ (rich.FrpShape 0 ∧ rich.frpSize 0 < rich.regNat 3)
      ∧ (rich.FrpShape 2 ∧ rich.FrpShape 1 ∧ rich.SameGeometry 2 0 ∧ rich.SameGeometry 2 1 ∧ rich.frpSize 2 < rich.regNat 3)
      ∧ (let s := frp rich 0 48 0 2 0 0;
        s.FrpShape 0 ∧ s.CipShape 0 ∧ s.regNat 1 ≠ 0 ∧ s.frpSize 0 * s.regNat 1 + 1 = s.cipLen 0) := by decide +kernel

/-- The scratch space one limb short of each demand. -/
theorem test_witness_ScratchDemandChecked :
    (let s := withScratch rich 3;
      s.SpanIn 1 ∧ s.SpanIn 2 ∧ s.SpanOut 0 (s.spanLen 1 + s.spanLen 2)
        ∧ s.params.scrCap < s.scrNeed (.lmul 0 1 2))
      ∧ (let s := withScratch rich 5;
      s.FrpsReady 2 0 1 ∧ s.frpLen 0 = s.frpLen 1 ∧ s.params.scrCap < s.scrNeed (.fpmul 2 0 1)
        ∧ s.FrpsReady 2 0 0 ∧ s.params.scrCap < s.scrNeed (.fpsqr 2 0))
      ∧ (let s := withScratch rich 3;
      s.ProductLegal 2 0 1 ∧ s.PolyFits 2 (s.productOut .classical 0 1)
        ∧ s.params.scrCap < s.scrNeed (productInstr .classical 2 0 1))
      ∧ (let s := withScratch rich 63;
      s.ProductLegal 2 0 1 ∧ s.PolyFits 2 (s.productOut .full 0 1)
        ∧ s.params.scrCap < s.scrNeed (productInstr .full 2 0 1) ∧ s.params.scrTable = .default) := by decide +kernel

/-! System commands. -/

theorem test_witness_ImmediateCommands : ∃ t, exec (.seti 3 0x1234) rich = .next t ∧ t.reg 3 = 0x1234 :=
  of_nextWith (by decide +kernel)

/-! Limb primitives. -/

/-- Both outcomes of the checks: the destination ends with memory, and one limb beyond it. -/
theorem test_witness_AddAndSubtract :
    (Instr.ladd 0 1 2).ready (span rich 0 94 0) = true ∧ (Instr.ladd 0 1 2).ready (span rich 0 95 0) = false
      ∧ (Instr.lsub 0 1 2).ready (span rich 0 94 0) = true ∧ (Instr.lsub 0 1 2).ready (span rich 0 95 0) = false := by
  decide +kernel

theorem test_witness_MultiplyWholeProduct : (Instr.lmul 0 1 2).ready (withScratch (span rich 0 92 0) 4) = true := by decide +kernel

/-- Quotient and remainder spans that touch and share no limb, and ones that share one. -/
theorem test_witness_DivideWithRemainder :
    ((Instr.ldivrem 0 1 2 3).ready (span rich 1 2 0) = true
        ∧ Apart ((span rich 1 2 0).spanBase 0) ((span rich 1 2 0).spanLen 2) ((span rich 1 2 0).spanBase 1)
          ((span rich 1 2 0).spanLen 3))
      ∧ (Instr.ldivrem 0 1 2 3).ready (span rich 1 1 0) = true ∧ 0 < (span rich 1 1 0).spanLen 2
        ∧ (span rich 1 1 0).spanBase 0 + 0 < (span rich 1 1 0).spanBase 1 := by decide +kernel

theorem test_witness_ReciprocalOfLimb :
    rich.regNat 1 % rich.radix ≠ 0 ∧ (rich.setReg 2 0xFF).regNat 2 % rich.radix ≠ 0 := by decide +kernel

/-- The matching reciprocal of 7, and another number. -/
theorem test_witness_DivideByOneLimb :
    ((Instr.ldiv1p 0 1 7 5 6).ready (rich.setReg 5 0x24) = true
        ∧ (rich.setReg 5 0x24).regNat 5 % rich.radix = recip rich.width ((rich.setReg 5 0x24).regNat 7 % rich.radix))
      ∧ (Instr.ldiv1p 0 1 7 5 6).ready rich = true
        ∧ rich.regNat 5 % rich.radix ≠ recip rich.width (rich.regNat 7 % rich.radix) := by decide +kernel

theorem test_witness_CopyClearCompare :
    (Instr.lcopy 0 1).ready (span rich 0 94 0) = true ∧ (Instr.lcopy 0 1).ready (span rich 0 95 0) = false
      ∧ (Instr.lclr 0).ready (span rich 0 94 2) = true ∧ (Instr.lclr 0).ready (span rich 0 94 3) = false
      ∧ (Instr.lcmp 1 1 2).ready rich = true ∧ (Instr.lcmp 1 1 2).ready (span rich 2 95 2) = false
      ∧ rich.spanNum 1 < rich.spanNum 2 ∧ rich.spanNum 1 = rich.spanNum 1 := by decide +kernel

/-! Scans, packers and unpackers. -/

theorem test_witness_CoefficientScans :
    rich.CipShape 0 ∧ rich.CipIn 0 ∧ (∃ v ∈ rich.poly 0, v < 0) ∧ (∀ v ∈ rich.poly 1, 0 ≤ v) ∧ (1 : Reg) ≠ 2 := by
  decide +kernel

/-- The extreme values of signed fields of 8 bits at `P1`, and of unsigned ones at `P0`, each in a normalised polynomial. -/
def extremes : State := cipOf (cipOf rich 0 16 1 4 [0, 255]) 1 24 1 4 [-127, 127]

theorem test_witness_PackersWritePackedValues : ∀ p ∈ [Packing.limbs, .bits, .bytes],
    let xw : Reg := match p with | .limbs => 1 | .bits => 8 | .bytes => 1
    (packInstr p 0 1 2 xw true false).ready extremes = true
      ∧ InFields true (fieldWidth p extremes.width (extremes.regNat xw)) (extremes.poly 1)
      ∧ (packInstr p 0 0 2 xw false false).ready extremes = true
      ∧ InFields false (fieldWidth p extremes.width (extremes.regNat xw)) (extremes.poly 0) := by
  unfold InFields
  decide +kernel

/-- `BUNPACK` onto zeros and onto a written store, and the other two. -/
theorem test_witness_UnpackersWriteFieldSums :
    (unpackInstr .bits 2 0 1 8 1 false false).ready rich = true
      ∧ rich.memRead (rich.cipBase 2) (rich.preZeroed 2 0 (rich.regNat 1) (rich.regNat 1) * (rich.cipLimbs 2 + 1)) = 0
      ∧ (unpackInstr .bits 0 0 1 8 1 false false).ready rich = true
      ∧ rich.memRead (rich.cipBase 0) (rich.preZeroed 0 0 (rich.regNat 1) (rich.regNat 1) * (rich.cipLimbs 0 + 1)) ≠ 0
      ∧ (unpackInstr .limbs 2 0 1 1 1 true true).ready rich = true
      ∧ (unpackInstr .bytes 2 0 1 1 1 true false).ready rich = true := by decide +kernel

/-- The state after packing `P1` of `extremes`, one field to a coefficient. -/
def packed (p : Packing) (xw : Reg) : State := nextOf (exec (packInstr p 0 1 1 xw true true) extremes) extremes

/-- The state after unpacking it to `P2`. -/
def unpackedAfter (p : Packing) (xw : Reg) : State :=
  nextOf (exec (unpackInstr p 2 0 1 xw 1 true true) (packed p xw)) (packed p xw)

/-- The hypotheses of the round trip with the extreme values of the fields, for one packing. -/
def RoundTripPremises (p : Packing) (xw : Reg) : Prop :=
  exec (packInstr p 0 1 1 xw true true) extremes = .next (packed p xw) ∧ (packed p xw).err = 0
    ∧ exec (unpackInstr p 2 0 1 xw 1 true true) (packed p xw) = .next (unpackedAfter p xw) ∧ (unpackedAfter p xw).err = 0
    ∧ Normalised (extremes.poly 1)
    ∧ InFields true (fieldWidth p extremes.width (extremes.regNat xw)) ((extremes.poly 1).map (fun v => -v))
    ∧ (packed p xw).memRead (extremes.cipBase 2)
      ((packed p xw).preZeroed 2 0 (extremes.regNat 1) (extremes.regNat 1) * (extremes.cipLimbs 2 + 1)) = 0
    ∧ 2 * extremes.cipLimbs 2 < extremes.radix

theorem test_witness_PackThenUnpackRestores_limbs : RoundTripPremises .limbs 1 :=
  ⟨next_nextOf (by decide +kernel), by decide +kernel, next_nextOf (by decide +kernel), by decide +kernel,
    by unfold Normalised; decide +kernel, by unfold InFields; decide +kernel, by decide +kernel, by decide +kernel⟩

theorem test_witness_PackThenUnpackRestores_bits : RoundTripPremises .bits 8 :=
  ⟨next_nextOf (by decide +kernel), by decide +kernel, next_nextOf (by decide +kernel), by decide +kernel,
    by unfold Normalised; decide +kernel, by unfold InFields; decide +kernel, by decide +kernel, by decide +kernel⟩

theorem test_witness_PackThenUnpackRestores_bytes : RoundTripPremises .bytes 1 :=
  ⟨next_nextOf (by decide +kernel), by decide +kernel, next_nextOf (by decide +kernel), by decide +kernel,
    by unfold Normalised; decide +kernel, by unfold InFields; decide +kernel, by decide +kernel, by decide +kernel⟩

/-- What the round trip leaves in the last of these is the polynomial packed. -/
theorem test_roundTrip_bits : (unpackedAfter .bits 8).poly 2 = [-127, 127] := by decide +kernel

theorem test_witness_PackedFieldsDecode :
    InFields true 8 [-127, 127, 0] ∧ InFields false 8 [0, 255] ∧ InFields false 1 [1, 0, 1] ∧ InFields true 1 [0] := by
  unfold InFields
  decide +kernel

theorem test_witness_WrittenPolynomialReadsBack :
    extremes.HoldsPoly 1 [-127, 127] ∧ (∀ v ∈ ([-127, 127] : List Int), v.natAbs < extremes.radix ^ extremes.cipLimbs 1)
      ∧ 2 * extremes.cipLimbs 1 < extremes.radix := by
  unfold State.HoldsPoly
  decide +kernel

/-! Ring commands. -/

theorem test_witness_RawAddSubtract : (Instr.fadd 2 0 1).ready rich = true ∧ (Instr.fsub 2 0 1).ready rich = true
    ∧ 1 < rich.frpLen 0 := by decide +kernel

/-- `n = 1`, `W = 8`: a sum of 32767, the last that the overflow limb holds, and a difference of −32768, the first. -/
theorem test_witness_AddSubtractResidues :
    (let s := frpOf (frpOf rich 0 48 0 1 0 [0x7F00]) 1 57 0 1 0 [0xFF];
      let t := frpOf (frpOf rich 0 48 0 1 0 [0x8000]) 1 57 0 1 0 [0];
      0 < s.frpLen 0 ∧ sval s.width (s.frpN 0) (s.raw 0 0) + sval s.width (s.frpN 0) (s.raw 1 0) = 32767
        ∧ sval t.width (t.frpN 0) (t.raw 0 0) - sval t.width (t.frpN 0) (t.raw 1 0) = -32768
        ∧ (2 : Int) ^ (s.width - 1) * (s.radix ^ s.frpN 0 : Nat) = 32768)
      ∧ (∃ t, exec (.fadd 0 0 1) (frpOf (frpOf rich 0 48 0 1 0 [0x7F00]) 1 57 0 1 0 [0xFF]) = .next t ∧ t.err = 0)
      ∧ ∃ t, exec (.fsub 0 0 1) (frpOf (frpOf rich 0 48 0 1 0 [0x8000]) 1 57 0 1 0 [0]) = .next t ∧ t.err = 0 :=
  ⟨by decide +kernel, of_nextWith (by decide +kernel), of_nextWith (by decide +kernel)⟩

/-- Also the premise of `RescaleRemovesDepth`. -/
theorem test_witness_NormaliseKeepsValues : rich.FrpReady 0 ∧ 1 < rich.frpLen 0 := by decide +kernel

/-- Three slots with no limb in common; a square of one slot into another. -/
theorem test_witness_PointwiseProducts :
    (Instr.fpmul 2 0 1).ready rich = true ∧ (Instr.fpsqr 2 0).ready rich = true
      ∧ (∀ j ∈ [0, 1], ∀ k ∈ [1, 2], j ≠ k → Apart (rich.frpBase j) (rich.frpLen 0 * (rich.frpN 2 + 1)) (rich.frpBase k)
        (rich.frpLen 0 * (rich.frpN 2 + 1))) := by decide +kernel

/-- `m` the whole length, with the length below it; `n` unchanged and `n = 1`. -/
theorem test_witness_LengthAndWidthCommands :
    (let s := frp rich 0 48 1 2 1 1;
      s.FrpReady 0 ∧ s.regNat 2 ≤ s.frpSize 0 ∧ s.frpLen 0 ≤ 1 ∧ 1 < s.regNat 2)
      ∧ (1 ≤ rich.regNat 2 ∧ rich.regNat 2 ≤ rich.frpN 0) ∧ 1 ≤ rich.regNat 1 ∧ rich.regNat 1 ≤ rich.frpN 0 := by decide +kernel

theorem test_witness_RootOfUnity : ∃ (lw : LimbWidth) (n : Nat), 1 ≤ n ∧ lw.bits = 8 ∧ fermatMod lw.bits n = 257 :=
  ⟨.w8, 1, by decide +kernel⟩

theorem test_witness_RootMultiplication : rich.FrpReady 0 ∧ rich.regNat 1 < rich.frpLen 0 := by decide +kernel

theorem test_witness_ButterflyResults :
    rich.FrpReady 0 ∧ rich.regNat 1 < rich.frpLen 0 ∧ rich.regNat 0 < rich.frpLen 0 ∧ rich.regNat 1 ≠ rich.regNat 0 := by
  decide +kernel

theorem test_witness_ButterfliesDouble : ∃ t, exec (.fbfly 0 1 0 15) rich = .next t ∧ t.err = 0 := of_nextWith (by decide +kernel)

/-! Transforms, convolutions, products. -/

/-- All of the outputs, the first of them, and none. -/
theorem test_witness_ForwardTransform :
    (Instr.fft 0 2).ready rich = true ∧ (Instr.fft 0 1).ready rich = true ∧ (Instr.fft 0 0).ready rich = true := by decide +kernel

theorem test_witness_InverseTransform :
    (Instr.ifft 0).ready rich = true ∧ 0 < rich.frpLen 0 ∧ (Instr.ifft 0).ready (frp rich 0 48 1 2 0 1) = true := by decide +kernel

/-- A polynomial of three coefficients transformed to four values, back, and rescaled. -/
def tripStart : State := frpOf rich 0 48 2 1 1 [1, 256, 3]
def tripForward : State := nextOf (exec (.fft 0 4) tripStart) tripStart
def tripBack : State := nextOf (exec (.ifft 0) tripForward) tripForward

theorem test_witness_TransformRoundTrip :
    tripStart.frpLen 0 ≤ tripStart.regNat 4 ∧ exec (.fft 0 4) tripStart = .next tripForward ∧ tripForward.err = 0
      ∧ exec (.ifft 0) tripForward = .next tripBack ∧ tripStart.params.scrTable = .default ∧ tripBack.err = 0
      ∧ ∃ v, exec (.frescale 0) tripBack = .next v ∧ v.vals 0 = [1, 256, 3, 0] :=
  ⟨by decide +kernel, next_nextOf (by decide +kernel), by decide +kernel, next_nextOf (by decide +kernel), by decide +kernel,
    by decide +kernel, of_nextWith (by decide +kernel)⟩

theorem test_witness_Convolutions :
    (Instr.cconv 2 0 1 2).ready rich = true ∧ (Instr.nconv 2 0 1 2).ready rich = true ∧ 1 < rich.regNat 2 := by decide +kernel

theorem test_witness_TwiddlesAndBitReversal :
    (1 ≤ 1 ∧ 2 ^ 0 ∣ 4 * 1 * LimbWidth.w8.bits ∧ 2 ^ 5 ∣ 4 * 1 * LimbWidth.w8.bits) ∧ 0 < 1 ∧ 31 < 2 ^ 5 := by decide

theorem test_witness_ProductCommands :
    ∀ q ∈ [ProductKind.classical, .full, .low 2, .high 1], (productInstr q 2 0 1).ready rich = true := by decide +kernel

end Sys2Proof.Tests
end

/-! The effect of every command under one name, what it does to `ESTICKY` (10_state.md R33), and the statement about that record. -/

namespace Sys2Proof

open Machine

/-- The effect of a command, which `command` completes. -/
def Instr.effect (i : Instr) (s : State) : Except ErrorKind State :=
  match i with
  | .nop => .ok s
  | .seti xd imm => .ok (s.setReg xd (imm.setWidth 64))
  | .shli xd imm => .ok (s.setReg xd (s.reg xd * 0x10000 + imm.setWidth 64))
  | .csrr xd c => csrrBody xd c s
  | .csrw c xs => csrwBody c xs s
  | .ladd sd sa sb => laddBody sd sa sb s
  | .lsub sd sa sb => lsubBody sd sa sb s
  | .lmul sd sa sb => lmulBody sd sa sb s
  | .ldivrem sq sr sa sv => ldivremBody sq sr sa sv s
  | .lrecip xd xs => lrecipBody xd xs s
  | .ldiv1p sq sa xv xi xr => ldiv1pBody sq sa xv xi xr s
  | .lcopy sd sa => lcopyBody sd sa s
  | .lclr sd => lclrBody sd s
  | .lcmp xd sa sb => lcmpBody xd sa sb s
  | .pbits xd xs pa => pbitsBody xd xs pa s
  | .plimbs xd xs pa => plimbsBody xd xs pa s
  | .lpack fd pa xb xw sgn neg => packBody .limbs fd pa xb xw sgn neg s
  | .lunpack pd fa xb xw xc sgn neg => unpackBody i .limbs pd fa xb xw xc sgn neg s
  | .bpack fd pa xb xw sgn neg => packBody .bits fd pa xb xw sgn neg s
  | .bunpack pd fa xb xw xc sgn neg => bunpackBody pd fa xb xw xc sgn neg s
  | .ypack fd pa xb xw sgn neg => packBody .bytes fd pa xb xw sgn neg s
  | .yunpack pd fa xb xw xc sgn neg => unpackBody i .bytes pd fa xb xw xc sgn neg s
  | .fadd fd fa fb => rawBody fd fa fb (fun a b => a + b) s
  | .fsub fd fa fb => rawBody fd fa fb (fun a b => a - b) s
  | .fnorm fd => fnormBody fd s
  | .fpmul fd fa fb => pointwiseBody fd fa fb i s
  | .fpsqr fd fa => pointwiseBody fd fa fa i s
  | .frescale fd => frescaleBody fd s
  | .fsetlen fd xm => fsetlenBody fd xm s
  | .flowern fd xn => flowernBody fd xn s
  | .fmulrho fd xi xe => fmulrhoBody fd xi xe s
  | .fbfly fd xi xj xe => fbflyBody fd xi xj xe s
  | .ibfly fd xi xj xe => ibflyBody fd xi xj xe s
  | .fft fd xm => fftBody fd xm s
  | .ifft fd => ifftBody fd s
  | .cconv fd fa fb xm => convBody fd fa fb xm 0 i cyclicCoeff s
  | .nconv fd fa fb xm => convBody fd fa fb xm 1 i negacyclicCoeff s
  | .cmul pd pa pb => productBody pd pa pb i fullProduct s
  | .kmul pd pa pb => productBody pd pa pb i s.controlled s
  | .kmulT pd pa pb xt => productBody pd pa pb i (fun a b => truncate (s.controlled a b) (s.reg xt).toNat) s
  | .kmulTL pd pa pb xt => productBody pd pa pb i (fun a b => truncateLeft (s.controlled a b) (s.reg xt).toNat) s

namespace Machine

/-- Every command is its effect, completed. -/
theorem exec_eq_command (i : Instr) (s : State) : exec i s = command s (i.effect s) := by
  cases i <;> rfl

/-- What a command that answers a next state can have done: its effect and a completion, or a completion with an error. -/
theorem exec_next {i : Instr} {s t : State} :
    exec i s = .next t ↔ (∃ u, i.effect s = .ok u ∧ t = u.complete none)
      ∨ ∃ k, i.effect s = .error k ∧ t = s.complete (some k) := by
  rw [exec_eq_command, command_next]

/-! The shared writes leave `ESTICKY` alone. -/

section
variable (s : State)

@[simp] theorem State.writeSpan_esticky (k : SpanIx) (m v : Nat) : (s.writeSpan k m v).esticky = s.esticky := rfl

@[simp] theorem State.writeDivision_esticky (sq sr : SpanIx) (la lv q r : Nat) :
    (s.writeDivision sq sr la lv q r).esticky = s.esticky := rfl

@[simp] theorem State.writePoly_esticky (k : CipIx) (out : List Int) : (s.writePoly k out).esticky = s.esticky := by
  simp [State.writePoly]

@[simp] theorem State.freePoly_esticky (k : CipIx) (m : Nat) : (s.freePoly k m).esticky = s.esticky := rfl

@[simp] theorem State.writeCoeff_esticky (k : FrpIx) (i v : Nat) : (s.writeCoeff k i v).esticky = s.esticky := rfl

@[simp] theorem State.writePair_esticky (k : FrpIx) (i j u v : Nat) : (s.writePair k i j u v).esticky = s.esticky := rfl

@[simp] theorem State.writeCoeffs_esticky (k : FrpIx) (vs : List Nat) : (s.writeCoeffs k vs).esticky = s.esticky := by
  simp [State.writeCoeffs]

@[simp] theorem State.writePointwise_esticky (fd fa fb : FrpIx) : (s.writePointwise fd fa fb).esticky = s.esticky := by
  simp [State.writePointwise]

@[simp] theorem State.freeFrom_esticky (k : FrpIx) (m : Nat) : (s.freeFrom k m).esticky = s.esticky := rfl

@[simp] theorem State.freeBlock_esticky (k : FrpIx) : (s.freeBlock k).esticky = s.esticky := rfl

@[simp] theorem State.writeTransform_esticky (k : FrpIx) (vs : List Nat) : (s.writeTransform k vs).esticky = s.esticky := by
  simp [State.writeTransform]

end

/-! The write of `ESTICKY` itself. -/

theorem Csr.ofSpanOffset_ne_esticky (o : Nat) : Csr.ofSpanOffset o ≠ .esticky := by
  unfold Csr.ofSpanOffset; split <;> nofun

theorem Csr.ofCipOffset_ne_esticky (o : Nat) : Csr.ofCipOffset o ≠ .esticky := by
  unfold Csr.ofCipOffset
  repeat' split
  all_goals nofun

theorem Csr.ofFrpOffset_ne_esticky (o : Nat) : Csr.ofFrpOffset o ≠ some .esticky := by
  unfold Csr.ofFrpOffset
  repeat' split
  all_goals nofun

/-- Only the number `0x011` names `ESTICKY` (10_state.md R36). -/
theorem Csr.ofNumber_eq_esticky {c : CsrNum} : Csr.ofNumber c = some .esticky ↔ c = 0x011 := by
  refine ⟨fun h => ?_, fun h => h ▸ rfl⟩
  by_contra hc
  have hv : c.toNat ≠ 0x011 := fun hv => hc (BitVec.eq_of_toNat_eq hv)
  simp [Csr.ofNumber, hv, ite_eq_iff, Csr.ofSpanOffset_ne_esticky, Csr.ofCipOffset_ne_esticky,
    Csr.ofFrpOffset_ne_esticky] at h

/-- A write of a control register other than `ESTICKY` leaves that one alone. -/
theorem State.writeCsr_esticky_of_ne {s u : State} {c : Csr} {v : Word} (hc : c ≠ .esticky) (h : s.writeCsr c v = some u) :
    u.esticky = s.esticky := by
  cases c
  case lauid | pw | pmem | pscr | err | cseq => cases h
  case esticky => exact absurd rfl hc
  all_goals cases h; rfl

/-- `CSRW` to `ESTICKY` is legal in every state and is write one to clear (10_state.md R33). -/
theorem csrwBody_esticky (s : State) (xs : Reg) :
    csrwBody 0x011 xs s = .ok { s with esticky := s.esticky &&& ~~~s.reg xs } :=
  csrwBody_ok.2 ⟨.esticky, Csr.ofNumber_eq_esticky.2 rfl, rfl⟩

/-- `CSRW` to any other number leaves `ESTICKY` alone. -/
theorem csrwBody_esticky_of_ne {s u : State} {c : CsrNum} {xs : Reg} (hc : c ≠ 0x011) (h : csrwBody c xs s = .ok u) :
    u.esticky = s.esticky := by
  obtain ⟨x, hx, hu⟩ := csrwBody_ok.1 h
  exact State.writeCsr_esticky_of_ne (fun hxe => hc (Csr.ofNumber_eq_esticky.1 (hxe ▸ hx))) hu

/-! What a command does to `ESTICKY`. -/

/-- The effect of every command but `CSRW` to `ESTICKY` leaves that register alone. -/
theorem effect_esticky_of_ne {i : Instr} {s u : State} (hi : ∀ xs, i ≠ .csrw 0x011 xs) (h : i.effect s = .ok u) :
    u.esticky = s.esticky := by
  cases i
  case nop | seti | shli => cases h; rfl
  case csrr => obtain ⟨_, -, rfl⟩ := csrrBody_ok.1 h; rfl
  case csrw c xs => exact csrwBody_esticky_of_ne (fun hc => hi xs (hc ▸ rfl)) h
  case ladd => obtain ⟨-, rfl⟩ := laddBody_ok.1 h; simp
  case lsub => obtain ⟨-, rfl⟩ := lsubBody_ok.1 h; simp
  case lmul => obtain ⟨-, rfl⟩ := lmulBody_ok.1 h; simp
  case ldivrem => obtain ⟨-, rfl⟩ := ldivremBody_ok.1 h; simp
  case lrecip => obtain ⟨-, rfl⟩ := lrecipBody_ok.1 h; simp
  case ldiv1p => obtain ⟨-, rfl⟩ := ldiv1pBody_ok.1 h; split <;> simp
  case lcopy => obtain ⟨-, rfl⟩ := lcopyBody_ok.1 h; simp
  case lclr => obtain ⟨-, rfl⟩ := lclrBody_ok.1 h; simp
  case lcmp => obtain ⟨-, rfl⟩ := lcmpBody_ok.1 h; simp
  case pbits => obtain ⟨-, rfl⟩ := pbitsBody_ok.1 h; simp
  case plimbs => obtain ⟨-, rfl⟩ := plimbsBody_ok.1 h; simp
  case lpack | bpack | ypack => obtain ⟨-, rfl⟩ := packBody_ok.1 h; split <;> simp
  case lunpack | yunpack => obtain ⟨-, rfl⟩ := unpackBody_ok.1 h; simp
  case bunpack => obtain ⟨-, rfl⟩ := bunpackBody_ok.1 h; split <;> simp
  case fadd | fsub => obtain ⟨-, rfl⟩ := rawBody_ok.1 h; simp
  case fnorm => obtain ⟨-, rfl⟩ := fnormBody_ok.1 h; simp
  case fpmul | fpsqr => obtain ⟨-, rfl⟩ := pointwiseBody_ok.1 h; simp
  case frescale => obtain ⟨-, rfl⟩ := frescaleBody_ok.1 h; simp
  case fsetlen => obtain ⟨-, rfl⟩ := fsetlenBody_ok.1 h; simp
  case flowern => obtain ⟨-, rfl⟩ := flowernBody_ok.1 h; simp
  case fmulrho => obtain ⟨-, rfl⟩ := fmulrhoBody_ok.1 h; simp
  case fbfly => obtain ⟨-, rfl⟩ := fbflyBody_ok.1 h; simp
  case ibfly => obtain ⟨-, rfl⟩ := ibflyBody_ok.1 h; simp
  case fft => obtain ⟨-, rfl⟩ := fftBody_ok.1 h; simp
  case ifft => obtain ⟨-, rfl⟩ := ifftBody_ok.1 h; simp
  case cconv | nconv => obtain ⟨-, rfl⟩ := convBody_ok.1 h; simp
  case cmul | kmul | kmulT | kmulTL =>
    rw [Instr.effect, productBody_ok] at h
    rw [h.2, State.writePoly_esticky]

/-- `CSRW` to `ESTICKY` answers one state, without error. -/
theorem exec_csrw_esticky (s : State) (xs : Reg) :
    exec (.csrw 0x011 xs) s = .next (({ s with esticky := s.esticky &&& ~~~s.reg xs } : State).complete none) := by
  rw [exec_eq_command, Instr.effect, csrwBody_esticky, command_ok]

/-- All that a command can do to `ERR` and `ESTICKY`: keep the record, set the bit of the error raised, or clear it as told. -/
theorem exec_err_esticky {i : Instr} {s t : State} (h : exec i s = .next t) :
    (t.err = 0 ∧ t.esticky = s.esticky)
      ∨ (∃ k : ErrorKind, t.err = BitVec.ofNat 64 k.code ∧ t.esticky = s.esticky ||| BitVec.twoPow 64 k.code)
      ∨ ∃ xs, i = .csrw 0x011 xs ∧ t.err = 0 ∧ t.esticky = s.esticky &&& ~~~s.reg xs := by
  by_cases hi : ∃ xs, i = .csrw 0x011 xs
  · obtain ⟨xs, rfl⟩ := hi
    rw [exec_csrw_esticky] at h
    cases h
    exact .inr (.inr ⟨xs, rfl, rfl, rfl⟩)
  · obtain ⟨u, hu, rfl⟩ | ⟨k, -, rfl⟩ := exec_next.1 h
    · exact .inl ⟨rfl, (effect_esticky_of_ne (not_exists.1 hi) hu :)⟩
    · exact .inr (.inl ⟨k, rfl, rfl⟩)

/-! The codes. -/

/-- The codes are 1 to 9 (60_exceptions.md R231). -/
theorem ErrorKind.code_bounds (k : ErrorKind) : 1 ≤ k.code ∧ k.code ≤ 9 := by
  cases k <;> decide

/-- A code is read back from the word that holds it. -/
theorem ErrorKind.toNat_code (k : ErrorKind) : (BitVec.ofNat 64 k.code).toNat = k.code := by
  have := k.code_bounds
  rw [BitVec.toNat_ofNat, Nat.mod_eq_of_lt (by omega)]

theorem ErrorKind.code_word_ne_zero (k : ErrorKind) : BitVec.ofNat 64 k.code ≠ 0 := by
  intro h
  have hz : k.code = 0 := k.toNat_code ▸ congrArg BitVec.toNat h
  have := k.code_bounds
  omega

/-- A code names no bit of `ESTICKY` that is always zero. -/
theorem ErrorKind.twoPow_code_and (k : ErrorKind) : BitVec.twoPow 64 k.code &&& ~~~0x3FE#64 = 0 := by
  cases k <;> decide

/-! The sentences of 10_state.md R33. -/

theorem exec_sets_sticky_bit {i : Instr} {s t : State} {k : ErrorKind} (h : exec i s = .next t)
    (hk : t.err = BitVec.ofNat 64 k.code) : t.esticky.getLsbD k.code = true := by
  obtain ⟨he, -⟩ | ⟨l, he, hs⟩ | ⟨_, -, he, -⟩ := exec_err_esticky h
  · exact absurd (hk.symm.trans he) k.code_word_ne_zero
  · have hkl : k.code = l.code := by rw [← k.toNat_code, ← hk, he, l.toNat_code]
    have hlt : l.code < 64 := by have := l.code_bounds; omega
    rw [hs, hkl, BitVec.getLsbD_or, BitVec.getLsbD_twoPow]
    simp [hlt]
  · exact absurd (hk.symm.trans he) k.code_word_ne_zero

theorem exec_keeps_sticky_bit {i : Instr} {s t : State} {j : Nat} (h : exec i s = .next t)
    (hi : ∀ xs, i ≠ .csrw 0x011 xs) (hj : s.esticky.getLsbD j = true) : t.esticky.getLsbD j = true := by
  obtain ⟨-, hs⟩ | ⟨k, -, hs⟩ | ⟨xs, rfl, -⟩ := exec_err_esticky h
  · rw [hs, hj]
  · rw [hs, BitVec.getLsbD_or, hj, Bool.true_or]
  · exact absurd rfl (hi xs)

theorem exec_keeps_esticky_zero_bits {i : Instr} {s t : State} (h : exec i s = .next t)
    (hz : s.esticky &&& ~~~0x3FE#64 = 0) : t.esticky &&& ~~~0x3FE#64 = 0 := by
  obtain ⟨-, hs⟩ | ⟨k, -, hs⟩ | ⟨xs, -, -, hs⟩ := exec_err_esticky h
  · rw [hs, hz]
  · rw [hs, BitVec.and_comm, BitVec.and_or_distrib_left, BitVec.and_comm _ s.esticky, hz, BitVec.and_comm, k.twoPow_code_and]
    rfl
  · rw [hs, BitVec.and_assoc, BitVec.and_comm (~~~s.reg xs), ← BitVec.and_assoc, hz]
    exact BitVec.zero_and

theorem exec_csrw_esticky_clears (s : State) (xs : Reg) : ∃ t, exec (.csrw 0x011 xs) s = .next t ∧ t.err = 0
    ∧ ∀ j, t.esticky.getLsbD j = (s.esticky.getLsbD j && !(s.reg xs).getLsbD j) := by
  refine ⟨_, exec_csrw_esticky s xs, rfl, fun j => ?_⟩
  simp only [State.complete_none_esticky, BitVec.getLsbD_and, BitVec.getLsbD_not]
  by_cases hj : j < 64
  · simp [hj]
  · simp [BitVec.getLsbD_of_ge s.esticky j (by omega)]

theorem State.faultLine_iff (s : State) : s.faultLine = true ↔ s.esticky ≠ 0 := decide_eq_true_iff

/-- Settles O15: `exec_err_esticky` says all that a command can do to `ERR` and `ESTICKY`, and each clause is read off it. -/
theorem stickyErrorRecord : Obligations.StickyErrorRecord :=
  ⟨fun _ _ _ _ => exec_sets_sticky_bit, fun _ _ _ _ => exec_keeps_sticky_bit, fun _ _ _ => exec_keeps_esticky_zero_bits,
    exec_csrw_esticky_clears, State.faultLine_iff, rfl⟩

end Machine

end Sys2Proof

/-! The decoder inverts the encoder (30_encoding.md R86, R88): the word of a command is the one word that decodes to it. -/

namespace Sys2Proof

/-! A word and its fields. -/

theorem Fields.word_ofWord (w : CmdWord) : (Fields.ofWord w).word = w := by
  simp only [Fields.word, Fields.ofWord]
  ext i hi
  grind

theorem Fields.ofWord_word (f : Fields) : Fields.ofWord f.word = f := by
  obtain ⟨op, a, b, c, d, fn⟩ := f
  simp only [Fields.ofWord, Fields.word, Fields.mk.injEq]
  refine ⟨?_, ?_, ?_, ?_, ?_, ?_⟩ <;> ext i hi <;> grind

/-- The fields in the grouping in which the rules print a word. -/
theorem Fields.word_eq_append (f : Fields) : f.word = f.op ++ f.a ++ f.b ++ f.c ++ f.d ++ f.fn := by
  simp only [Fields.word]
  ext i hi
  grind

/-- `imm16` is read back from the three fields over which a format I word lays it. -/
theorem Fields.imm16_mk (op : BitVec 8) (a b : BitVec 4) (v : Imm16) :
    (Fields.mk op a b (v.extractLsb' 12 4) (v.extractLsb' 8 4) (v.extractLsb' 0 8)).imm16 = v := by
  simp only [Fields.imm16]
  ext i hi
  grind

theorem Fields.imm16_extract (f : Fields) :
    f.imm16.extractLsb' 12 4 = f.c ∧ f.imm16.extractLsb' 8 4 = f.d ∧ f.imm16.extractLsb' 0 8 = f.fn := by
  simp only [Fields.imm16]
  refine ⟨?_, ?_, ?_⟩ <;> ext i hi <;> grind

/-- `csr` is read back from the three fields over which a format C word lays it. -/
theorem Fields.csr_mk (op : BitVec 8) (a : BitVec 4) (v : CsrNum) (fn : BitVec 8) :
    (Fields.mk op a (v.extractLsb' 8 4) (v.extractLsb' 4 4) (v.extractLsb' 0 4) fn).csr = v := by
  simp only [Fields.csr]
  ext i hi
  grind

theorem Fields.csr_extract (f : Fields) :
    f.csr.extractLsb' 8 4 = f.b ∧ f.csr.extractLsb' 4 4 = f.c ∧ f.csr.extractLsb' 0 4 = f.d := by
  simp only [Fields.csr]
  refine ⟨?_, ?_, ?_⟩ <;> ext i hi <;> grind

/-! What each field's decoder accepts. -/

@[simp] theorem regBits_regField (x : BitVec 4) : regBits (regField x) = x := rfl

@[simp] theorem regField_regBits (r : Reg) : regField (regBits r) = r := rfl

theorem slotField_ok {x : BitVec 4} {k : Fin 4} : slotField x = .ok k ↔ x = slotBits k := by
  revert x k; decide

@[simp] theorem slotField_slotBits (k : Fin 4) : slotField (slotBits k) = .ok k := slotField_ok.2 rfl

@[simp] theorem zeroField_zero : zeroField 0#4 = .ok () := rfl

theorem zeroField_ok {x : BitVec 4} {u : Unit} : zeroField x = .ok u ↔ x = 0 := by simp [zeroField]

@[simp] theorem fnNone_zero : fnNone 0#8 = .ok () := rfl

theorem fnNone_ok {x : BitVec 8} {u : Unit} : fnNone x = .ok u ↔ x = 0 := by simp [fnNone]

@[simp] theorem fnReg_fnBits (r : Reg) : fnReg (fnBits (regBits r) false false) = .ok r := by
  revert r; decide

@[simp] theorem fnFlags_fnBits (s n : Bool) : fnFlags (fnBits 0#4 s n) = .ok (s, n) := by
  revert s n; decide

@[simp] theorem fnRegFlags_fnBits (r : Reg) (s n : Bool) : fnRegFlags (fnBits (regBits r) s n) = .ok (r, s, n) := by
  revert r s n; decide

/-- An `fn` with bits 7:6 clear is its register and its two flags (30_encoding.md R85). -/
theorem fnBits_extract {x : BitVec 8} (h : x.extractLsb' 6 2 = 0) :
    fnBits (x.extractLsb' 0 4) (x.getLsbD 4) (x.getLsbD 5) = x := by
  revert x; decide +kernel

theorem fn_flag_bits_clear {x : BitVec 8} (h : x.extractLsb' 4 4 = 0) :
    x.extractLsb' 6 2 = 0 ∧ x.getLsbD 4 = false ∧ x.getLsbD 5 = false := by
  revert x; decide +kernel

theorem fnReg_ok {x : BitVec 8} {r : Reg} : fnReg x = .ok r ↔ x = fnBits (regBits r) false false := by
  refine ⟨fun h => ?_, fun h => h ▸ fnReg_fnBits r⟩
  rw [fnReg] at h
  split at h <;> cases h
  next hx =>
    obtain ⟨h6, h4, h5⟩ := fn_flag_bits_clear hx
    simpa only [h4, h5, regBits_regField] using (fnBits_extract h6).symm

theorem fnFlags_ok {x : BitVec 8} {p : Bool × Bool} : fnFlags x = .ok p ↔ x = fnBits 0#4 p.1 p.2 := by
  refine ⟨fun h => ?_, fun h => h ▸ fnFlags_fnBits p.1 p.2⟩
  rw [fnFlags] at h
  split at h <;> cases h
  next hx =>
    have hb := fnBits_extract hx.1
    rw [hx.2] at hb
    exact hb.symm

theorem fnRegFlags_ok {x : BitVec 8} {p : Reg × Bool × Bool} :
    fnRegFlags x = .ok p ↔ x = fnBits (regBits p.1) p.2.1 p.2.2 := by
  refine ⟨fun h => ?_, fun h => h ▸ fnRegFlags_fnBits p.1 p.2.1 p.2.2⟩
  rw [fnRegFlags] at h
  split at h <;> cases h
  next hx => exact (fnBits_extract hx).symm

theorem Opcode.ofCode_ok {x : BitVec 8} {o : Opcode} : Opcode.ofCode x = some o ↔ x = o.code := by
  constructor
  · intro h
    rw [Opcode.ofCode] at h
    exact (of_decide_eq_true (List.find?_some (p := fun o => decide (Opcode.code o = x)) h)).symm
  · rintro rfl
    cases o <;> rfl

@[simp] theorem Opcode.ofCode_code (o : Opcode) : Opcode.ofCode o.code = some o := Opcode.ofCode_ok.2 rfl

section
variable {α β : Type} {a : α} {b : β} {f : α → Except Illegal β}

theorem decode_bind_ok {x : Except Illegal α} : (x >>= f) = .ok b ↔ ∃ a, x = .ok a ∧ f a = .ok b := by
  cases x <;> simp [bind, Except.bind]

@[simp] theorem decode_ok_bind : ((.ok a : Except Illegal α) >>= f) = f a := rfl

theorem decode_pure_ok {a' : α} : (pure a : Except Illegal α) = .ok a' ↔ a = a' := by simp [pure, Except.pure]

end

/-! The decoder and the encoder. -/

theorem decodeFields_encodeFields (i : Instr) : decodeFields (encodeFields i) = .ok i := by
  cases i <;>
    simp [encodeFields, rFields, iFields, cFields, decodeFields, decodeOp, Fields.imm16_mk, Fields.csr_mk]

/-- The opcode of `KMUL` stands for three rows, told apart by `fn` (30_encoding.md R88). -/
theorem encodeFields_of_decode_kmul {f : Fields} {i : Instr} (hf : f.op = Opcode.kmul.code)
    (h : decodeOp .kmul f = .ok i) : encodeFields i = f := by
  obtain ⟨op, a, b, c, d, fn⟩ := f
  simp only [decodeOp, decode_bind_ok, slotField_ok] at h hf
  obtain ⟨pd, rfl, pa, rfl, pb, rfl, h⟩ := h
  subst hf
  split at h
  next hfn =>
    simp only [decode_bind_ok, decode_pure_ok, zeroField_ok] at h
    obtain ⟨-, rfl, rfl⟩ := h
    exact hfn ▸ rfl
  split at h
  next hfn => cases h; exact hfn ▸ rfl
  split at h
  next hfn => cases h; exact hfn ▸ rfl
  split at h <;> cases h

/-- Decoding a row turns each of its checks into the value of a field, and these values are the encoder's. -/
theorem encodeFields_of_decodeOp {o : Opcode} {f : Fields} {i : Instr} (hf : f.op = o.code)
    (h : decodeOp o f = .ok i) : encodeFields i = f := by
  cases o
  case kmul => exact encodeFields_of_decode_kmul hf h
  all_goals
    obtain ⟨op, a, b, c, d, fn⟩ := f
    simp only [decodeOp, decode_bind_ok, decode_pure_ok, slotField_ok, zeroField_ok, fnNone_ok, fnReg_ok, fnFlags_ok,
      fnRegFlags_ok, exists_const] at h
    casesm* ∃ _, _, _ ∧ _
    subst_vars
    simp_all only [encodeFields, rFields, iFields, cFields, Fields.imm16_extract, Fields.csr_extract, regBits_regField,
      BitVec.ofNat_eq_ofNat]

/-- A word decodes to a command exactly when it is that command's word. -/
theorem decode_ok {w : CmdWord} {i : Instr} : decode w = .ok i ↔ w = encode i := by
  constructor
  · intro h
    rw [decode, decodeFields] at h
    split at h
    · cases h
    · next o ho => rw [encode, encodeFields_of_decodeOp (Opcode.ofCode_ok.1 ho) h, Fields.word_ofWord]
  · rintro rfl
    rw [decode, encode, Fields.ofWord_word, decodeFields_encodeFields]

/-- The same in the grouping in which the rules print the word. -/
theorem decode_ok_iff_append {w : CmdWord} {i : Instr} :
    decode w = .ok i ↔ w = (encodeFields i).op ++ (encodeFields i).a ++ (encodeFields i).b ++ (encodeFields i).c
      ++ (encodeFields i).d ++ (encodeFields i).fn := by
  rw [decode_ok, encode, Fields.word_eq_append]

/-- Two zero fields side by side are one. -/
theorem append_zero_append_zero {n : Nat} (x : BitVec n) (k l : Nat) :
    x ++ 0#k ++ 0#l = (x ++ 0#(k + l)).cast (Nat.add_assoc n k l).symm := by
  rw [BitVec.append_assoc, BitVec.zero_append_zero]

/-- Fields `c` and `d` unused, as the row prints them. -/
theorem append_zero_fields_two (x : BitVec 16) (fn : BitVec 8) : x ++ 0#4 ++ 0#4 ++ fn = x ++ 0#8 ++ fn :=
  congrArg (· ++ fn) (append_zero_append_zero x 4 4)

/-- Fields `b`, `c` and `d` unused, as the row prints them. -/
theorem append_zero_fields_three (x : BitVec 12) (fn : BitVec 8) :
    x ++ 0#4 ++ 0#4 ++ 0#4 ++ fn = x ++ 0#12 ++ fn :=
  congrArg (· ++ fn) ((congrArg (· ++ 0#4) (append_zero_append_zero x 4 4)).trans (append_zero_append_zero x 8 4))

end Sys2Proof

/-! The limb primitives that add, subtract, copy, clear and compare (40_limb_primitives.md R101, R102, R107 to R109). -/

namespace Sys2Proof.Machine

/-! What a command answers, from its effect. -/

theorem exec_of_effect_ok {i : Instr} {s u : State} (h : i.effect s = .ok u) : exec i s = .next (u.complete none) := by
  rw [exec_eq_command, h, command_ok]

theorem exec_of_effect_error {i : Instr} {s : State} {k : ErrorKind} (h : i.effect s = .error k) :
    exec i s = .next (s.complete (some k)) := by
  rw [exec_eq_command, h, command_error]

/-! The one error of the five commands (40_limb_primitives.md R101, R102, R107 to R109). -/

section
variable {s : State} {k : ErrorKind}

theorem addSubCheck_error {sd sa sb : SpanIx} : addSubCheck sd sa sb s = .error k
    ↔ ¬(s.SpanIn sa ∧ s.SpanIn sb ∧ s.SpanOut sd (max (s.spanLen sa) (s.spanLen sb))) ∧ k = .lengthOverflow := by
  simp only [addSubCheck, require_bind_error, require_error]
  tauto

theorem laddBody_error {sd sa sb : SpanIx} :
    laddBody sd sa sb s = .error k ↔ (Instr.ladd sd sa sb).ready s = false ∧ k = .lengthOverflow := by
  simp only [laddBody, bind_error_iff, addSubCheck_error, pure_ne_error, and_false, exists_const, or_false, Instr.ready,
    decide_eq_false_iff_not]

theorem lsubBody_error {sd sa sb : SpanIx} :
    lsubBody sd sa sb s = .error k ↔ (Instr.lsub sd sa sb).ready s = false ∧ k = .lengthOverflow := by
  simp only [lsubBody, bind_error_iff, addSubCheck_error, pure_ne_error, and_false, exists_const, or_false, Instr.ready,
    decide_eq_false_iff_not]

theorem lcopyBody_error {sd sa : SpanIx} :
    lcopyBody sd sa s = .error k ↔ (Instr.lcopy sd sa).ready s = false ∧ k = .lengthOverflow := by
  simp only [lcopyBody, require_bind_error, pure_ne_error, Instr.ready, decide_eq_false_iff_not]
  tauto

theorem lclrBody_error {sd : SpanIx} :
    lclrBody sd s = .error k ↔ (Instr.lclr sd).ready s = false ∧ k = .lengthOverflow := by
  simp only [lclrBody, require_bind_error, pure_ne_error, Instr.ready, decide_eq_false_iff_not]
  tauto

theorem lcmpBody_error {xd : Reg} {sa sb : SpanIx} :
    lcmpBody xd sa sb s = .error k ↔ (Instr.lcmp xd sa sb).ready s = false ∧ k = .lengthOverflow := by
  simp only [lcmpBody, require_bind_error, pure_ne_error, Instr.ready, decide_eq_false_iff_not]
  tauto

end

/-! Spans and the flag through the shared writes and a completion. -/

section
variable (s : State)

theorem State.spanLen_lt (k : SpanIx) : s.spanLen k < 2 ^ 64 := BitVec.isLt _

theorem State.radix_pos : 0 < s.radix := Nat.two_pow_pos _

theorem State.spanNum_lt_radix_pow {k : SpanIx} {m : Nat} (h : s.spanLen k ≤ m) : s.spanNum k < s.radix ^ m :=
  (s.memRead_lt _ _).trans_le (Nat.pow_le_pow_right s.radix_pos h)

/-- Both operands of an addition or subtraction fit the `max(la, lb)` limbs it writes. -/
theorem State.spanNum_lt_radix_pow_max (sa sb : SpanIx) :
    s.spanNum sa < s.radix ^ max (s.spanLen sa) (s.spanLen sb)
      ∧ s.spanNum sb < s.radix ^ max (s.spanLen sa) (s.spanLen sb) :=
  ⟨s.spanNum_lt_radix_pow (le_max_left _ _), s.spanNum_lt_radix_pow (le_max_right _ _)⟩

@[simp] theorem State.spanLen_complete (e : Option ErrorKind) (k : SpanIx) : (s.complete e).spanLen k = s.spanLen k := rfl
@[simp] theorem State.spanNum_complete (e : Option ErrorKind) (k : SpanIx) : (s.complete e).spanNum k = s.spanNum k := rfl
@[simp] theorem State.regNat_complete (e : Option ErrorKind) (r : Reg) : (s.complete e).regNat r = s.regNat r := rfl
@[simp] theorem State.spanLen_setFlagC (c : Bool) (k : SpanIx) : (s.setFlagC c).spanLen k = s.spanLen k := rfl
@[simp] theorem State.spanNum_setFlagC (c : Bool) (k : SpanIx) : (s.setFlagC c).spanNum k = s.spanNum k := rfl

theorem State.spanLen_writeSpan {k : SpanIx} {m v : Nat} (hm : m < 2 ^ 64) : (s.writeSpan k m v).spanLen k = m := by
  obtain ⟨-, -, hlen, -⟩ := s.writeSpan_spec k m v
  rw [hlen, if_pos rfl, Nat.mod_eq_of_lt hm]

theorem State.regNat_setReg_same (r : Reg) (v : Word) : (s.setReg r v).regNat r = v.toNat := by
  rw [State.regNat, State.reg_setReg, if_pos rfl]

/-- Clearing the limbs of a span leaves the number 0. -/
theorem State.spanNum_clear (k : SpanIx) : (s.memWrite (s.spanBase k) (s.spanLen k) 0).spanNum k = 0 := by
  rw [State.spanNum, State.spanBase_memWrite, State.spanLen_memWrite, State.memRead_memWrite, Nat.zero_mod]

end

/-! Carry and borrow. -/

/-- 40_limb_primitives.md R101: "The exact sum is `T mod B^m + C·B^m`", for a carry of at most 1. -/
theorem mod_add_carry {radix m a b : Nat} (ha : a < radix ^ m) (hb : b < radix ^ m) :
    (a + b) % radix ^ m + (if carryOut radix m (a + b) then radix ^ m else 0) = a + b := by
  have h := Nat.mod_add_div (a + b) (radix ^ m)
  obtain hq | hq : (a + b) / radix ^ m = 0 ∨ (a + b) / radix ^ m = 1 :=
    Nat.le_one_iff_eq_zero_or_eq_one.1 (Nat.le_of_lt_succ (Nat.div_lt_of_lt_mul (by omega)))
  · simpa [carryOut, hq] using h
  · simpa [carryOut, hq] using h

theorem borrowOut_iff {a b : Nat} : borrowOut a b = true ↔ a < b := by
  simp only [borrowOut, decide_eq_true_eq]
  omega

/-- 40_limb_primitives.md R102: the borrow makes up for the wrap of a negative difference. -/
theorem add_borrow {r a b : Nat} (ha : a < r) (hb : b < r) :
    a + (if borrowOut a b then r else 0) = natMod ((a : Int) - b) r + b := by
  by_cases h : a < b
  · have hd : ((a : Int) - b) % r = a - b + r := by
      rw [← Int.add_emod_right, Int.emod_eq_of_lt (by omega) (by omega)]
    have hn := natMod_cast (m := r) (by omega) ((a : Int) - b)
    rw [if_pos (borrowOut_iff.2 h)]
    omega
  · have hd : ((a : Int) - b) % r = a - b := Int.emod_eq_of_lt (by omega) (by omega)
    have hn := natMod_cast (m := r) (by omega) ((a : Int) - b)
    rw [if_neg (mt borrowOut_iff.1 h)]
    omega

/-! The three values of a comparison (40_limb_primitives.md R109). -/

theorem compareWord_of_gt {a b : Nat} (h : b < a) : compareWord a b = 1 := if_pos h
theorem compareWord_self (a : Nat) : compareWord a a = 0 := by simp [compareWord]
theorem compareWord_of_lt {a b : Nat} (h : a < b) : compareWord a b = -1 := by
  rw [compareWord, if_neg (by omega), if_neg (by omega)]

/-! The commands whose checks hold. -/

theorem exec_ladd_ready {s : State} {sd sa sb : SpanIx} (h : (Instr.ladd sd sa sb).ready s = true) :
    let m := max (s.spanLen sa) (s.spanLen sb)
    ∃ t, exec (.ladd sd sa sb) s = .next t ∧ t.err = 0 ∧ t.spanLen sd = m
      ∧ t.spanNum sd = (s.spanNum sa + s.spanNum sb) % s.radix ^ m
      ∧ t.spanNum sd + (if t.flagC then s.radix ^ m else 0) = s.spanNum sa + s.spanNum sb := by
  intro m
  have hm : m < 2 ^ 64 := max_lt (s.spanLen_lt sa) (s.spanLen_lt sb)
  have hpos : 0 < s.radix ^ m := Nat.pow_pos s.radix_pos
  obtain ⟨ha, hb⟩ := s.spanNum_lt_radix_pow_max sa sb
  refine ⟨_, exec_of_effect_ok (laddBody_ok.2 ⟨h, rfl⟩), rfl, ?_⟩
  simp only [State.spanLen_complete, State.spanNum_complete, State.complete_flagC, State.spanLen_setFlagC,
    State.spanNum_setFlagC, State.setFlagC_flagC]
  rw [s.spanLen_writeSpan hm, s.spanNum_writeSpan hm (Nat.mod_lt _ hpos)]
  exact ⟨rfl, rfl, mod_add_carry ha hb⟩

theorem exec_lsub_ready {s : State} {sd sa sb : SpanIx} (h : (Instr.lsub sd sa sb).ready s = true) :
    let m := max (s.spanLen sa) (s.spanLen sb)
    ∃ t, exec (.lsub sd sa sb) s = .next t ∧ t.err = 0 ∧ t.spanLen sd = m
      ∧ (t.flagC = true ↔ s.spanNum sa < s.spanNum sb) ∧ t.spanNum sd < s.radix ^ m
      ∧ s.spanNum sa + (if t.flagC then s.radix ^ m else 0) = t.spanNum sd + s.spanNum sb := by
  intro m
  have hm : m < 2 ^ 64 := max_lt (s.spanLen_lt sa) (s.spanLen_lt sb)
  have hpos : 0 < s.radix ^ m := Nat.pow_pos s.radix_pos
  obtain ⟨ha, hb⟩ := s.spanNum_lt_radix_pow_max sa sb
  refine ⟨_, exec_of_effect_ok (lsubBody_ok.2 ⟨h, rfl⟩), rfl, ?_⟩
  simp only [State.spanLen_complete, State.spanNum_complete, State.complete_flagC, State.spanLen_setFlagC,
    State.spanNum_setFlagC, State.setFlagC_flagC]
  rw [s.spanLen_writeSpan hm, s.spanNum_writeSpan hm (natMod_lt hpos _)]
  exact ⟨rfl, borrowOut_iff, natMod_lt hpos _, add_borrow ha hb⟩

theorem exec_lcopy_ready {s : State} {sd sa : SpanIx} (h : (Instr.lcopy sd sa).ready s = true) :
    ∃ t, exec (.lcopy sd sa) s = .next t ∧ t.err = 0 ∧ t.spanLen sd = s.spanLen sa ∧ t.spanNum sd = s.spanNum sa
      ∧ t.flagC = s.flagC :=
  ⟨_, exec_of_effect_ok (lcopyBody_ok.2 ⟨h, rfl⟩), rfl, s.spanLen_writeSpan (s.spanLen_lt sa),
    s.spanNum_writeSpan (s.spanLen_lt sa) (s.spanNum_lt_radix_pow le_rfl), rfl⟩

theorem exec_lclr_ready {s : State} {sd : SpanIx} (h : (Instr.lclr sd).ready s = true) :
    ∃ t, exec (.lclr sd) s = .next t ∧ t.err = 0 ∧ t.spanLen sd = s.spanLen sd ∧ t.spanNum sd = 0
      ∧ t.flagC = s.flagC :=
  ⟨_, exec_of_effect_ok (lclrBody_ok.2 ⟨h, rfl⟩), rfl, rfl, s.spanNum_clear sd, rfl⟩

theorem exec_lcmp_ready {s : State} {xd : Reg} {sa sb : SpanIx} (h : (Instr.lcmp xd sa sb).ready s = true) :
    ∃ t, exec (.lcmp xd sa sb) s = .next t ∧ t.err = 0 ∧ t.flagC = s.flagC
      ∧ (s.spanNum sb < s.spanNum sa → t.regNat xd = 1) ∧ (s.spanNum sa = s.spanNum sb → t.regNat xd = 0)
      ∧ (s.spanNum sa < s.spanNum sb → t.regNat xd = 2 ^ 64 - 1) := by
  refine ⟨_, exec_of_effect_ok (lcmpBody_ok.2 ⟨h, rfl⟩), rfl, rfl, ?_⟩
  simp only [State.regNat_complete, State.regNat_setReg_same]
  refine ⟨fun hgt => ?_, fun heq => ?_, fun hlt => ?_⟩
  · rw [compareWord_of_gt hgt]; rfl
  · rw [heq, compareWord_self]; rfl
  · rw [compareWord_of_lt hlt]; rfl

/-! The statements. -/

/-- Settles O32: the checks of both commands are `ready`, the sum and the difference are exact by `mod_add_carry` and
`add_borrow`, and the words are read off `decode_ok`. -/
theorem addAndSubtract : Obligations.AddAndSubtract :=
  ⟨fun _ _ _ _ => ⟨exec_ladd_ready, fun h => exec_of_effect_error (laddBody_error.2 ⟨h, rfl⟩),
      exec_lsub_ready, fun h => exec_of_effect_error (lsubBody_error.2 ⟨h, rfl⟩)⟩,
    fun _ _ _ _ => decode_ok_iff_append, fun _ _ _ _ => decode_ok_iff_append,
    decode_ok.2 (by decide), decode_ok.2 (by decide)⟩

/-- Settles O37: each command is its checks and one write, whose number or word is read back, and the words are read off
`decode_ok`. -/
theorem copyClearCompare : Obligations.CopyClearCompare :=
  ⟨fun _ _ _ => ⟨exec_lcopy_ready, fun h => exec_of_effect_error (lcopyBody_error.2 ⟨h, rfl⟩)⟩,
    fun _ _ => ⟨exec_lclr_ready, fun h => exec_of_effect_error (lclrBody_error.2 ⟨h, rfl⟩)⟩,
    fun _ _ _ _ => ⟨exec_lcmp_ready, fun h => exec_of_effect_error (lcmpBody_error.2 ⟨h, rfl⟩)⟩,
    fun _ _ _ => decode_ok_iff_append.trans (Eq.congr_right (append_zero_fields_two _ _)),
    fun _ _ => decode_ok_iff_append.trans (Eq.congr_right (append_zero_fields_three _ _)),
    fun _ _ _ _ => decode_ok_iff_append,
    decode_ok.2 (by decide), decode_ok.2 (by decide), decode_ok.2 (by decide)⟩

end Sys2Proof.Machine

/-! The root of unity of the Fermat ring (42_fermat_ring.md R150, R151), in `ZMod (fermatMod w n)`: 2 has order `2nW` there, because
none of its lower powers wraps round to 1, and `rho` is a square root of 2, so its order is twice that. -/

namespace Sys2Proof.Machine

/-! The modulus and the power 2. -/

theorem LimbWidth.bits_pos (lw : LimbWidth) : 0 < lw.bits := Nat.mul_pos (by decide) (LimbWidth.bytes_pos lw)

theorem LimbWidth.four_dvd_bits (lw : LimbWidth) : 4 ∣ lw.bits := Dvd.dvd.mul_right (by decide) lw.bytes

section
variable {w n : Nat}

theorem two_lt_fermatMod (hN : 0 < n * w) : 2 < fermatMod w n :=
  Nat.succ_lt_succ (Nat.one_lt_two_pow hN.ne')

/-- A remainder modulo `M_n` is read off the element of the ring. -/
theorem mod_fermatMod_eq_iff {a b : Nat} (hb : b < fermatMod w n) :
    a % fermatMod w n = b ↔ (a : ZMod (fermatMod w n)) = b := by
  rw [ZMod.natCast_eq_natCast_iff', Nat.mod_eq_of_lt hb]

/-- Only 0 among the numbers below `M_n` is 0 in the ring. -/
theorem natCast_fermatMod_ne_zero {a : Nat} (ha : a ≠ 0) (hlt : a < fermatMod w n) : (a : ZMod (fermatMod w n)) ≠ 0 :=
  fun h => Nat.not_dvd_of_pos_of_lt (Nat.pos_of_ne_zero ha) hlt ((ZMod.natCast_eq_zero_iff _ _).1 h)

theorem natCast_fermatMod_sub_one (w n : Nat) : ((fermatMod w n - 1 : Nat) : ZMod (fermatMod w n)) = -1 := by
  rw [Nat.cast_pred (fermatMod_pos w n), ZMod.natCast_self, zero_sub]

/-- `B^n = -1` (42_fermat_ring.md R150). -/
theorem two_pow_fermat (w n : Nat) : (2 : ZMod (fermatMod w n)) ^ (n * w) = -1 := by
  have h : ((2 ^ (n * w) : Nat) : ZMod (fermatMod w n)) = -1 := natCast_fermatMod_sub_one w n
  rwa [Nat.cast_pow, Nat.cast_two] at h

/-- Below `2nW` no power of 2 is 1: up to `nW` the number `2^j - 1`, above it `2^(j-nW) + 1`, lies strictly between 0
and `M_n`. -/
theorem two_pow_fermat_ne_one {j : Nat} (hj : 0 < j) (hlt : j < 2 * (n * w)) : (2 : ZMod (fermatMod w n)) ^ j ≠ 1 := by
  intro h
  obtain hle | hgt := le_or_gt j (n * w)
  · have hone : 1 < 2 ^ j := Nat.one_lt_two_pow hj.ne'
    have hpow : 2 ^ j ≤ 2 ^ (n * w) := Nat.pow_le_pow_right two_pos hle
    refine natCast_fermatMod_ne_zero (w := w) (n := n) (Nat.sub_ne_zero_of_lt hone) (by rw [fermatMod]; omega) ?_
    rw [Nat.cast_pred (by omega), Nat.cast_pow, Nat.cast_two, h, sub_self]
  · obtain ⟨i, rfl⟩ := Nat.exists_eq_add_of_lt hgt
    have hpow : 2 ^ (i + 1) < 2 ^ (n * w) := Nat.pow_lt_pow_right one_lt_two (by omega)
    refine natCast_fermatMod_ne_zero (w := w) (n := n) (Nat.succ_ne_zero _) (Nat.succ_lt_succ hpow) ?_
    rw [add_assoc, pow_add, two_pow_fermat, neg_one_mul, neg_eq_iff_eq_neg] at h
    rw [Nat.cast_succ, Nat.cast_pow, Nat.cast_two, h, neg_add_cancel]

theorem orderOf_two_fermat (hN : 0 < n * w) : orderOf (2 : ZMod (fermatMod w n)) = 2 * (n * w) := by
  refine (orderOf_eq_iff (by omega)).2 ⟨?_, fun j hlt hj => two_pow_fermat_ne_one hj hlt⟩
  rw [mul_comm, pow_mul, two_pow_fermat, neg_one_sq]

/-! The root. -/

/-- R151's definition, over the integers: the difference does not go below 0. -/
theorem rho_intCast (w n : Nat) : (rho w n : Int) = ((2 : Int) ^ (3 * n * w / 4) - 2 ^ (n * w / 4)) % fermatMod w n := by
  have hle : 2 ^ (n * w / 4) ≤ 2 ^ (3 * n * w / 4) :=
    Nat.pow_le_pow_right two_pos (Nat.div_le_div_right (mul_assoc 3 n w ▸ Nat.le_mul_of_pos_left _ three_pos))
  rw [rho, Int.natCast_mod, Nat.cast_sub hle, Nat.cast_pow, Nat.cast_pow, Nat.cast_two]

/-- `rho = x^3 - x` for the fourth root `x = 2^(nW/4)` of `B^n = -1`. -/
theorem rho_cast (h4 : 4 ∣ n * w) :
    (rho w n : ZMod (fermatMod w n)) = (2 ^ (n * w / 4)) ^ 3 - 2 ^ (n * w / 4) := by
  rw [← Int.cast_natCast, rho_intCast, ZMod.intCast_mod, mul_assoc, Nat.mul_div_assoc 3 h4, mul_comm 3, pow_mul]
  push_cast
  rfl

theorem rho_sq (h4 : 4 ∣ n * w) : (rho w n : ZMod (fermatMod w n)) ^ 2 = 2 := by
  have hx : ((2 : ZMod (fermatMod w n)) ^ (n * w / 4)) ^ 4 = -1 := by
    rw [← pow_mul, Nat.div_mul_cancel h4, two_pow_fermat]
  rw [rho_cast h4]
  linear_combination (((2 : ZMod (fermatMod w n)) ^ (n * w / 4)) ^ 2 - 2) * hx

/-- The even powers of the root are the powers of 2 (42_fermat_ring.md R151). -/
theorem rho_pow_two_mul (h4 : 4 ∣ n * w) (k : Nat) : (rho w n : ZMod (fermatMod w n)) ^ (2 * k) = 2 ^ k := by
  rw [pow_mul, rho_sq h4]

/-- A `k` with `rho^k = 1` has `2^k = 1`, so it is even; then `2^(k/2) = 1` as well, and the order of 2 divides its half. -/
theorem rho_pow_eq_one_iff (h4 : 4 ∣ n * w) (hN : 0 < n * w) {k : Nat} :
    (rho w n : ZMod (fermatMod w n)) ^ k = 1 ↔ rootOrder w n ∣ k := by
  have hroot : rootOrder w n = 2 * (2 * (n * w)) := by rw [rootOrder]; ring
  have htwo (j : Nat) : (rho w n : ZMod (fermatMod w n)) ^ (2 * j) = 1 ↔ 2 * (n * w) ∣ j := by
    rw [rho_pow_two_mul h4, ← orderOf_dvd_iff_pow_eq_one, orderOf_two_fermat hN]
  constructor
  · intro h
    have hk : 2 * (n * w) ∣ k := (htwo k).1 (by rw [mul_comm, pow_mul, h, one_pow])
    obtain ⟨j, rfl⟩ := (Nat.dvd_mul_right 2 (n * w)).trans hk
    exact hroot ▸ Nat.mul_dvd_mul_left 2 ((htwo j).1 h)
  · rintro ⟨j, rfl⟩
    rw [hroot, mul_assoc]
    exact (htwo _).2 (Nat.dvd_mul_right _ _)

end

/-- Settles O50: each remainder is an equation of `ZMod (fermatMod w n)`, where `rho_sq`, `two_pow_fermat` and
`rho_pow_eq_one_iff` hold. -/
theorem rootOfUnity : Obligations.RootOfUnity := by
  refine ⟨fun lw n hn => ?_, by decide, by decide, by decide, by decide⟩
  have hN : 0 < n * lw.bits := Nat.mul_pos hn (LimbWidth.bits_pos lw)
  have h4 : 4 ∣ n * lw.bits := (LimbWidth.four_dvd_bits lw).mul_left n
  have hM := two_lt_fermatMod hN
  have hpred : fermatMod lw.bits n - 1 < fermatMod lw.bits n := by omega
  refine ⟨rho_intCast _ n, h4, ?square, ?rhoHalf, ?twoHalf, fun k => ?order, fun k => ?even⟩
  case square => rw [mod_fermatMod_eq_iff hM, Nat.cast_pow, rho_sq h4, Nat.cast_two]
  case rhoHalf =>
    rw [mod_fermatMod_eq_iff hpred, Nat.cast_pow, mul_assoc, rho_pow_two_mul h4, two_pow_fermat, natCast_fermatMod_sub_one]
  case twoHalf => rw [mod_fermatMod_eq_iff hpred, Nat.cast_pow, Nat.cast_two, two_pow_fermat, natCast_fermatMod_sub_one]
  case order => rw [mod_fermatMod_eq_iff (by omega), Nat.cast_pow, Nat.cast_one, rho_pow_eq_one_iff h4 hN, rootOrder]
  case even =>
    rw [← ZMod.natCast_eq_natCast_iff', Nat.cast_pow, Nat.cast_pow, rho_pow_two_mul h4, Nat.cast_two]

end Sys2Proof.Machine

/-! The immediate commands (45_system_commands.md R220 to R222): completions of at most one register write, with words of format R
and format I. -/

namespace Sys2Proof

/-- The fields over which a format I word lays an immediate are, side by side, the immediate (30_encoding.md R83, R85). -/
theorem append_imm16_fields (x : BitVec 16) (v : Imm16) :
    x ++ v.extractLsb' 12 4 ++ v.extractLsb' 8 4 ++ v.extractLsb' 0 8 = x ++ v := by
  ext i hi
  grind

namespace Machine

/-- The sum never wraps: the register times 2^16, modulo 2^64, has its low 16 bits clear, and the immediate fills them. -/
theorem toNat_shift_insert (v : Word) (imm : Imm16) :
    (v * 0x10000 + imm.setWidth 64).toNat = v.toNat * 2 ^ 16 % 2 ^ 64 + imm.toNat := by
  have himm : (imm.setWidth 64).toNat = imm.toNat := BitVec.toNat_setWidth_of_le (by decide)
  have hmul : (v * 0x10000).toNat = v.toNat * 2 ^ 16 % 2 ^ 64 := BitVec.toNat_mul v 0x10000
  have hlow : v.toNat * 2 ^ 16 % 2 ^ 64 = v.toNat % 2 ^ 48 * 2 ^ 16 := Nat.mul_mod_mul_right (2 ^ 16) v.toNat (2 ^ 48)
  have hlt := imm.isLt
  rw [BitVec.toNat_add, himm, hmul, Nat.mod_eq_of_lt (by omega)]

@[simp] theorem State.reg_complete (s : State) (e : Option ErrorKind) (r : Reg) : (s.complete e).reg r = s.reg r := rfl

/-- A command whose effect is one register write changes that register, and neither another nor the flag. -/
theorem exec_of_effect_setReg {i : Instr} {s : State} {xd : Reg} {v : Word} {n : Nat} (h : i.effect s = .ok (s.setReg xd v))
    (hn : v.toNat = n) : ∃ t, exec i s = .next t ∧ t.err = 0 ∧ (t.reg xd).toNat = n
      ∧ (∀ r, r ≠ xd → t.reg r = s.reg r) ∧ t.flagC = s.flagC := by
  refine ⟨_, exec_of_effect_ok h, rfl, ?_, fun r hr => ?_, rfl⟩
  · rw [State.reg_complete, State.reg_setReg, if_pos rfl, hn]
  · rw [State.reg_complete, State.reg_setReg, if_neg hr.symm]

/-- The example of R221 and R222: two commands build a 32-bit constant. -/
theorem exec_seti_shli_example {s t : State} (h : exec (.seti 3 0x1234) s = .next t) :
    t.reg 3 = 0x1234 ∧ ∃ u, exec (.shli 3 0xABCD) t = .next u ∧ u.reg 3 = 0x1234ABCD := by
  rw [exec_of_effect_ok (u := s.setReg 3 0x1234) rfl] at h
  have ht : t.reg 3 = 0x1234 := by
    cases h
    rw [State.reg_complete, State.reg_setReg, if_pos rfl]
  refine ⟨ht, _, exec_of_effect_ok rfl, ?_⟩
  rw [State.reg_complete, State.reg_setReg, if_pos rfl, ht]
  decide

/-- Settles O29: each command is its effect, completed, and the words are read off `decode_ok`. -/
theorem immediateCommands : Obligations.ImmediateCommands :=
  ⟨fun _ => ⟨_, exec_of_effect_ok rfl, rfl⟩,
    fun _ _ _ => exec_of_effect_setReg rfl (BitVec.toNat_setWidth_of_le (by decide)),
    fun _ _ _ => exec_of_effect_setReg rfl (toNat_shift_insert _ _),
    fun _ => decode_ok, ⟨.unknownOpcode, rfl⟩,
    fun _ _ _ => decode_ok_iff_append.trans (Eq.congr_right (append_imm16_fields _ _)),
    fun _ _ _ => decode_ok_iff_append.trans (Eq.congr_right (append_imm16_fields _ _)),
    decode_ok.2 (by decide), decode_ok.2 (by decide), fun _ _ => exec_seti_shli_example⟩

end Machine

end Sys2Proof

/-! What an error leaves (60_exceptions.md R237). -/

namespace Sys2Proof.Machine

/-- A completed effect has `ERR` = 0, so an `ERR` that is not 0 says that a check failed and that the state before was completed
with its kind: nothing of the effect is left. -/
theorem exec_failed_of_err_ne_zero {i : Instr} {s t : State} (h : exec i s = .next t) (herr : t.err ≠ 0) :
    ∃ k, i.effect s = .error k ∧ t = s.complete (some k) := by
  obtain ⟨u, -, rfl⟩ | hfailed := exec_next.1 h
  · exact absurd u.complete_none_err herr
  · exact hfailed

/-- Settles O14: by `exec_failed_of_err_ne_zero` the answer is `s.complete (some k)`, and each clause is a field of that
completion. -/
theorem errorLeavesStateUnchanged : Obligations.ErrorLeavesStateUnchanged := by
  intro i s t h herr
  obtain ⟨k, -, rfl⟩ := exec_failed_of_err_ne_zero h herr
  exact ⟨s.complete_mem _, s.complete_regs _, s.complete_spans _, s.complete_cips _, s.complete_frps _, s.complete_flagC _,
    s.complete_kcut _, s.complete_arenaSp _, s.complete_params _, s.complete_inputs _,
    k, s.complete_some_err k, s.complete_some_esticky k, s.complete_cseq _⟩

end Sys2Proof.Machine

/-! The encoding (30_encoding.md R86 to R89): decoding and encoding are inverse, and a word is legal exactly when it lies in one
row of the opcode table. -/

namespace Sys2Proof

open Machine

/-- Settles O1: each word is the word of the command printed beside it. -/
theorem specExampleWordsDecode : Obligations.SpecExampleWordsDecode := by
  unfold Obligations.SpecExampleWordsDecode
  simp only [decode_ok]
  decide

/-- Settles O2: `decode_ok` says that the word of a command is the one that decodes to it. -/
theorem decodeOfEncode : Obligations.DecodeOfEncode := fun _ => decode_ok.2 rfl

/-- Settles O3: the other direction of `decode_ok`. -/
theorem encodeOfDecode : Obligations.EncodeOfDecode := fun _ _ h => (decode_ok.1 h).symm

/-! Rows. -/

theorem Instr.row_matches (i : Instr) : encode i &&& i.row.mask = i.row.pattern := by
  cases i
  case nop => exact Laws.RowMatch.nop
  case seti => exact Laws.RowMatch.seti _ _
  case shli => exact Laws.RowMatch.shli _ _
  case csrr => exact Laws.RowMatch.csrr _ _
  case csrw => exact Laws.RowMatch.csrw _ _
  case ladd => exact Laws.RowMatch.ladd _ _ _
  case lsub => exact Laws.RowMatch.lsub _ _ _
  case lmul => exact Laws.RowMatch.lmul _ _ _
  case ldivrem => exact Laws.RowMatch.ldivrem _ _ _ _
  case lrecip => exact Laws.RowMatch.lrecip _ _
  case ldiv1p => exact Laws.RowMatch.ldiv1p _ _ _ _ _
  case lcopy => exact Laws.RowMatch.lcopy _ _
  case lclr => exact Laws.RowMatch.lclr _
  case lcmp => exact Laws.RowMatch.lcmp _ _ _
  case pbits => exact Laws.RowMatch.pbits _ _ _
  case plimbs => exact Laws.RowMatch.plimbs _ _ _
  case lpack => exact Laws.RowMatch.lpack _ _ _ _ _ _
  case lunpack => exact Laws.RowMatch.lunpack _ _ _ _ _ _ _
  case bpack => exact Laws.RowMatch.bpack _ _ _ _ _ _
  case bunpack => exact Laws.RowMatch.bunpack _ _ _ _ _ _ _
  case ypack => exact Laws.RowMatch.ypack _ _ _ _ _ _
  case yunpack => exact Laws.RowMatch.yunpack _ _ _ _ _ _ _
  case fadd => exact Laws.RowMatch.fadd _ _ _
  case fsub => exact Laws.RowMatch.fsub _ _ _
  case fnorm => exact Laws.RowMatch.fnorm _
  case fpmul => exact Laws.RowMatch.fpmul _ _ _
  case fpsqr => exact Laws.RowMatch.fpsqr _ _
  case frescale => exact Laws.RowMatch.frescale _
  case fsetlen => exact Laws.RowMatch.fsetlen _ _
  case flowern => exact Laws.RowMatch.flowern _ _
  case fmulrho => exact Laws.RowMatch.fmulrho _ _ _
  case fbfly => exact Laws.RowMatch.fbfly _ _ _ _
  case ibfly => exact Laws.RowMatch.ibfly _ _ _ _
  case fft => exact Laws.RowMatch.fft _ _
  case ifft => exact Laws.RowMatch.ifft _
  case cconv => exact Laws.RowMatch.cconv _ _ _ _
  case nconv => exact Laws.RowMatch.nconv _ _ _ _
  case cmul => exact Laws.RowMatch.cmul _ _ _
  case kmul => exact Laws.RowMatch.kmul _ _ _
  case kmulT => exact Laws.RowMatch.kmulT _ _ _ _
  case kmulTL => exact Laws.RowMatch.kmulTL _ _ _ _

theorem Instr.row_mem (i : Instr) : i.row ∈ opcodeTable := by
  cases i <;> simp [opcodeTable, Instr.row]

/-- Two different rows differ in a bit that both fix. -/
theorem opcodeTable_rows_differ : ∀ r ∈ opcodeTable, ∀ q ∈ opcodeTable,
    r.pattern &&& q.mask = q.pattern &&& r.mask → r = q := by
  decide +kernel

theorem row_unique {w : CmdWord} {r q : OpRow} (hr : r ∈ opcodeTable) (hq : q ∈ opcodeTable)
    (hwr : w &&& r.mask = r.pattern) (hwq : w &&& q.mask = q.pattern) : r = q := by
  refine opcodeTable_rows_differ r hr q hq ?_
  rw [← hwr, ← hwq, BitVec.and_assoc, BitVec.and_assoc, BitVec.and_comm r.mask]

/-! A word of a row decodes. -/

/-- The mask of a command's row, cut into fields: what the row fixes of each field (30_encoding.md R88). -/
def Instr.fieldMask : Instr → Fields
  | .nop => ⟨0xFF, 0xF, 0xF, 0xF, 0xF, 0xFF⟩
  | .seti .. | .shli .. => ⟨0xFF, 0, 0xF, 0, 0, 0⟩
  | .csrr .. | .csrw .. => ⟨0xFF, 0, 0, 0, 0, 0xFF⟩
  | .ladd .. | .lsub .. | .lmul .. | .fadd .. | .fsub .. | .fpmul .. | .cmul .. | .kmul .. => ⟨0xFF, 0xC, 0xC, 0xC, 0xF, 0xFF⟩
  | .ldivrem .. => ⟨0xFF, 0xC, 0xC, 0xC, 0xC, 0xFF⟩
  | .lrecip .. => ⟨0xFF, 0, 0, 0xF, 0xF, 0xFF⟩
  | .ldiv1p .. => ⟨0xFF, 0xC, 0xC, 0, 0, 0xF0⟩
  | .lcopy .. | .fpsqr .. => ⟨0xFF, 0xC, 0xC, 0xF, 0xF, 0xFF⟩
  | .lclr .. | .fnorm .. | .frescale .. | .ifft .. => ⟨0xFF, 0xC, 0xF, 0xF, 0xF, 0xFF⟩
  | .lcmp .. => ⟨0xFF, 0, 0xC, 0xC, 0xF, 0xFF⟩
  | .pbits .. | .plimbs .. => ⟨0xFF, 0, 0, 0xC, 0xF, 0xFF⟩
  | .lpack .. | .bpack .. | .ypack .. => ⟨0xFF, 0xC, 0xC, 0, 0, 0xCF⟩
  | .lunpack .. | .bunpack .. | .yunpack .. => ⟨0xFF, 0xC, 0xC, 0, 0, 0xC0⟩
  | .fsetlen .. | .flowern .. | .fft .. => ⟨0xFF, 0xC, 0, 0xF, 0xF, 0xFF⟩
  | .fmulrho .. => ⟨0xFF, 0xC, 0, 0, 0xF, 0xFF⟩
  | .fbfly .. | .ibfly .. => ⟨0xFF, 0xC, 0, 0, 0, 0xFF⟩
  | .cconv .. | .nconv .. | .kmulT .. | .kmulTL .. => ⟨0xFF, 0xC, 0xC, 0xC, 0, 0xFF⟩

/-- The opcode of a command (30_encoding.md R87). -/
def Instr.opcode : Instr → Opcode
  | .nop => .nop | .seti .. => .seti | .shli .. => .shli | .csrr .. => .csrr | .csrw .. => .csrw | .ladd .. => .ladd
  | .lsub .. => .lsub | .lmul .. => .lmul | .ldivrem .. => .ldivrem | .lrecip .. => .lrecip | .ldiv1p .. => .ldiv1p
  | .lcopy .. => .lcopy | .lclr .. => .lclr | .lcmp .. => .lcmp | .pbits .. => .pbits | .plimbs .. => .plimbs
  | .lpack .. => .lpack | .lunpack .. => .lunpack | .bpack .. => .bpack | .bunpack .. => .bunpack
  | .ypack .. => .ypack | .yunpack .. => .yunpack | .fadd .. => .fadd | .fsub .. => .fsub | .fnorm .. => .fnorm
  | .fpmul .. => .fpmul | .fpsqr .. => .fpsqr | .frescale .. => .frescale | .fsetlen .. => .fsetlen
  | .flowern .. => .flowern | .fmulrho .. => .fmulrho | .fbfly .. => .fbfly | .ibfly .. => .ibfly | .fft .. => .fft
  | .ifft .. => .ifft | .cconv .. => .cconv | .nconv .. => .nconv | .cmul .. => .cmul
  | .kmul .. | .kmulT .. | .kmulTL .. => .kmul

/-- `fn[1:0]` of a row that fixes it to another value than 0: the mode of `KMUL` (30_encoding.md R88). -/
def Instr.mode : Instr → BitVec 8
  | .kmulT .. => 1
  | .kmulTL .. => 2
  | _ => 0

/-- The pattern of a command's row, cut into fields. -/
def Instr.fieldPattern (i : Instr) : Fields := ⟨i.opcode.code, 0, 0, 0, 0, i.mode⟩

theorem Instr.row_fields (i : Instr) : i.row.mask = i.fieldMask.word ∧ i.row.pattern = i.fieldPattern.word := by
  cases i <;> simp only [Instr.row, Instr.fieldMask, Instr.fieldPattern, Instr.opcode, Instr.mode] <;> exact ⟨rfl, rfl⟩

theorem Fields.word_injective {f g : Fields} (h : f.word = g.word) : f = g := by
  rw [← f.ofWord_word, h, g.ofWord_word]

/-- A word agrees with a row in each of its fields. -/
theorem Instr.fields_of_row {w : CmdWord} {i : Instr} (h : w &&& i.row.mask = i.row.pattern) :
    let f := Fields.ofWord w
    Fields.mk (f.op &&& i.fieldMask.op) (f.a &&& i.fieldMask.a) (f.b &&& i.fieldMask.b) (f.c &&& i.fieldMask.c)
      (f.d &&& i.fieldMask.d) (f.fn &&& i.fieldMask.fn) = i.fieldPattern := by
  rw [i.row_fields.1, i.row_fields.2, ← Fields.word_ofWord w, Laws.word_and] at h
  simpa only [Fields.ofWord_word] using Fields.word_injective h

/-! What each field's decoder asks of a field is what the row's mask fixes of it. -/

theorem slotField_of_clear {x : BitVec 4} (h : x &&& 0xC#4 = 0#4) : slotField x = .ok (Fin.ofNat 4 x.toNat) := by
  revert x; decide

theorem zeroField_of_clear {x : BitVec 4} (h : x &&& 0xF#4 = 0#4) : zeroField x = .ok () := by
  revert x; decide

theorem fnNone_of_clear {x : BitVec 8} (h : x &&& 0xFF#8 = 0#8) : fnNone x = .ok () := by
  revert x; decide +kernel

theorem fnReg_of_clear {x : BitVec 8} (h : x &&& 0xF0#8 = 0#8) : fnReg x = .ok (regField (x.extractLsb' 0 4)) := by
  revert x; decide +kernel

theorem fnFlags_of_clear {x : BitVec 8} (h : x &&& 0xCF#8 = 0#8) : fnFlags x = .ok (x.getLsbD 4, x.getLsbD 5) := by
  revert x; decide +kernel

theorem fnRegFlags_of_clear {x : BitVec 8} (h : x &&& 0xC0#8 = 0#8) :
    fnRegFlags x = .ok (regField (x.extractLsb' 0 4), x.getLsbD 4, x.getLsbD 5) := by
  revert x; decide +kernel

theorem and_byte_ones (x : BitVec 8) : x &&& 0xFF = x := BitVec.and_allOnes

theorem decodeFields_of_op {f : Fields} {o : Opcode} (h : f.op = o.code) : decodeFields f = decodeOp o f := by
  rw [decodeFields, h, Opcode.ofCode_code]

/-- The fields a row asks for are fields its decoder accepts. -/
theorem decodeFields_of_row {f : Fields} (i : Instr)
    (h : Fields.mk (f.op &&& i.fieldMask.op) (f.a &&& i.fieldMask.a) (f.b &&& i.fieldMask.b) (f.c &&& i.fieldMask.c)
      (f.d &&& i.fieldMask.d) (f.fn &&& i.fieldMask.fn) = i.fieldPattern) : ∃ j, decodeFields f = .ok j := by
  rw [Instr.fieldPattern, Fields.mk.injEq] at h
  obtain ⟨hop, ha, hb, hc, hd, hf⟩ := h
  have hop' : f.op = i.opcode.code := by
    refine Eq.trans ?_ hop
    cases i <;> exact (and_byte_ones _).symm
  rw [decodeFields_of_op hop']
  clear hop hop'
  cases i
  case kmul | kmulT | kmulTL =>
    replace hf : f.fn = _ := (and_byte_ones _).symm.trans hf
    simp only [Instr.fieldMask, Instr.mode, BitVec.ofNat_eq_ofNat] at ha hb hc hd hf
    simp only [Instr.opcode, decodeOp, ha, hb, hc, hd, hf, slotField_of_clear, zeroField_of_clear, decode_ok_bind, decode_pure_ok, exists_eq',
      BitVec.ofNat_eq_ofNat, BitVec.reduceEq, if_true, if_false]
  all_goals
    simp only [Instr.fieldMask, Instr.mode, BitVec.ofNat_eq_ofNat] at ha hb hc hd hf
    simp only [Instr.opcode, decodeOp, ha, hb, hc, hd, hf, slotField_of_clear, zeroField_of_clear, fnNone_of_clear,
      fnReg_of_clear, fnFlags_of_clear, fnRegFlags_of_clear, decode_ok_bind, decode_pure_ok, exists_eq']

theorem decode_of_row {w : CmdWord} (i : Instr) (h : w &&& i.row.mask = i.row.pattern) : ∃ j, decode w = .ok j :=
  decodeFields_of_row i (Instr.fields_of_row h)

/-- Settles O4: a row is unique by `row_unique`, and a word of a row decodes by `decode_of_row`. -/
theorem opcodeTableDecides : Obligations.OpcodeTableDecides := by
  refine ⟨fun w i h r hr => ⟨fun hw => ?_, ?_⟩, Instr.row_mem, fun w e h => ⟨fun r hr hw => ?_, fun s => ?_⟩⟩
  · obtain rfl := decode_ok.1 h
    exact row_unique hr i.row_mem hw i.row_matches
  · rintro rfl
    obtain rfl := decode_ok.1 h
    exact i.row_matches
  · obtain ⟨i, -, rfl⟩ := List.mem_map.1 hr
    obtain ⟨j, hj⟩ := decode_of_row i hw
    rw [h] at hj
    cases hj
  · rw [runWord, h]
    rfl

/-! The step. -/

theorem step_command {s : State} {w : CmdWord} {rest : List HostInput} (h : s.inputs = .command w :: rest) :
    step s = runWord w { s with inputs := rest } := by
  simp only [step, h]

theorem step_writeLimb {s : State} {a : Nat} {v : Word} {rest : List HostInput} (h : s.inputs = .writeLimb a v :: rest) :
    step s = ({ s with inputs := rest } : State).endPulse.hostWrite a v := by
  simp only [step, h]

theorem step_rst {s : State} {rest : List HostInput} (h : s.inputs = .rst :: rest) :
    step s = .next (State.resetWith s.params s.epoch rest) := by
  simp only [step, h, State.takeReset]

theorem step_idle {s : State} (h : s.inputs = []) : step s = .next s.endPulse := by
  simp only [step, h]

theorem runWord_ok {w : CmdWord} {i : Instr} (h : decode w = .ok i) (s : State) : runWord w s = exec i s := by
  rw [runWord, h]

theorem runWord_error {w : CmdWord} {e : Illegal} (h : decode w = .error e) (s : State) :
    runWord w s = .next (s.complete (some .illegalCommand)) := by
  rw [runWord, h]
  rfl

/-- Settles O5. -/
theorem stepRunsDecodedCommand : Obligations.StepRunsDecodedCommand :=
  fun _ _ _ _ hs hw => (step_command hs).trans (runWord_ok hw _)

/-- No opcode of the map (30_encoding.md R87) lies in the gaps and above its end. -/
theorem ofCode_eq_none_of_gap : ∀ b : BitVec 8, (b.toNat = 0x00 ∨ (0x06 ≤ b.toNat ∧ b.toNat ≤ 0x0F)
      ∨ (0x19 ≤ b.toNat ∧ b.toNat ≤ 0x1F) ∨ (0x28 ≤ b.toNat ∧ b.toNat ≤ 0x2F) ∨ (0x3B ≤ b.toNat ∧ b.toNat ≤ 0x3F)
      ∨ (0x44 ≤ b.toNat ∧ b.toNat ≤ 0x4F) ∨ 0x52 ≤ b.toNat) → Opcode.ofCode b = none := by
  decide +kernel

theorem decode_of_unknown_opcode {w : CmdWord} (h : Opcode.ofCode (w.extractLsb' 24 8) = none) :
    decode w = .error .unknownOpcode := by
  have hop : (Fields.ofWord w).op = w.extractLsb' 24 8 := rfl
  rw [decode, decodeFields, hop, h]

/-- Settles O6: `runWord` of an illegal word is one completion, whose fields are read off. -/
theorem illegalWordsCompleteWithError : Obligations.IllegalWordsCompleteWithError := by
  refine ⟨fun s w rest e hs hw => ?_, ⟨.unknownOpcode, rfl⟩, ⟨.unknownOpcode, rfl⟩,
    fun w hw => ⟨_, decode_of_unknown_opcode (ofCode_eq_none_of_gap _ hw)⟩⟩
  exact ⟨_, (step_command hs).trans (runWord_error hw _), rfl, rfl, rfl, rfl, rfl, rfl, rfl, rfl, rfl, rfl, rfl, rfl, rfl, rfl⟩

/-- Settles O7: the idle step and `rst` are read off the step, and the host's write is a write of one limb. -/
theorem stepTakesHostInputs : Obligations.StepTakesHostInputs := by
  refine ⟨fun s hs => step_idle hs, fun s a v rest hs => ⟨fun ha => ?_, fun ha => ?_⟩, fun s rest hs => step_rst hs⟩
  · let u : State := ({ s with inputs := rest } : State).endPulse
    refine ⟨u.memWrite a 1 v.toNat, (step_writeLimb hs).trans ((State.hostWrite_next _).2 ⟨ha, rfl⟩), ?_, fun b hb => ?_, rfl⟩
    · rw [← State.memRead_one, State.memRead_memWrite, pow_one]
      rfl
    · rw [← State.memRead_one, State.memRead_memWrite_of_apart _ (by omega), State.memRead_one]
      rfl
  · rw [step_writeLimb hs, State.hostWrite]
    exact if_neg (Nat.not_lt.2 ha)

/-! Reset. -/

theorem vector_replicate_get {α : Type} {n : Nat} (x : α) (k : Fin n) : (Vector.replicate n x)[k] = x := by
  simp

/-- Settles O8: the fields of `State.resetWith`, read one by one. -/
theorem resetState : Obligations.ResetState := by
  refine ⟨fun p e inputs => ?_, ⟨Params.reference, 0, rfl⟩, fun s rest => step_rst⟩
  refine ⟨fun r => vector_replicate_get _ r, rfl, rfl, rfl, ?_, rfl, rfl, rfl, rfl, rfl, fun k => ?_, fun k => ?_, fun k => ?_,
    rfl, rfl, rfl, rfl, rfl, fun a => rfl⟩
  · exact (BitVec.toNat_ofNat _ _).trans (Nat.mod_eq_of_lt (Nat.lt_of_le_of_lt (Nat.min_le_right _ _) (by decide)))
  all_goals simp [State.readCsr, State.resetWith]

theorem State.resetWith_inv (p : Params) (e : Nat) (inputs : List HostInput) : (State.resetWith p e inputs).Inv :=
  ⟨rfl, rfl, List.mem_cons_self, BitVec.zero_and, rfl⟩

/-- Settles O9. -/
theorem invariantAtReset : Obligations.InvariantAtReset := ⟨State.resetWith_inv _ _ _, State.resetWith_inv⟩

end Sys2Proof

/-! Products of coefficient lists (44_multiplication_engine.md R202 to R205). A list is the power series of its coefficients, so
that the recursion of R204 is an identity of that ring; its lengths are counted beside it. -/

namespace Sys2Proof.Machine

/-- The power series with the coefficients of a list. -/
noncomputable def series (l : List Int) : PowerSeries Int := PowerSeries.mk fun k => l.getD k 0

@[simp] theorem coeff_series (l : List Int) (k : Nat) : PowerSeries.coeff k (series l) = l.getD k 0 :=
  PowerSeries.coeff_mk _ _

/-- A list is its length and its series. -/
theorem list_ext_series {a b : List Int} (hl : a.length = b.length) (hs : series a = series b) : a = b := by
  refine List.ext_getElem hl fun k ha hb => ?_
  have hk := congrArg (PowerSeries.coeff k) hs
  rwa [coeff_series, coeff_series, List.getD_eq_getElem _ _ ha, List.getD_eq_getElem _ _ hb] at hk

/-! The list operations. -/

theorem addLists_length (a b : List Int) : (addLists a b).length = max a.length b.length := by
  fun_induction addLists a b with
  | case1 => simp
  | case2 => simp
  | case3 a as b bs ih => simp [ih, Nat.add_max_add_right]

theorem addLists_getD (a b : List Int) (k : Nat) : (addLists a b).getD k 0 = a.getD k 0 + b.getD k 0 := by
  fun_induction addLists a b generalizing k with
  | case1 => simp
  | case2 => simp
  | case3 a as b bs ih =>
    cases k with
    | zero => simp
    | succ k => simpa only [List.getD_cons_succ] using ih k

theorem shiftList_length (h : Nat) (a : List Int) : (shiftList h a).length = h + a.length := by simp [shiftList]

theorem subLists_length (a b : List Int) : (subLists a b).length = max a.length b.length := by
  rw [subLists, addLists_length, List.length_map]

theorem map_neg_getD (a : List Int) (k : Nat) : (a.map (fun x => -x)).getD k 0 = -a.getD k 0 := by
  simp only [List.getD_eq_getElem?_getD, List.getElem?_map]
  cases a[k]? <;> simp

theorem series_addLists (a b : List Int) : series (addLists a b) = series a + series b := by
  ext k
  rw [map_add, coeff_series, coeff_series, coeff_series, addLists_getD]

theorem series_subLists (a b : List Int) : series (subLists a b) = series a - series b := by
  ext k
  rw [subLists, coeff_series, addLists_getD, map_neg_getD, map_sub, coeff_series, coeff_series, sub_eq_add_neg]

theorem series_shiftList (h : Nat) (a : List Int) : series (shiftList h a) = PowerSeries.X ^ h * series a := by
  ext k
  rw [coeff_series, shiftList, PowerSeries.coeff_X_pow_mul', coeff_series]
  split
  next hk => rw [List.getD_append_right _ _ _ _ (by simpa using hk), List.length_replicate]
  next hk => rw [List.getD_append _ _ _ _ (by simpa using hk), List.getD_replicate _ (by omega)]

/-- A list is its low part and its shifted high part. -/
theorem series_take_drop (h : Nat) (a : List Int) :
    series a = series (a.take h) + PowerSeries.X ^ h * series (a.drop h) := by
  rw [← series_shiftList]
  ext k
  rw [map_add, coeff_series, coeff_series, coeff_series, shiftList]
  simp only [List.getD_eq_getElem?_getD]
  obtain hk | hk := Nat.lt_or_ge k h
  · rw [List.getElem?_take_of_lt hk, List.getElem?_append_left (by simpa using hk)]
    simp [hk]
  · rw [List.getElem?_take_eq_none hk, List.getElem?_append_right (by simpa using hk), List.length_replicate,
      List.getElem?_drop, Nat.add_sub_cancel' hk]
    simp

/-- Entry `k` of a list made of the values of a function. -/
theorem getD_map_range {α : Type} (n : Nat) (f : Nat → α) (k : Nat) (d : α) :
    ((List.range n).map f).getD k d = if k < n then f k else d := by
  by_cases h : k < n <;> simp [List.getD_eq_getElem?_getD, h]

/-! The full product. -/

theorem coeff_series_mul (a b : List Int) (k : Nat) :
    PowerSeries.coeff k (series a * series b) = productCoeff a b k := by
  simp only [PowerSeries.coeff_mul, coeff_series, productCoeff]
  exact Finset.Nat.sum_antidiagonal_eq_sum_range_succ (fun i j => a.getD i 0 * b.getD j 0) k

/-- Past degree `la + lb − 2` a product has no coefficients. -/
theorem productCoeff_of_ge {a b : List Int} {k : Nat} (h : a.length + b.length ≤ k + 1) : productCoeff a b k = 0 := by
  refine Finset.sum_eq_zero fun i _ => ?_
  obtain hi | hi := Nat.lt_or_ge i a.length
  · rw [List.getD_eq_default b 0 (by omega), mul_zero]
  · rw [List.getD_eq_default a 0 hi, zero_mul]

theorem fullProduct_getD (a b : List Int) (k : Nat) : (fullProduct a b).getD k 0 = productCoeff a b k := by
  unfold fullProduct
  split
  next hz =>
    rw [List.getD_nil]
    refine (Finset.sum_eq_zero fun i _ => ?_).symm
    obtain hz | hz := hz <;> simp [List.length_eq_zero_iff.1 hz]
  next hne =>
    rw [getD_map_range, sumN_eq_sum]
    split
    · rfl
    · exact (productCoeff_of_ge (by omega)).symm

theorem series_fullProduct (a b : List Int) : series (fullProduct a b) = series a * series b := by
  ext k
  rw [coeff_series, fullProduct_getD, coeff_series_mul]

theorem fullProduct_comm (a b : List Int) : fullProduct a b = fullProduct b a := by
  refine list_ext_series ?_ (by rw [series_fullProduct, series_fullProduct, mul_comm])
  simp only [fullProduct_length, or_comm, Nat.add_comm]

/-! The recursion. -/

/-- One level of the recursion of R204 on operands of at least two coefficients, its three products being full: with
`x = x₀ + x₁·t^h` and `y` likewise, `x₀y₀ + ((x₀+x₁)(y₀+y₁) − x₀y₀ − x₁y₁)·t^h + x₁y₁·t^2h` is `xy`. -/
theorem karatsuba_level {x y : List Int} {h : Nat} (hh : h = (x.length + 1) / 2) (hx : 2 ≤ x.length)
    (hxy : x.length ≤ y.length) :
    let p0 := fullProduct (x.take h) (y.take h)
    let p2 := fullProduct (x.drop h) (y.drop h)
    let p1 := fullProduct (addLists (x.take h) (x.drop h)) (addLists (y.take h) (y.drop h))
    addLists (addLists p0 (shiftList h (subLists (subLists p1 p0) p2))) (shiftList (2 * h) p2) = fullProduct x y := by
  intro p0 p2 p1
  refine list_ext_series ?_ ?_
  · simp only [p0, p1, p2, addLists_length, shiftList_length, subLists_length, fullProduct_length, List.length_take,
      List.length_drop]
    rw [if_neg (by omega), if_neg (by omega), if_neg (by omega), if_neg (by omega)]
    omega
  · simp only [p0, p1, p2, series_addLists, series_shiftList, series_subLists, series_fullProduct]
    rw [series_take_drop h x, series_take_drop h y, pow_mul']
    ring

/-- The three cases of R204 on operands in the order of their lengths. -/
theorem karatsuba_cases {cut : Nat} {x y : List Int} (hxy : x.length ≤ y.length) :
    (if x.length = 0 then [] else if x.length ≤ max cut 1 then fullProduct x y else
      let h := (x.length + 1) / 2
      let p0 := fullProduct (x.take h) (y.take h)
      let p2 := fullProduct (x.drop h) (y.drop h)
      let p1 := fullProduct (addLists (x.take h) (x.drop h)) (addLists (y.take h) (y.drop h))
      addLists (addLists p0 (shiftList h (subLists (subLists p1 p0) p2))) (shiftList (2 * h) p2)) = fullProduct x y := by
  split
  next h0 => rw [fullProduct, if_pos (.inl h0)]
  next h0 =>
    split
    · rfl
    next h1 => exact karatsuba_level rfl (by omega) hxy

theorem karatsuba_eq_fullProduct (fuel cut : Nat) (u v : List Int) : karatsuba fuel cut u v = fullProduct u v := by
  induction fuel generalizing u v with
  | zero => rfl
  | succ fuel ih =>
    simp only [karatsuba, ih]
    by_cases hlt : v.length < u.length
    · simp only [hlt, if_true]
      rw [fullProduct_comm u v]
      exact karatsuba_cases hlt.le
    · simp only [hlt, if_false]
      exact karatsuba_cases (Nat.le_of_not_lt hlt)

/-- Settles O59, by induction on the bound of the recursion: one level is `karatsuba_level`. -/
theorem karatsubaIsFullProduct : Obligations.KaratsubaIsFullProduct := karatsuba_eq_fullProduct

/-- The controller forms the full product, whatever `KCUT` holds. -/
@[simp] theorem State.controlled_eq (s : State) (a b : List Int) : s.controlled a b = fullProduct a b :=
  karatsuba_eq_fullProduct _ _ a b

end Sys2Proof.Machine

/-! The checks of every command in the order of 60_exceptions.md R235: class (2) is `Instr.legalIn`, class (3) is
`Instr.regionsIn`, and the classes after them are named here. A command's effect is its checks and then one state, so that which
error it raises is read off the checks. -/

namespace Sys2Proof

open Machine

/-! The checks of the classes (4) to (8). -/

namespace Machine

/-- Class (4), and class (5): the ring is there, and `count` fields of width operand `v` fit one of its coefficients
(41_packing.md R123, R125, R127). -/
def State.fieldChecks (s : State) (p : Packing) (k : FrpIx) (count v : Nat) : Except ErrorKind Unit := do
  require (s.frpN k ≠ 0) .ringTooSmall
  require (widthLegal p s.width v = true ∧ count * fieldWidth p s.width v ≤ s.frpN k * s.width) .packDoesNotFit

/-- Class (7) before class (8): the result of the command `i` fits its slot, and its scratch demand the arena
(60_exceptions.md R233, R235). -/
def State.resultChecks (s : State) (i : Instr) (pd : CipIx) (out : List Int) : Except ErrorKind Unit := do
  require (s.CoeffsFit pd out) .truncationLoses
  require (s.LengthFits pd out ∧ s.ScratchFits i) .allocFailed

/-- Class (4) before class (8): the roots for depth `DEPTH + extra`, then the scratch buffers and the scratch demand
(43_fft_convolution.md R181 to R186). -/
def State.transformChecks (s : State) (i : Instr) (k : FrpIx) (extra : Nat) (buffers : Prop) [Decidable buffers] :
    Except ErrorKind Unit := do
  require (s.frpN k ≠ 0 ∧ RootsExist s.width (s.frpN k) (s.frpDepth k + extra)) .ringTooSmall
  require (buffers ∧ s.ScratchFits i) .allocFailed

end Machine

/-- The checks of a command after those of the classes (2) and (3). -/
def Instr.laterChecks (i : Instr) (s : State) : Except ErrorKind Unit :=
  match i with
  | .lmul .. => require (s.ScratchFits i) .allocFailed
  | .ldivrem _ _ _ sv => require (s.spanNum sv ≠ 0) .divisionByZero
  | .lrecip _ xs => require (s.regLimb xs ≠ 0) .divisionByZero
  | .ldiv1p _ _ xv _ _ => require (s.regLimb xv ≠ 0) .divisionByZero
  | .lpack fd _ xb xw _ _ => s.fieldChecks .limbs fd (s.regNat xb) (s.regNat xw)
  | .bpack fd _ xb xw _ _ => s.fieldChecks .bits fd (s.regNat xb) (s.regNat xw)
  | .ypack fd _ xb xw _ _ => s.fieldChecks .bytes fd (s.regNat xb) (s.regNat xw)
  | .lunpack pd fa xb xw xc sgn neg => do
    s.fieldChecks .limbs fa (s.regNat xc) (s.regNat xw)
    s.resultChecks i pd (s.unpacked .limbs fa (s.regNat xb) (s.regNat xw) (s.regNat xc) sgn neg)
  | .bunpack pd fa xb xw xc sgn neg => do
    s.fieldChecks .bits fa (s.regNat xc) (s.regNat xw)
    s.resultChecks i pd (s.unpacked .bits fa (s.regNat xb) (s.regNat xw) (s.regNat xc) sgn neg)
  | .yunpack pd fa xb xw xc sgn neg => do
    s.fieldChecks .bytes fa (s.regNat xc) (s.regNat xw)
    s.resultChecks i pd (s.unpacked .bytes fa (s.regNat xb) (s.regNat xw) (s.regNat xc) sgn neg)
  | .fadd fd .. | .fsub fd .. => require (s.frpN fd ≠ 0) .ringTooSmall
  | .fpmul fd .. | .fpsqr fd _ => do
    require (s.frpN fd ≠ 0) .ringTooSmall
    require (s.ScratchFits i) .allocFailed
  | .fnorm fd | .frescale fd => require (s.frpN fd ≠ 0) .ringTooSmall
  | .fsetlen fd _ | .fmulrho fd .. | .fbfly fd .. | .ibfly fd .. => require (s.frpN fd ≠ 0) .ringTooSmall
  | .flowern fd xn => require (s.frpN fd ≠ 0 ∧ 1 ≤ s.regNat xn) .ringTooSmall
  | .fft fd _ => s.transformChecks i fd 0 (1 ≤ s.frpScratch fd)
  | .ifft fd => s.transformChecks i fd 0 (1 ≤ s.frpScratch fd)
  | .cconv fd fa fb _ => s.transformChecks i fd 0 (1 ≤ s.frpScratch fd ∧ 1 ≤ s.frpScratch fa ∧ 1 ≤ s.frpScratch fb)
  | .nconv fd fa fb _ => s.transformChecks i fd 1 (1 ≤ s.frpScratch fd ∧ 1 ≤ s.frpScratch fa ∧ 1 ≤ s.frpScratch fb)
  | .cmul pd pa pb | .kmul pd pa pb => s.resultChecks i pd (trim (s.fullOf pa pb))
  | .kmulT pd pa pb xt => s.resultChecks i pd (trim (truncate (s.fullOf pa pb) (s.regNat xt)))
  | .kmulTL pd pa pb xt => s.resultChecks i pd (trim (truncateLeft (s.fullOf pa pb) (s.regNat xt)))
  | .nop | .seti .. | .shli .. | .csrr .. | .csrw .. | .ladd .. | .lsub .. | .lcopy .. | .lclr .. | .lcmp .. | .pbits ..
  | .plimbs .. => pure ()

/-- All the checks of a command, in order. -/
def Instr.checks (i : Instr) (s : State) : Except ErrorKind Unit := do
  require (i.legalIn s = true) .illegalCommand
  require (i.regionsIn s = true) .lengthOverflow
  i.laterChecks s

namespace Machine

/-! Checks of one kind in a row are one check. -/

section
variable {α : Type} {p q : Prop} [Decidable p] [Decidable q] {k : ErrorKind}

theorem require_and [Decidable (p ∧ q)] : require (p ∧ q) k = (require p k >>= fun _ => require q k) := by
  unfold require
  by_cases hp : p <;> by_cases hq : q <;> simp [hp, hq, bind, Except.bind]

theorem require_true [Decidable True] : require True k = pure () := if_pos trivial

theorem bind_pure_unit (x : Except ErrorKind Unit) : (x >>= fun _ => pure ()) = x := bind_pure x

theorem require_iff (h : p ↔ q) : require p k = require q k := by
  simp only [require, h]

end

/-! The effect of a command begins with its checks. -/

/-- What an effect checks: the same, its state forgotten. -/
def checked (r : Except ErrorKind State) : Except ErrorKind Unit := (fun _ => ()) <$> r

section
variable {i : Instr} {s : State} {A B : Prop} [Decidable A] [Decidable B]

theorem checks_of_classes (hA : i.legalIn s = decide A) (hB : i.regionsIn s = decide B) :
    i.checks s = (do require A .illegalCommand; require B .lengthOverflow; i.laterChecks s) := by
  simp only [Instr.checks, require, hA, hB, decide_eq_true_eq]

theorem checks_of_regions (hA : i.legalIn s = true) (hB : i.regionsIn s = decide B) :
    i.checks s = (do require B .lengthOverflow; i.laterChecks s) := by
  rw [checks_of_classes (A := True) (hA.trans (decide_true _).symm) hB]
  rfl

end

section
variable {s : State}

theorem checked_csrr {xd : Reg} {c : CsrNum} : checked (csrrBody xd c s) = require (csrListed c = true) .illegalCommand := by
  rw [← Csr.ofNumber_isSome, csrrBody]
  cases Csr.ofNumber c <;> rfl

theorem checked_csrw {c : CsrNum} {xs : Reg} :
    checked (csrwBody c xs s) = require ((csrListed c && !csrReadOnly c) = true) .illegalCommand := by
  rw [← Csr.ofNumber_isSome, csrwBody]
  cases hc : Csr.ofNumber c with
  | none => rfl
  | some x =>
    have hw := s.writeCsr_ofNumber (s.reg xs) hc
    cases hx : s.writeCsr x (s.reg xs) with
    | none => simp only [hx, hw.1 hx]; rfl
    | some t => simp only [hx, Bool.eq_false_iff.2 fun h => nomatch hx.symm.trans (hw.2 h)]; rfl

theorem checked_unpack {i : Instr} {p : Packing} {pd : CipIx} {fa : FrpIx} {xb xw xc : Reg} {sgn neg : Bool} :
    checked (unpackBody i p pd fa xb xw xc sgn neg s) = (do
      require (s.CipShape pd ∧ s.FrpShape fa ∧ s.regNat xb ≠ 0 ∧ s.regNat xc ≠ 0) .illegalCommand
      require (s.CipIn pd ∧ s.FrpIn fa) .lengthOverflow
      s.fieldChecks p fa (s.regNat xc) (s.regNat xw)
      s.resultChecks i pd (s.unpacked p fa (s.regNat xb) (s.regNat xw) (s.regNat xc) sgn neg)) := by
  simp only [checked, unpackBody, unpackCheck, State.fieldChecks, State.resultChecks, map_bind, map_pure,
    bind_assoc, require_and, bind_pure_unit]
  rfl

theorem checked_bunpack {pd : CipIx} {fa : FrpIx} {xb xw xc : Reg} {sgn neg : Bool} :
    checked (bunpackBody pd fa xb xw xc sgn neg s)
      = checked (unpackBody (.bunpack pd fa xb xw xc sgn neg) .bits pd fa xb xw xc sgn neg s) := by
  simp only [checked, bunpackBody, map_bind, apply_ite, map_pure, ite_self]
  exact bind_pure_comp _ _

theorem checked_pointwise {fd fa fb : FrpIx} {i : Instr} {A B : Prop} [Decidable A] [Decidable B]
    (hA : A ↔ (s.FrpShape fd ∧ s.FrpShape fa ∧ s.FrpShape fb) ∧ (s.SameGeometry fd fa ∧ s.SameGeometry fd fb)
      ∧ s.frpLen fa = s.frpLen fb)
    (hB : B ↔ s.FrpIn fd ∧ s.FrpIn fa ∧ s.FrpIn fb) :
    checked (pointwiseBody fd fa fb i s) = (do
      require A .illegalCommand
      require B .lengthOverflow
      require (s.frpN fd ≠ 0) .ringTooSmall
      require (s.ScratchFits i) .allocFailed) := by
  simp only [checked, pointwiseBody, State.checkFrps, require_iff hA, require_iff hB, map_bind, map_pure, bind_assoc,
    require_and, require_true, pure_bind, bind_pure_unit]

theorem checked_product {pd pa pb : CipIx} {i : Instr} {product : List Int → List Int → List Int} :
    checked (productBody pd pa pb i product s) = (do
      require (s.CipShape pd ∧ s.CipShape pa ∧ s.CipShape pb) .illegalCommand
      require (s.CipIn pd ∧ s.CipIn pa ∧ s.CipIn pb) .lengthOverflow
      s.resultChecks i pd (trim (product (s.poly pa) (s.poly pb)))) := by
  simp only [checked, productBody, State.resultChecks, map_bind, map_pure, bind_assoc, require_and, bind_pure_unit]

end

theorem checked_cconv (fd fa fb : FrpIx) (xm : Reg) (s : State) :
    checked ((Instr.cconv fd fa fb xm).effect s) = (Instr.cconv fd fa fb xm).checks s := by
  rw [checks_of_classes rfl rfl]
  simp only [checked, Instr.effect, Instr.laterChecks, State.transformChecks, convBody, State.checkFrps, map_bind, map_pure,
    bind_assoc, require_and, require_true, pure_bind, bind_pure_unit]
  rfl

theorem checked_nconv (fd fa fb : FrpIx) (xm : Reg) (s : State) :
    checked ((Instr.nconv fd fa fb xm).effect s) = (Instr.nconv fd fa fb xm).checks s := by
  rw [checks_of_classes rfl rfl]
  simp only [checked, Instr.effect, Instr.laterChecks, State.transformChecks, convBody, State.checkFrps, map_bind, map_pure,
    bind_assoc, require_and, require_true, pure_bind, bind_pure_unit]
  rfl

theorem checked_productInstr (q : ProductKind) (pd pa pb : CipIx) (s : State) :
    checked ((productInstr q pd pa pb).effect s) = (productInstr q pd pa pb).checks s := by
  cases q <;>
    rw [productInstr, Instr.effect, checked_product, checks_of_classes rfl rfl] <;>
    simp only [State.controlled_eq, Instr.laterChecks] <;>
    rfl

/-- The effect of a command fails where its checks do, with the same kind. -/
theorem checked_effect (i : Instr) (s : State) : checked (i.effect s) = i.checks s := by
  cases i
  case nop | seti | shli => rfl
  case csrr => exact checked_csrr.trans (bind_pure_unit _).symm
  case csrw => exact checked_csrw.trans (bind_pure_unit _).symm
  case lrecip =>
    rw [checks_of_regions (B := True) rfl rfl]
    simp only [checked, Instr.effect, Instr.laterChecks, lrecipBody, map_bind, map_pure, require_true, pure_bind,
      bind_pure_unit]
  case ladd | lsub | lmul | ldivrem | lcopy | lclr | lcmp =>
    rw [checks_of_regions rfl rfl]
    simp only [checked, Instr.effect, Instr.laterChecks, laddBody, lsubBody, addSubCheck, lmulBody, ldivremBody, lcopyBody,
      lclrBody, lcmpBody, map_bind, map_pure, bind_assoc, require_and, bind_pure_unit]
  case ldiv1p =>
    rw [checks_of_regions rfl rfl]
    simp only [checked, Instr.effect, Instr.laterChecks, ldiv1pBody, map_bind, apply_ite, map_pure, ite_self, bind_assoc,
      require_and, bind_pure_unit]
  case pbits | plimbs =>
    rw [checks_of_classes rfl rfl]
    simp only [checked, Instr.effect, Instr.laterChecks, pbitsBody, plimbsBody, scanCheck, map_bind, map_pure, bind_assoc]
  case lpack | bpack | ypack =>
    rw [checks_of_classes rfl rfl]
    simp only [checked, Instr.effect, Instr.laterChecks, State.fieldChecks, packBody, packCheck, map_bind,
      apply_ite, map_pure, ite_self, bind_assoc, require_and, bind_pure_unit]
    rfl
  case lunpack | yunpack =>
    rw [checks_of_classes rfl rfl]
    exact checked_unpack
  case bunpack =>
    rw [checks_of_classes rfl rfl]
    exact checked_bunpack.trans checked_unpack
  case fadd | fsub =>
    rw [checks_of_classes rfl rfl]
    simp only [checked, Instr.effect, Instr.laterChecks, rawBody, State.checkFrps, map_bind, map_pure, bind_assoc, require_and,
      require_true, pure_bind, bind_pure_unit]
  case fpmul =>
    rw [checks_of_classes rfl rfl]
    exact checked_pointwise (by simp only [and_assoc]) Iff.rfl
  case fpsqr =>
    rw [checks_of_classes rfl rfl]
    exact checked_pointwise (by simp only [and_self, and_true, and_assoc]) (by simp only [and_self])
  case fnorm | frescale | fsetlen | flowern | fmulrho | fbfly | ibfly | fft | ifft =>
    rw [checks_of_classes rfl rfl]
    simp only [checked, Instr.effect, Instr.laterChecks, State.transformChecks, fnormBody, frescaleBody,
      fsetlenBody, flowernBody, fmulrhoBody, fbflyBody, ibflyBody, fftBody, ifftBody, State.checkFrp, map_bind, map_pure,
      bind_assoc, require_and, require_true, pure_bind, bind_pure_unit, Nat.add_zero] <;> rfl
  case cconv => exact checked_cconv _ _ _ _ s
  case nconv => exact checked_nconv _ _ _ _ s
  case cmul => exact checked_productInstr .classical _ _ _ s
  case kmul => exact checked_productInstr .full _ _ _ s
  case kmulT => exact checked_productInstr (.low _) _ _ _ s
  case kmulTL => exact checked_productInstr (.high _) _ _ _ s

end Machine

end Sys2Proof

/-! Which command raises which error (60_exceptions.md R232 to R235), each read off the checks. -/

namespace Sys2Proof

open Machine

namespace Machine

/-! The checks decide the outcome. -/

section
variable {i : Instr} {s : State} {k : ErrorKind}

theorem checked_error {r : Except ErrorKind State} : checked r = .error k ↔ r = .error k := by
  cases r <;> simp [checked, Functor.map, Except.map]

theorem checked_ok {r : Except ErrorKind State} : checked r = .ok () ↔ ∃ u, r = .ok u := by
  cases r <;> simp [checked, Functor.map, Except.map]

theorem effect_error : i.effect s = .error k ↔ i.checks s = .error k := by
  rw [← checked_effect, checked_error]

theorem effect_ok : (∃ u, i.effect s = .ok u) ↔ i.checks s = .ok () := by
  rw [← checked_effect, checked_ok]

theorem exec_of_checks_error (h : i.checks s = .error k) : exec i s = .next (s.complete (some k)) :=
  exec_of_effect_error (effect_error.2 h)

/-- The three ways in which a check can fail. -/
theorem checks_error : i.checks s = .error k ↔ (i.legalIn s = false ∧ k = .illegalCommand)
    ∨ (i.legalIn s = true ∧ i.regionsIn s = false ∧ k = .lengthOverflow)
    ∨ (i.legalIn s = true ∧ i.regionsIn s = true ∧ i.laterChecks s = .error k) := by
  simp only [Instr.checks, require_bind_error, Bool.not_eq_true, eq_comm (b := k)]
  tauto

theorem exec_illegal (h : i.legalIn s = false) : exec i s = .next (s.complete (some .illegalCommand)) :=
  exec_of_checks_error (checks_error.2 (.inl ⟨h, rfl⟩))

theorem exec_outside (hl : i.legalIn s = true) (h : i.regionsIn s = false) :
    exec i s = .next (s.complete (some .lengthOverflow)) :=
  exec_of_checks_error (checks_error.2 (.inr (.inl ⟨hl, h, rfl⟩)))

theorem exec_later (hl : i.legalIn s = true) (hr : i.regionsIn s = true) (h : i.laterChecks s = .error k) :
    exec i s = .next (s.complete (some k)) :=
  exec_of_checks_error (checks_error.2 (.inr (.inr ⟨hl, hr, h⟩)))

end

/-- A command is ready exactly when its effect is reached. -/
theorem ready_iff_effect_ok (i : Instr) (s : State) : i.ready s = true ↔ ∃ u, i.effect s = .ok u := by
  cases i
  case nop | seti | shli => exact ⟨fun _ => ⟨_, rfl⟩, fun _ => rfl⟩
  case csrr => rw [← checked_ok, Instr.effect, checked_csrr, require_ok]; rfl
  case csrw => rw [← checked_ok, Instr.effect, checked_csrw, require_ok]; rfl
  all_goals
    simp only [Instr.effect, laddBody_ok, lsubBody_ok, lmulBody_ok, ldivremBody_ok, lrecipBody_ok, ldiv1pBody_ok, lcopyBody_ok,
      lclrBody_ok, lcmpBody_ok, pbitsBody_ok, plimbsBody_ok, packBody_ok, unpackBody_ok, bunpackBody_ok, rawBody_ok,
      fnormBody_ok, pointwiseBody_ok, frescaleBody_ok, fsetlenBody_ok, flowernBody_ok, fmulrhoBody_ok, fbflyBody_ok,
      ibflyBody_ok, fftBody_ok, ifftBody_ok, convBody_ok, productBody_ok, State.controlled_eq, exists_and_left, exists_eq,
      and_true, true_and] <;>
    simp only [Instr.ready, decide_eq_true_eq] <;> rfl

theorem ready_iff_checks_ok (i : Instr) (s : State) : i.ready s = true ↔ i.checks s = .ok () :=
  (ready_iff_effect_ok i s).trans effect_ok

end Machine

end Sys2Proof

namespace Sys2Proof

open Machine

namespace Machine

/-- Settles O12: a command is ready exactly when its effect is reached. -/
theorem readyCommandSucceeds : Obligations.ReadyCommandSucceeds := by
  intro i s h
  obtain ⟨u, hu⟩ := (ready_iff_effect_ok i s).1 h
  exact ⟨_, exec_of_effect_ok hu, rfl⟩

/-! Every kind a check raises stands in the command's row of 60_exceptions.md R232. -/

section
variable {i : Instr} {s : State} {k : ErrorKind}

theorem illegal_mem_mayRaise (h : i.legalIn s = false) : ErrorKind.illegalCommand ∈ i.mayRaise := by
  cases i
  case nop | seti | shli | ladd | lsub | lmul | ldivrem | lrecip | ldiv1p | lcopy | lclr | lcmp => cases h
  all_goals exact List.mem_cons_self

theorem lengthOverflow_mem_mayRaise (h : i.regionsIn s = false) : ErrorKind.lengthOverflow ∈ i.mayRaise := by
  cases i
  case nop | seti | shli | csrr | csrw | lrecip => cases h
  case ladd | lsub | lmul | ldivrem | ldiv1p | lcopy | lclr | lcmp => exact List.mem_cons_self
  all_goals exact List.mem_cons_of_mem _ List.mem_cons_self

theorem State.fieldChecks_error {p : Packing} {f : FrpIx} {count v : Nat} : s.fieldChecks p f count v = .error k
    ↔ (s.frpN f = 0 ∧ k = .ringTooSmall) ∨ (s.frpN f ≠ 0
      ∧ ¬(widthLegal p s.width v = true ∧ count * fieldWidth p s.width v ≤ s.frpN f * s.width) ∧ k = .packDoesNotFit) := by
  simp only [State.fieldChecks, require_bind_error, require_error, not_not, eq_comm (b := k)]

theorem State.resultChecks_error {pd : CipIx} {out : List Int} : s.resultChecks i pd out = .error k
    ↔ (¬s.CoeffsFit pd out ∧ k = .truncationLoses)
      ∨ (s.CoeffsFit pd out ∧ ¬(s.LengthFits pd out ∧ s.ScratchFits i) ∧ k = .allocFailed) := by
  simp only [State.resultChecks, require_bind_error, require_error, eq_comm (b := k)]

theorem State.transformChecks_error {f : FrpIx} {extra : Nat} {buffers : Prop} [Decidable buffers] :
    s.transformChecks i f extra buffers = .error k
      ↔ (¬(s.frpN f ≠ 0 ∧ RootsExist s.width (s.frpN f) (s.frpDepth f + extra)) ∧ k = .ringTooSmall)
      ∨ ((s.frpN f ≠ 0 ∧ RootsExist s.width (s.frpN f) (s.frpDepth f + extra)) ∧ ¬(buffers ∧ s.ScratchFits i)
        ∧ k = .allocFailed) := by
  simp only [State.transformChecks, require_bind_error, require_error, eq_comm (b := k)]

theorem later_mem_mayRaise (h : i.laterChecks s = .error k) : k ∈ i.mayRaise := by
  cases i <;>
    simp only [Instr.laterChecks, bind_error_iff, require_error, State.fieldChecks_error,
      State.resultChecks_error, State.transformChecks_error, pure_ne_error] at h <;>
    simp only [Instr.mayRaise, List.mem_cons] <;>
    tauto

theorem checks_error_mem_mayRaise (h : i.checks s = .error k) : k ∈ i.mayRaise := by
  obtain ⟨hl, rfl⟩ | ⟨-, hr, rfl⟩ | ⟨-, -, hk⟩ := checks_error.1 h
  exacts [illegal_mem_mayRaise hl, lengthOverflow_mem_mayRaise hr, later_mem_mayRaise hk]

end

/-- Settles O13: where a command is not ready some check fails, with a kind of the command's row. -/
theorem unreadyCommandRaises : Obligations.UnreadyCommandRaises := by
  intro i s h
  cases hc : i.checks s with
  | ok => rw [(ready_iff_checks_ok i s).2 hc] at h; cases h
  | error k => exact ⟨k, checks_error_mem_mayRaise hc, exec_of_checks_error hc⟩

/-! Class (2). -/

/-- Settles O19: what `wellFormed` asks of the operands is part of class (2) in every state. -/
theorem illFormedCommandIsIllegal : Obligations.IllFormedCommandIsIllegal := by
  refine fun i s h => exec_illegal ?_
  cases i
  case csrr | csrw => exact h
  case fbfly | ibfly =>
    simp only [Instr.wellFormed, ne_eq, decide_not, Bool.not_eq_false', decide_eq_true_eq] at h
    simp [Instr.legalIn, h]
  all_goals cases h

theorem legalIn_of_malformed_cip {i : Instr} {s : State} {k : CipIx} (hk : k ∈ i.cipSlots) (h : ¬s.CipShape k) :
    i.legalIn s = false := by
  cases i <;>
    simp only [Instr.cipSlots, List.mem_cons, List.not_mem_nil, or_false] at hk <;>
    simp only [Instr.legalIn, decide_eq_false_iff_not] <;>
    grind

theorem legalIn_of_malformed_frp {i : Instr} {s : State} {k : FrpIx} (hk : k ∈ i.frpSlots) (h : ¬s.FrpShape k) :
    i.legalIn s = false := by
  cases i <;>
    simp only [Instr.frpSlots, List.mem_cons, List.not_mem_nil, or_false] at hk <;>
    simp only [Instr.legalIn, decide_eq_false_iff_not] <;>
    grind

/-- Settles O20: the shape of every named slot is part of class (2). -/
theorem malformedSlotIsIllegal : Obligations.MalformedSlotIsIllegal :=
  ⟨fun _ _ _ hk h => exec_illegal (legalIn_of_malformed_cip hk h),
    fun _ _ _ hk h => exec_illegal (legalIn_of_malformed_frp hk h), fun _ _ => exec_illegal⟩

/-! Class (3). -/

theorem legalIn_of_inputSpans {i : Instr} (h : i.inputSpans ≠ []) (s : State) : i.legalIn s = true := by
  cases i
  case ladd | lsub | lmul | ldivrem | ldiv1p | lcopy | lclr | lcmp => rfl
  all_goals exact absurd rfl h

theorem regionsIn_of_span_outside {i : Instr} {s : State} {k : SpanIx} (hk : k ∈ i.inputSpans) (h : ¬s.SpanIn k) :
    i.regionsIn s = false := by
  cases i <;>
    simp only [Instr.inputSpans, List.mem_cons, List.not_mem_nil, or_false] at hk <;>
    simp only [Instr.regionsIn, decide_eq_false_iff_not] <;>
    grind

theorem regionsIn_of_store_outside {i : Instr} {s : State} {r : Nat × Nat} (hi : i.inputSpans ≠ []) (hr : r ∈ i.stores s)
    (h : s.memLimbs < r.1 + r.2) : i.regionsIn s = false := by
  cases i
  case lcmp => cases hr
  case ladd | lsub | lmul | ldivrem | ldiv1p | lcopy | lclr =>
    simp only [Instr.stores, List.mem_cons, List.not_mem_nil, or_false] at hr
    simp only [Instr.regionsIn, decide_eq_false_iff_not]
    grind
  all_goals exact absurd rfl hi

theorem regionsIn_of_cip_outside {i : Instr} {s : State} {k : CipIx} (hk : k ∈ i.cipSlots) (h : ¬s.CipIn k) :
    i.regionsIn s = false := by
  cases i <;>
    simp only [Instr.cipSlots, List.mem_cons, List.not_mem_nil, or_false] at hk <;>
    simp only [Instr.regionsIn, decide_eq_false_iff_not] <;>
    grind

theorem regionsIn_of_frp_outside {i : Instr} {s : State} {k : FrpIx} (hk : k ∈ i.frpSlots) (h : ¬s.FrpIn k) :
    i.regionsIn s = false := by
  cases i <;>
    simp only [Instr.frpSlots, List.mem_cons, List.not_mem_nil, or_false] at hk <;>
    simp only [Instr.regionsIn, decide_eq_false_iff_not] <;>
    grind

/-- Settles O21: the regions of every named operand are part of class (3), and a span command has no condition of class (2). -/
theorem regionOutsideMemoryRaises : Obligations.RegionOutsideMemoryRaises :=
  ⟨fun _ s _ hk h => exec_outside (legalIn_of_inputSpans (List.ne_nil_of_mem hk) s) (regionsIn_of_span_outside hk h),
    fun _ s hi _ hr h => exec_outside (legalIn_of_inputSpans hi s) (regionsIn_of_store_outside hi hr h),
    fun _ _ _ hk h hl => exec_outside hl (regionsIn_of_cip_outside hk h),
    fun _ _ _ hk h hl => exec_outside hl (regionsIn_of_frp_outside hk h), fun _ _ => exec_outside⟩

end Machine

end Sys2Proof

namespace Sys2Proof.Machine

/-! The commands that a packing or a product kind names have their checks in common. -/

section
variable (s : State) (p : Packing) (q : ProductKind) (fd fa : FrpIx) (pa pb pd : CipIx) (xb xw xc : Reg) (sgn neg : Bool)

theorem packInstr_classes :
    ((packInstr p fd pa xb xw sgn neg).legalIn s = true ↔ s.FrpShape fd ∧ s.CipShape pa ∧ s.regNat xb ≠ 0)
      ∧ ((packInstr p fd pa xb xw sgn neg).regionsIn s = true
        ↔ s.FrpIn fd ∧ s.CipIn pa ∧ ceilDiv (s.cipLen pa) (s.regNat xb) ≤ s.frpSize fd)
      ∧ (packInstr p fd pa xb xw sgn neg).laterChecks s = s.fieldChecks p fd (s.regNat xb) (s.regNat xw) := by
  cases p <;> exact ⟨decide_eq_true_iff, decide_eq_true_iff, rfl⟩

theorem unpackInstr_classes :
    ((unpackInstr p pd fa xb xw xc sgn neg).legalIn s = true
        ↔ s.CipShape pd ∧ s.FrpShape fa ∧ s.regNat xb ≠ 0 ∧ s.regNat xc ≠ 0)
      ∧ ((unpackInstr p pd fa xb xw xc sgn neg).regionsIn s = true ↔ s.CipIn pd ∧ s.FrpIn fa)
      ∧ (unpackInstr p pd fa xb xw xc sgn neg).laterChecks s
        = (s.fieldChecks p fa (s.regNat xc) (s.regNat xw) >>= fun _ => s.resultChecks (unpackInstr p pd fa xb xw xc sgn neg) pd
          (s.unpacked p fa (s.regNat xb) (s.regNat xw) (s.regNat xc) sgn neg)) := by
  cases p <;> exact ⟨decide_eq_true_iff, decide_eq_true_iff, rfl⟩

theorem productInstr_classes :
    ((productInstr q pd pa pb).legalIn s = true ↔ s.CipShape pd ∧ s.CipShape pa ∧ s.CipShape pb)
      ∧ ((productInstr q pd pa pb).regionsIn s = true ↔ s.CipIn pd ∧ s.CipIn pa ∧ s.CipIn pb)
      ∧ (productInstr q pd pa pb).laterChecks s = s.resultChecks (productInstr q pd pa pb) pd (s.productOut q pa pb) := by
  cases q <;> exact ⟨decide_eq_true_iff, decide_eq_true_iff, rfl⟩

end

/-! Class (4): the ring. -/

/-- In a command that passes class (2) the slots it names have one width, so `N = 0` in one of them fails class (4). -/
theorem laterChecks_of_zero_width {i : Instr} {s : State} {k : FrpIx} (hk : k ∈ i.frpSlots) (hn : s.frpN k = 0)
    (hl : i.legalIn s = true) : i.laterChecks s = .error .ringTooSmall := by
  cases i <;>
    simp only [Instr.frpSlots, List.mem_cons, List.not_mem_nil, or_false] at hk <;>
    simp only [Instr.legalIn, decide_eq_true_eq] at hl <;>
    simp only [Instr.laterChecks, bind_error_iff, require_error, State.fieldChecks_error, State.transformChecks_error] <;>
    grind

/-- Settles O22: class (2), class (3), and then class (4) by `laterChecks_of_zero_width`. -/
theorem zeroWidthRingTooSmall : Obligations.ZeroWidthRingTooSmall := by
  refine ⟨fun i s k hk hn => ⟨exec_illegal, exec_outside,
    fun hl hr => exec_later hl hr (laterChecks_of_zero_width hk hn hl)⟩, fun s k hshape hin hn i hi => ?_⟩
  simp only [List.mem_cons, List.not_mem_nil, or_false] at hi
  obtain rfl | rfl | rfl := hi <;>
    exact exec_later (decide_eq_true hshape) (decide_eq_true hin)
      (laterChecks_of_zero_width (k := k) List.mem_cons_self hn (decide_eq_true hshape))

/-! Division by zero. -/

/-- Settles O23: the regions are class (3), the divisor is the one check after it. -/
theorem zeroDivisorRaises : Obligations.ZeroDivisorRaises :=
  ⟨fun _ _ _ _ _ ha hv hq hr h0 => exec_later rfl (decide_eq_true ⟨ha, hv, hq, hr⟩) (require_error.2 ⟨not_not.2 h0, rfl⟩),
    fun _ _ _ h0 => exec_later rfl rfl (require_error.2 ⟨not_not.2 h0, rfl⟩),
    fun _ _ _ _ _ _ ha hq h0 => exec_later rfl (decide_eq_true ⟨ha, hq⟩) (require_error.2 ⟨not_not.2 h0, rfl⟩)⟩

/-! Transforms and convolutions. -/

section
variable {s : State} {i : Instr} {f : FrpIx} {extra : Nat} {buffers : Prop} [Decidable buffers]

theorem transformChecks_of_no_roots (h : ¬RootsExist s.width (s.frpN f) (s.frpDepth f + extra)) :
    s.transformChecks i f extra buffers = .error .ringTooSmall :=
  State.transformChecks_error.2 (.inl ⟨fun hn => h hn.2, rfl⟩)

theorem transformChecks_of_no_scratch (hn : s.frpN f ≠ 0) (hroots : RootsExist s.width (s.frpN f) (s.frpDepth f + extra))
    (h : ¬(buffers ∧ s.ScratchFits i)) : s.transformChecks i f extra buffers = .error .allocFailed :=
  State.transformChecks_error.2 (.inr ⟨⟨hn, hroots⟩, h, rfl⟩)

end

theorem State.FrpsReady.legal {s : State} {d a b : FrpIx} (h : s.FrpsReady d a b) :
    (s.FrpShape d ∧ s.FrpShape a ∧ s.FrpShape b) ∧ s.SameGeometry d a ∧ s.SameGeometry d b :=
  ⟨⟨h.1.1, h.2.1.1, h.2.2.1.1⟩, h.2.2.2⟩

theorem State.FrpsReady.regions {s : State} {d a b : FrpIx} (h : s.FrpsReady d a b) : s.FrpIn d ∧ s.FrpIn a ∧ s.FrpIn b :=
  ⟨h.1.2.1, h.2.1.2.1, h.2.2.1.2.1⟩

theorem State.FrpsReady.width {s : State} {d a b : FrpIx} (h : s.FrpsReady d a b) : s.frpN d ≠ 0 := h.1.2.2

/-- A convolution lacks scratch when a slot has no buffer or the demand exceeds the arena. -/
theorem no_scratch {a b c : Nat} {fits : Prop} (h : a = 0 ∨ b = 0 ∨ c = 0 ∨ ¬fits) :
    ¬((1 ≤ a ∧ 1 ≤ b ∧ 1 ≤ c) ∧ fits) := by
  rintro ⟨⟨ha, hb, hc⟩, hf⟩
  obtain h | h | h | h := h
  exacts [by omega, by omega, by omega, h hf]

/-- Settles O24: the slots' checks are the classes (2) and (3); then come the roots, then the scratch space. -/
theorem transformResourcesChecked : Obligations.TransformResourcesChecked := by
  have noBuffer : ∀ {a : Nat} {fits : Prop}, (a = 0 ∨ ¬fits) → ¬(1 ≤ a ∧ fits) := fun h hn => by
    rcases h with h | h
    · exact absurd hn.1 (by omega)
    · exact h hn.2
  refine ⟨fun s fd xm hs hm => ?_, fun s fd hs => ?_, fun s fd fa fb xm hs hm => ?_, fun s fd fa fb xm hs hm => ?_⟩
  · have later {k : ErrorKind} := exec_later (k := k) (i := .fft fd xm) (decide_eq_true hs.1) (decide_eq_true ⟨hs.2.1, hm⟩)
    exact ⟨fun h => later (transformChecks_of_no_roots h),
      fun hr h => later (transformChecks_of_no_scratch hs.2.2 hr (noBuffer h))⟩
  · have later {k : ErrorKind} := exec_later (k := k) (i := .ifft fd) (decide_eq_true hs.1) (decide_eq_true hs.2.1)
    exact ⟨fun h => later (transformChecks_of_no_roots h),
      fun hr h => later (transformChecks_of_no_scratch hs.2.2 hr (noBuffer h))⟩
  · have later {k : ErrorKind} := exec_later (k := k) (i := .cconv fd fa fb xm) (decide_eq_true hs.legal)
      (decide_eq_true ⟨hs.regions, hm⟩)
    exact ⟨fun h => later (transformChecks_of_no_roots h),
      fun hr h => later (transformChecks_of_no_scratch hs.width hr (no_scratch h))⟩
  · have later {k : ErrorKind} := exec_later (k := k) (i := .nconv fd fa fb xm) (decide_eq_true hs.legal)
      (decide_eq_true ⟨hs.regions, hm⟩)
    exact ⟨fun h => later (transformChecks_of_no_roots h),
      fun hr h => later (transformChecks_of_no_scratch hs.width hr (no_scratch h))⟩

/-! Results that do not fit. -/

section
variable {s : State} {i : Instr} {pd : CipIx} {out : List Int}

theorem resultChecks_of_too_wide (h : ¬s.CoeffsFit pd out) : s.resultChecks i pd out = .error .truncationLoses :=
  State.resultChecks_error.2 (.inl ⟨h, rfl⟩)

theorem resultChecks_of_too_long (hc : s.CoeffsFit pd out) (h : ¬s.LengthFits pd out ∨ ¬s.ScratchFits i) :
    s.resultChecks i pd out = .error .allocFailed :=
  State.resultChecks_error.2 (.inr ⟨hc, not_and_or.2 h, rfl⟩)

theorem fieldChecks_of_fit {p : Packing} {f : FrpIx} {count v : Nat} (hn : s.frpN f ≠ 0) (hw : widthLegal p s.width v = true)
    (hf : count * fieldWidth p s.width v ≤ s.frpN f * s.width) : s.fieldChecks p f count v = .ok () := by
  simp only [State.fieldChecks, require_bind_ok, require_ok]
  exact ⟨hn, hw, hf⟩

end

theorem exec_product_later {s : State} {q : ProductKind} {pd pa pb : CipIx} {k : ErrorKind} (hl : s.ProductLegal pd pa pb)
    (h : s.resultChecks (productInstr q pd pa pb) pd (s.productOut q pa pb) = .error k) :
    exec (productInstr q pd pa pb) s = .next (s.complete (some k)) := by
  obtain ⟨h1, h2, h3, h4, h5, h6⟩ := hl
  obtain ⟨hlegal, hregions, hlater⟩ := productInstr_classes s q pa pb pd
  exact exec_later (hlegal.2 ⟨h1, h2, h3⟩) (hregions.2 ⟨h4, h5, h6⟩) (hlater.trans h)

theorem exec_unpack_later {s : State} {p : Packing} {pd : CipIx} {fa : FrpIx} {xb xw xc : Reg} {sgn neg : Bool} {k : ErrorKind}
    (hl : s.UnpackLegal p pd fa (s.regNat xb) (s.regNat xw) (s.regNat xc))
    (h : s.resultChecks (unpackInstr p pd fa xb xw xc sgn neg) pd
      (s.unpacked p fa (s.regNat xb) (s.regNat xw) (s.regNat xc) sgn neg) = .error k) :
    exec (unpackInstr p pd fa xb xw xc sgn neg) s = .next (s.complete (some k)) := by
  obtain ⟨h1, h2, h3, h4, h5, h6, h7, h8, h9⟩ := hl
  obtain ⟨hlegal, hregions, hlater⟩ := unpackInstr_classes s p fa pd xb xw xc sgn neg
  refine exec_later (hlegal.2 ⟨h1, h2, h3, h4⟩) (hregions.2 ⟨h5, h6⟩) (hlater.trans ?_)
  rw [fieldChecks_of_fit h7 h8 h9]
  exact h

/-- Settles O25: class (7) before class (8), of the list the command's meaning writes. -/
theorem tooWideBeforeTooLong : Obligations.TooWideBeforeTooLong :=
  ⟨fun _ _ _ _ _ hl => ⟨fun h => exec_product_later hl (resultChecks_of_too_wide h),
      fun hc h => exec_product_later hl (resultChecks_of_too_long hc (.inl h))⟩,
    fun _ _ _ _ _ _ _ _ _ hl => ⟨fun h => exec_unpack_later hl (resultChecks_of_too_wide h),
      fun hc h => exec_unpack_later hl (resultChecks_of_too_long hc h)⟩⟩

/-- Settles O26: the width operand is checked once the classes (2) to (4) pass. -/
theorem packingFitChecked : Obligations.PackingFitChecked := by
  refine ⟨fun s p fd pa xb xw sgn neg hs hshape hin hb hlen h => ?_,
    fun s p pd fa xb xw xc sgn neg hs hshape hin hb hc h => ?_⟩
  · obtain ⟨hlegal, hregions, hlater⟩ := packInstr_classes s p fd pa xb xw sgn neg
    exact exec_later (hlegal.2 ⟨hs.1, hshape, hb⟩)
      (hregions.2 ⟨hs.2.1, hin, (ceilDiv_le_iff (Nat.pos_of_ne_zero hb)).2 hlen⟩)
      (hlater.trans (State.fieldChecks_error.2 (.inr ⟨hs.2.2, h, rfl⟩)))
  · obtain ⟨hlegal, hregions, hlater⟩ := unpackInstr_classes s p fa pd xb xw xc sgn neg
    exact exec_later (hlegal.2 ⟨hshape, hs.1, hb, hc⟩) (hregions.2 ⟨hin, hs.2.1⟩)
      (hlater.trans (bind_error_iff.2 (.inl (State.fieldChecks_error.2 (.inr ⟨hs.2.2, h, rfl⟩)))))

/-! The operand conditions of single commands. -/

theorem exec_not_legal {i : Instr} {s : State} (h : ¬i.legalIn s = true) : exec i s = .next (s.complete (some .illegalCommand)) :=
  exec_illegal (Bool.not_eq_true _ ▸ h)

theorem exec_not_regions {i : Instr} {s : State} (hl : i.legalIn s = true) (h : ¬i.regionsIn s = true) :
    exec i s = .next (s.complete (some .lengthOverflow)) :=
  exec_outside hl (Bool.not_eq_true _ ▸ h)

/-- Settles O27: each condition is a conjunct of class (2) or, for a number of outputs beyond `2^DEPTH`, of class (3). -/
theorem operandConditionsChecked : Obligations.OperandConditionsChecked := by
  refine ⟨fun s fd fa fb h i hi => ?lengths, fun s fd fa fb xm h i hi => ?geometry, fun s fd fa h => ?square,
    fun s fd xi xe h => ?rho, fun s fd xi xj xe h i hi => ?butterfly, fun s fd xn => ⟨fun h => ?lower, fun hs h => ?lowerZero⟩,
    fun s fd xm hs h i hi => ?outputs, fun s fd fa fb xm hd ha hb hda hdb h i hi => ?convOutputs,
    fun s p fd pa xb xw sgn neg hf hp hb h => ?packed, fun s p fd pa xb xw sgn neg h => ?bundle,
    fun s p pd fa xb xw xc sgn neg h => ?count⟩
  case lengths =>
    refine exec_not_legal ?_
    simp only [List.mem_cons, List.not_mem_nil, or_false] at hi
    obtain rfl | rfl | rfl := hi <;> exact fun hl => h (of_decide_eq_true hl).2.2.2
  case geometry =>
    refine exec_not_legal ?_
    simp only [List.mem_cons, List.not_mem_nil, or_false] at hi
    obtain rfl | rfl | rfl | rfl | rfl := hi
    · exact fun hl => h ⟨(of_decide_eq_true hl).2.1, (of_decide_eq_true hl).2.2.1⟩
    · exact fun hl => h ⟨(of_decide_eq_true hl).2.1, (of_decide_eq_true hl).2.2.1⟩
    · exact fun hl => h ⟨(of_decide_eq_true hl).2.1, (of_decide_eq_true hl).2.2.1⟩
    · exact fun hl => h (of_decide_eq_true hl).2
    · exact fun hl => h (of_decide_eq_true hl).2
  case square => exact exec_not_legal fun hl => h (of_decide_eq_true hl).2.2
  case rho => exact exec_not_legal fun hl => Nat.not_lt.2 h (of_decide_eq_true hl).2
  case butterfly =>
    refine exec_not_legal ?_
    simp only [List.mem_cons, List.not_mem_nil, or_false] at hi
    have hne : ¬s.Distinct fd (s.regNat xi) (s.regNat xj) := by rintro ⟨h1, h2, h3⟩; omega
    obtain rfl | rfl := hi <;> exact fun hl => hne (of_decide_eq_true hl).2
  case lower => exact exec_not_legal fun hl => Nat.not_le.2 h (of_decide_eq_true hl).2
  case lowerZero =>
    exact exec_later (decide_eq_true ⟨hs.1, h ▸ Nat.zero_le _⟩) (decide_eq_true hs.2.1)
      (require_error.2 ⟨fun hn => absurd hn.2 (by omega), rfl⟩)
  case outputs =>
    simp only [List.mem_cons, List.not_mem_nil, or_false] at hi
    obtain rfl | rfl := hi <;>
      exact exec_not_regions (decide_eq_true hs) fun hr => Nat.not_le.2 h (of_decide_eq_true hr).2
  case convOutputs =>
    simp only [List.mem_cons, List.not_mem_nil, or_false] at hi
    obtain rfl | rfl := hi <;>
      exact exec_not_regions (decide_eq_true ⟨⟨hd, ha, hb⟩, hda, hdb⟩) fun hr => Nat.not_le.2 h (of_decide_eq_true hr).2
  case packed =>
    obtain ⟨hlegal, hregions, -⟩ := packInstr_classes s p fd pa xb xw sgn neg
    refine exec_not_regions (hlegal.2 ⟨hf, hp, hb⟩) fun hr => ?_
    exact Nat.not_le.2 h ((ceilDiv_le_iff (Nat.pos_of_ne_zero hb)).1 (hregions.1 hr).2.2)
  case bundle =>
    obtain ⟨hlegal, -, -⟩ := packInstr_classes s p fd pa xb xw sgn neg
    exact exec_not_legal fun hl => (hlegal.1 hl).2.2 h
  case count =>
    obtain ⟨hlegal, -, -⟩ := unpackInstr_classes s p fa pd xb xw xc sgn neg
    refine exec_not_legal fun hl => ?_
    obtain ⟨-, -, hb, hc⟩ := hlegal.1 hl
    exact h.elim hb hc

/-! The scratch demand. -/

/-- Under the default table the other commands ask for nothing. -/
theorem scrNeed_default_zero {i : Instr} {s : State} (hs : s.params.scrTable = .default)
    (hi : i.row.mnemonic ∉ ["LMUL", "FPMUL", "FPSQR", "CCONV", "NCONV", "CMUL", "KMUL", "KMUL.T", "KMUL.TL"]) :
    s.scrNeed i = 0 := by
  rw [s.scrNeed_default hs]
  cases i
  case lmul | fpmul | fpsqr | cconv | nconv | cmul | kmul | kmulT | kmulTL => simp [Instr.row] at hi
  all_goals rfl

/-- Settles O28: the demand is the last check of each command, and the default table is read off. -/
theorem scratchDemandChecked : Obligations.ScratchDemandChecked := by
  refine ⟨fun s sd sa sb ha hb hd h => ?_, fun s fd fa fb hs hlen h => ?_, fun s fd fa hs h => ?_,
    fun s q pd pa pb hl hfit h => ?_, fun s hs => ⟨fun sd sa sb => s.scrNeed_default hs _, fun fd fa fb xm i hi => ?_,
      fun pd pa pb => s.scrNeed_default hs _, fun pd pa pb xt i hi => ?_, fun i hi => scrNeed_default_zero hs hi⟩⟩
  · exact exec_later rfl (decide_eq_true ⟨ha, hb, hd⟩) (require_error.2 ⟨Nat.not_le.2 h, rfl⟩)
  · refine exec_later (decide_eq_true ⟨hs.legal.1, hs.legal.2.1, hs.legal.2.2, hlen⟩) (decide_eq_true hs.regions) ?_
    exact require_bind_error.2 (.inr ⟨hs.width, require_error.2 ⟨Nat.not_le.2 h, rfl⟩⟩)
  · refine exec_later (decide_eq_true ⟨hs.legal.1.1, hs.legal.1.2.1, hs.legal.2.1⟩)
      (decide_eq_true ⟨hs.regions.1, hs.regions.2.1⟩) ?_
    exact require_bind_error.2 (.inr ⟨hs.width, require_error.2 ⟨Nat.not_le.2 h, rfl⟩⟩)
  · exact exec_product_later hl (resultChecks_of_too_long hfit.1 (.inr (Nat.not_le.2 h)))
  · simp only [List.mem_cons, List.not_mem_nil, or_false] at hi
    obtain rfl | rfl | rfl | rfl := hi <;> exact s.scrNeed_default hs _
  · simp only [List.mem_cons, List.not_mem_nil, or_false] at hi
    obtain rfl | rfl | rfl := hi <;> exact s.scrNeed_default hs _

end Sys2Proof.Machine

/-! What a command may change, said once: `Frame` names the general registers, the control registers and the limbs that may differ
between two states. Each operation on the state has its frame, frames compose, and so every command's effect has the one that
`Instr.writtenRegs`, `Instr.writtenCsrs` and `Instr.stores` list. -/

namespace Sys2Proof.Machine

/-! The block of an FRP slot depends on the slot's descriptor alone. -/

section
variable {s t : State} (h : t.frps = s.frps) (k : FrpIx)
include h

theorem State.frpSize_congr : t.frpSize k = s.frpSize k := congrArg (2 ^ ·) (State.frpDepth_congr h k)

theorem State.blockLimbs_congr : t.blockLimbs k = s.blockLimbs k := by
  simp only [State.blockLimbs, State.frpSize_congr h, State.frpScratch_congr h, State.frpN_congr h]

theorem State.caddr_congr_frps (i : Nat) : t.caddr k i = s.caddr k i :=
  State.caddr_congr (State.frpBase_congr h k) (State.frpN_congr h k) i

end

theorem State.writeCoeffs_frps (s : State) (j : FrpIx) (vs : List Nat) : (s.writeCoeffs j vs).frps = s.frps :=
  s.memWriteList_frps _ _ _

/-- `t` is `s` but for the general registers `regs`, the control registers `csrs` and the regions `limbs` of memory. -/
structure Frame (regs : List Reg) (csrs : List Csr) (limbs : List (Nat × Nat)) (s t : State) : Prop where
  params : t.params = s.params
  inputs : t.inputs = s.inputs
  cseq : t.cseq = s.cseq
  draw : t.mem.epoch = s.mem.epoch
  reg : ∀ r, r ∉ regs → t.reg r = s.reg r
  csr : ∀ c, c ∉ csrs → t.readCsr c = s.readCsr c
  byte : ∀ a, OutsideAll (a / s.limbBytes) limbs → t.mem.byteAt a = s.mem.byteAt a
  ordered : s.mem.wf = true → t.mem.wf = true
  bounded : (∀ r ∈ limbs, r.2 = 0 ∨ s.InMem r.1 r.2) → s.mem.below (s.memLimbs * s.limbBytes) = true →
    t.mem.below (s.memLimbs * s.limbBytes) = true

namespace Frame

variable {s t u : State} {regs regs' : List Reg} {csrs csrs' : List Csr} {limbs limbs' : List (Nat × Nat)}

theorem refl (s : State) : Frame [] [] [] s s :=
  ⟨rfl, rfl, rfl, rfl, fun _ _ => rfl, fun _ _ => rfl, fun _ _ => rfl, id, fun _ => id⟩

theorem trans (h : Frame regs csrs limbs s t) (h' : Frame regs' csrs' limbs' t u) :
    Frame (regs ++ regs') (csrs ++ csrs') (limbs ++ limbs') s u where
  params := h'.params.trans h.params
  inputs := h'.inputs.trans h.inputs
  cseq := h'.cseq.trans h.cseq
  draw := h'.draw.trans h.draw
  reg r hr := (h'.reg r fun hm => hr (List.mem_append_right _ hm)).trans (h.reg r fun hm => hr (List.mem_append_left _ hm))
  csr c hc := (h'.csr c fun hm => hc (List.mem_append_right _ hm)).trans (h.csr c fun hm => hc (List.mem_append_left _ hm))
  byte a ha := by
    have hl : t.limbBytes = s.limbBytes := congrArg (fun p => p.limb.bytes) h.params
    exact (h'.byte a fun r hr => hl ▸ ha r (List.mem_append_right _ hr)).trans
      (h.byte a fun r hr => ha r (List.mem_append_left _ hr))
  ordered hs := h'.ordered (h.ordered hs)
  bounded hm hs := by
    have hl : t.limbBytes = s.limbBytes := congrArg (fun p => p.limb.bytes) h.params
    have hM : t.memLimbs = s.memLimbs := congrArg (fun p => p.memLimbs.toNat) h.params
    have ht := h.bounded (fun r hr => hm r (List.mem_append_left _ hr)) hs
    rw [← hl, ← hM] at ht ⊢
    exact h'.bounded (fun r hr => by rw [State.InMem, hM]; exact hm r (List.mem_append_right _ hr)) ht

/-- A frame may be widened: to more registers, and to regions that cover its own. -/
theorem mono (h : Frame regs csrs limbs s t) (hr : regs ⊆ regs') (hc : csrs ⊆ csrs')
    (hl : ∀ r ∈ limbs, ∃ q ∈ limbs', q.1 ≤ r.1 ∧ r.1 + r.2 ≤ q.1 + q.2) : Frame regs' csrs' limbs' s t where
  params := h.params
  inputs := h.inputs
  cseq := h.cseq
  draw := h.draw
  reg r hn := h.reg r fun hm => hn (hr hm)
  csr c hn := h.csr c fun hm => hn (hc hm)
  byte a ha := h.byte a fun r hm => by
    obtain ⟨q, hq, h1, h2⟩ := hl r hm
    have := ha q hq
    omega
  ordered := h.ordered
  bounded hb := h.bounded fun r hm => by
    obtain ⟨q, hq, h1, h2⟩ := hl r hm
    have := hb q hq
    omega

/-- A frame whose lists are in another order or have repetitions. -/
theorem of_subset (h : Frame regs csrs limbs s t) (hr : regs ⊆ regs') (hc : csrs ⊆ csrs') (hl : limbs ⊆ limbs') :
    Frame regs' csrs' limbs' s t :=
  h.mono hr hc fun r hm => ⟨r, hl hm, le_rfl, le_rfl⟩

/-! Registers, the flag and descriptors. -/

variable (s)

theorem setReg (r : Reg) (v : Word) : Frame [r] [] [] s (s.setReg r v) where
  params := rfl
  inputs := rfl
  cseq := rfl
  draw := rfl
  reg q hq := by rw [State.reg_setReg, if_neg (Ne.symm (List.ne_of_not_mem_cons hq))]
  csr c _ := by cases c <;> rfl
  byte _ _ := rfl
  ordered := id
  bounded _ := id

theorem setRegNat (r : Reg) (n : Nat) : Frame [r] [] [] s (s.setRegNat r n) := setReg s r _

theorem setFlagC (c : Bool) : Frame [] [.flags] [] s (s.setFlagC c) where
  params := rfl
  inputs := rfl
  cseq := rfl
  draw := rfl
  reg _ _ := rfl
  csr c hc := by
    cases c
    case flags => exact absurd (List.mem_singleton_self _) hc
    all_goals rfl
  byte _ _ := rfl
  ordered := id
  bounded _ := id

/-- A write of descriptors and the state's other fields alone. -/
theorem of_csr {csrs : List Csr} (hp : t.params = s.params) (hi : t.inputs = s.inputs) (hq : t.cseq = s.cseq)
    (hm : t.mem = s.mem) (hr : t.regs = s.regs) (hc : ∀ c, c ∉ csrs → t.readCsr c = s.readCsr c) : Frame [] csrs [] s t where
  params := hp
  inputs := hi
  cseq := hq
  draw := hm ▸ rfl
  reg r _ := State.reg_congr hr r
  csr := hc
  byte _ _ := hm ▸ rfl
  ordered := hm ▸ id
  bounded _ := hm ▸ id

theorem setSpan (k : SpanIx) (v : SpanSlot) (csrs : List Csr) (hb : v.base = s.spans[k].base ∨ .spanBase k ∈ csrs)
    (hl : v.len = s.spans[k].len ∨ .spanLen k ∈ csrs) : Frame [] csrs [] s (s.setSpan k v) := by
  refine of_csr s rfl rfl rfl rfl rfl fun c hc => ?_
  cases c
  case spanBase j | spanLen j =>
    simp only [State.readCsr, State.setSpan_spans, vector_get_set]
    split <;> grind
  all_goals rfl

theorem setCip (k : CipIx) (v : CipSlot) (csrs : List Csr) (hb : v.base = s.cips[k].base ∨ .cipBase k ∈ csrs)
    (hm : v.limbs = s.cips[k].limbs ∨ .cipLimbs k ∈ csrs) (hl : v.len = s.cips[k].len ∨ .cipLen k ∈ csrs)
    (ha : v.alloc = s.cips[k].alloc ∨ .cipAlloc k ∈ csrs) : Frame [] csrs [] s (s.setCip k v) := by
  refine of_csr s rfl rfl rfl rfl rfl fun c hc => ?_
  cases c
  case cipBase j | cipLimbs j | cipLen j | cipAlloc j =>
    simp only [State.readCsr, State.setCip_cips, vector_get_set]
    split <;> grind
  all_goals rfl

theorem setFrp (k : FrpIx) (v : FrpSlot) (csrs : List Csr) (hb : v.base = s.frps[k].base ∨ .frpBase k ∈ csrs)
    (hd : v.depth = s.frps[k].depth ∨ .frpDepth k ∈ csrs) (hn : v.n = s.frps[k].n ∨ .frpN k ∈ csrs)
    (hl : v.len = s.frps[k].len ∨ .frpLen k ∈ csrs) (hs : v.scratch = s.frps[k].scratch ∨ .frpScratch k ∈ csrs) :
    Frame [] csrs [] s (s.setFrp k v) := by
  refine of_csr s rfl rfl rfl rfl rfl fun c hc => ?_
  cases c
  case frpBase j | frpDepth j | frpN j | frpLen j | frpScratch j =>
    simp only [State.readCsr, State.setFrp_frps, vector_get_set]
    split <;> grind
  all_goals rfl

theorem setSpanLen (k : SpanIx) (m : Nat) : Frame [] [.spanLen k] [] s (s.setSpanLen k m) :=
  setSpan s k _ _ (.inl rfl) (.inr (List.mem_singleton_self _))

theorem setCipLen (k : CipIx) (m : Nat) : Frame [] [.cipLen k] [] s (s.setCipLen k m) :=
  setCip s k _ _ (.inl rfl) (.inl rfl) (.inr (List.mem_singleton_self _)) (.inl rfl)

theorem setFrpLen (k : FrpIx) (m : Nat) : Frame [] [.frpLen k] [] s (s.setFrpLen k m) :=
  setFrp s k _ _ (.inl rfl) (.inl rfl) (.inl rfl) (.inr (List.mem_singleton_self _)) (.inl rfl)

theorem setFrpN (k : FrpIx) (m : Nat) : Frame [] [.frpN k] [] s (s.setFrpN k m) :=
  setFrp s k _ _ (.inl rfl) (.inl rfl) (.inr (List.mem_singleton_self _)) (.inl rfl) (.inl rfl)

/-- `CSRW` changes the register it names and no other. -/
theorem writeCsr {c : Csr} {v : Word} (h : s.writeCsr c v = some t) : Frame [] [c] [] s t := by
  have hm : c ∈ [c] := List.mem_singleton_self c
  cases c
  case lauid | pw | pmem | pscr | err | cseq => cases h
  case esticky =>
    cases h
    refine of_csr s rfl rfl rfl rfl rfl fun c hc => ?_
    cases c
    case esticky => exact absurd hm hc
    all_goals rfl
  case kcut =>
    cases h
    refine of_csr s rfl rfl rfl rfl rfl fun c hc => ?_
    cases c
    case kcut => exact absurd hm hc
    all_goals rfl
  case flags => cases h; exact setFlagC s _
  case spanBase k => cases h; exact setSpan s k _ _ (.inr hm) (.inl rfl)
  case spanLen k => cases h; exact setSpan s k _ _ (.inl rfl) (.inr hm)
  case cipBase k => cases h; exact setCip s k _ _ (.inr hm) (.inl rfl) (.inl rfl) (.inl rfl)
  case cipLimbs k => cases h; exact setCip s k _ _ (.inl rfl) (.inr hm) (.inl rfl) (.inl rfl)
  case cipLen k => cases h; exact setCip s k _ _ (.inl rfl) (.inl rfl) (.inr hm) (.inl rfl)
  case cipAlloc k => cases h; exact setCip s k _ _ (.inl rfl) (.inl rfl) (.inl rfl) (.inr hm)
  case frpBase k => cases h; exact setFrp s k _ _ (.inr hm) (.inl rfl) (.inl rfl) (.inl rfl) (.inl rfl)
  case frpDepth k => cases h; exact setFrp s k _ _ (.inl rfl) (.inr hm) (.inl rfl) (.inl rfl) (.inl rfl)
  case frpN k => cases h; exact setFrp s k _ _ (.inl rfl) (.inl rfl) (.inr hm) (.inl rfl) (.inl rfl)
  case frpLen k => cases h; exact setFrp s k _ _ (.inl rfl) (.inl rfl) (.inl rfl) (.inr hm) (.inl rfl)
  case frpScratch k => cases h; exact setFrp s k _ _ (.inl rfl) (.inl rfl) (.inl rfl) (.inl rfl) (.inr hm)

/-! Memory. -/

/-- The cell `c` lies outside the cells of limbs that its limb lies outside of. -/
theorem cell_outside {a n c l : Nat} (hl : 0 < l) (h : c / l < a ∨ a + n ≤ c / l) : c < a * l ∨ (a + n) * l ≤ c :=
  h.imp (Nat.div_lt_iff_lt_mul hl).1 (Nat.le_div_iff_mul_le hl).1

/-- An operation that writes memory alone, in one region. -/
theorem of_mem {a n : Nat} {m : Memory} (hd : m.epoch = s.mem.epoch)
    (hb : ∀ c, c < a * s.limbBytes ∨ (a + n) * s.limbBytes ≤ c → m.byteAt c = s.mem.byteAt c)
    (ho : s.mem.wf = true → m.wf = true)
    (hin : n = 0 ∨ s.InMem a n → s.mem.below (s.memLimbs * s.limbBytes) = true → m.below (s.memLimbs * s.limbBytes) = true) :
    Frame [] [] [(a, n)] s { s with mem := m } where
  params := rfl
  inputs := rfl
  cseq := rfl
  draw := hd
  reg _ _ := rfl
  csr c _ := by cases c <;> rfl
  byte c hc := hb c (cell_outside s.limbBytes_pos (hc _ (List.mem_singleton_self _)))
  ordered := ho
  bounded h := hin (h _ (List.mem_singleton_self _))

theorem memWrite (a n v : Nat) : Frame [] [] [(a, n)] s (s.memWrite a n v) := by
  refine of_mem s (Memory.fill_epoch _ _ _ _) (fun c hc => ?_) (State.memWrite_wf · a n v)
    fun h hb => State.memWrite_below hb (h.imp_right State.cells_le) v
  rw [Nat.add_mul] at hc
  exact (s.byteAt_memWrite a n v c).trans (if_neg (by omega))

theorem memFree (a n : Nat) : Frame [] [] [(a, n)] s (s.memFree a n) := by
  refine of_mem s (Memory.fill_epoch _ _ _ _) (fun c hc => ?_) (State.memFree_wf · a n)
    fun h hb => State.memFree_below hb (h.imp_right State.cells_le)
  rw [Nat.add_mul] at hc
  exact (s.byteAt_memFree a n c).trans (if_neg (by omega))

theorem memWriteList (a st : Nat) (vs : List Nat) : Frame [] [] [(a, vs.length * st)] s (s.memWriteList a st vs) := by
  rw [State.memWriteList_eq]
  refine of_mem s ?_ (fun c hc => s.byteAt_memWriteList_of_outside a st vs hc) (State.memWriteList_wf · a st vs)
    fun h hb => State.memWriteList_below hb (h.imp_right fun h => Nat.mul_le_mul_right _ h)
  induction vs generalizing s a with
  | nil => rfl
  | cons v vs ih => exact (ih (s.memWrite a st v) (a + st)).trans (Memory.fill_epoch _ _ _ _)

/-! The writes through slots. -/

theorem writeSpan (k : SpanIx) (m v : Nat) : Frame [] [.spanLen k] [(s.spanBase k, m)] s (s.writeSpan k m v) :=
  (memWrite s _ _ _).trans (setSpanLen _ _ _)

theorem writeDivision (sq sr : SpanIx) (la lv q r : Nat) : Frame [] [.spanLen sq, .spanLen sr]
    [(s.spanBase sq, la), (s.spanBase sr, lv)] s (s.writeDivision sq sr la lv q r) :=
  (((memWrite s _ _ _).trans (setSpanLen _ _ _)).trans (memWrite _ _ _ _)).trans (setSpanLen _ _ _)

theorem writePoly (k : CipIx) (out : List Int) :
    Frame [] [.cipLen k] [s.storeRegion k out.length] s (s.writePoly k out) := by
  have h := (memWriteList s (s.cipBase k) (s.cipLimbs k + 1) (out.map (coeffImage s.width))).trans
    (setCipLen _ k out.length)
  rwa [List.length_map] at h

theorem freePoly (k : CipIx) (m : Nat) : Frame [] [.cipLen k] [s.storeRegion k m] s (s.freePoly k m) :=
  (memFree s _ _).trans (setCipLen _ _ _)

theorem writeCoeffs (k : FrpIx) (vs : List Nat) : Frame [] [] [s.coeffRegion k vs.length] s (s.writeCoeffs k vs) :=
  memWriteList s _ _ _

theorem writeCoeff (k : FrpIx) (i v : Nat) : Frame [] [] [(s.caddr k i, s.frpN k + 1)] s (s.writeCoeff k i v) :=
  memWrite s _ _ _

theorem writePair (k : FrpIx) (i j u v : Nat) :
    Frame [] [] [(s.caddr k i, s.frpN k + 1), (s.caddr k j, s.frpN k + 1)] s (s.writePair k i j u v) :=
  (writeCoeff s k i u).trans (writeCoeff (s.writeCoeff k i u) k j v)

theorem freeFrom (k : FrpIx) (m : Nat) :
    Frame [] [] [(s.caddr k m, s.blockLimbs k - m * (s.frpN k + 1))] s (s.freeFrom k m) := memFree s _ _

theorem freeBlock (k : FrpIx) : Frame [] [] [s.blockRegion k] s (s.freeBlock k) := memFree s _ _

/-- The inputs of a pointwise product, one after the other, and its output. -/
theorem writePointwise (fd fa fb : FrpIx) (hl : s.frpLen fa = s.frpLen fb) : Frame [] [.frpLen fd]
      [s.coeffRegion fa (s.frpLen fa), s.coeffRegion fb (s.frpLen fb), s.coeffRegion fd (s.frpLen fa)] s
      (s.writePointwise fd fa fb) := by
  have h := (((writeCoeffs s fa (s.vals fa)).trans (writeCoeffs (s.writeCoeffs fa (s.vals fa)) fb (s.vals fb))).trans
    (writeCoeffs ((s.writeCoeffs fa (s.vals fa)).writeCoeffs fb (s.vals fb)) fd
      (List.zipWith (fun u v => u * v % s.modulus fd) (s.vals fa) (s.vals fb)))).trans (setFrpLen _ fd (s.frpLen fa))
  simpa only [State.coeffRegion, State.vals_length, List.length_zipWith, hl, min_self, State.writePointwise, State.writeCoeffs,
    State.frpBase_memWriteList, State.frpN_memWriteList, List.append_nil, List.nil_append, List.cons_append] using h

/-- Coefficients, and all of the block after them free. -/
theorem writeFree (k : FrpIx) (vs : List Nat) (hvs : vs.length ≤ s.frpSize k) :
    Frame [] [] [s.blockRegion k] s ((s.writeCoeffs k vs).freeFrom k vs.length) := by
  have hf := s.writeCoeffs_frps k vs
  have hblock : vs.length * (s.frpN k + 1) ≤ s.blockLimbs k := Nat.mul_le_mul_right _ (hvs.trans (Nat.le_add_right _ _))
  refine ((writeCoeffs s k vs).trans (freeFrom (s.writeCoeffs k vs) k vs.length)).mono (by simp) (by simp)
    fun r hr => ⟨s.blockRegion k, List.mem_singleton_self _, ?_⟩
  simp only [List.mem_append, List.mem_singleton, State.caddr_congr_frps hf, State.blockLimbs_congr hf,
    State.frpN_congr hf] at hr
  obtain rfl | rfl := hr
  · exact ⟨le_rfl, Nat.add_le_add_left hblock _⟩
  · simp only [State.blockRegion, State.caddr]
    omega

/-- A transform writes its whole block: the outputs, and what is free after them. -/
theorem writeTransform (k : FrpIx) (vs : List Nat) (hvs : vs.length ≤ s.frpSize k) :
    Frame [] [.frpLen k] [s.blockRegion k] s (s.writeTransform k vs) :=
  (writeFree s k vs hvs).trans (setFrpLen _ k vs.length)

end Frame

end Sys2Proof.Machine

/-! The frame of every command (10_state.md R22, R28, 20_memory.md R71), that what it stores lies in limb memory, and with both the
invariant along every step. -/

namespace Sys2Proof.Machine

/-! The length of an interpolated list is that of the values. -/

theorem addScaled_length (m c : Nat) (u a : List Nat) : (addScaled m c u a).length = max u.length a.length := by
  fun_induction addScaled m c u a with
  | case1 => simp
  | case2 u us ih => simp [ih]
  | case3 u us a as ih => simp [ih, Nat.add_max_add_right]

theorem interpolate_length {m : Nat} {p : Nat → Nat} {k : Nat} {a z xs : List Nat} (ha : a.length = k)
    (hz : z.length = k + 1) : (interpolate m p k a z xs).length = k + xs.length := by
  induction xs generalizing k a z with
  | nil => exact ha
  | cons x xs ih =>
    rw [interpolate, ih (by rw [addScaled_length, ha, hz]; omega)
      (by rw [addScaled_length, List.length_cons, hz]; omega), List.length_cons]
    omega

theorem invDft_length (w n d : Nat) (x : List Nat) : (invDft w n d x).length = x.length :=
  (interpolate_length (k := 0) rfl rfl).trans (Nat.zero_add _)

theorem State.inverseOutputs_length (s : State) (k : FrpIx) : (s.inverseOutputs k).length = s.frpLen k := by
  rw [State.inverseOutputs, List.length_map, invDft_length, State.vals_length]

/-! The frame of an effect. -/

variable {i : Instr} {s t u : State}

/-- The effect of a packer writes the coefficients it sets, defined or not. -/
theorem packBody_frame {p : Packing} {fd : FrpIx} {pa : CipIx} {xb xw : Reg} {sgn neg : Bool}
    (h : packBody p fd pa xb xw sgn neg s = .ok u) :
    Frame [] [.frpLen fd] [s.coeffRegion fd (ceilDiv (s.cipLen pa) (s.regNat xb))] s u := by
  obtain ⟨-, rfl⟩ := packBody_ok.1 h
  split
  · have hw := Frame.writeCoeffs s fd (packedCoeffs (negateIf neg (s.poly pa)) (s.regNat xb)
      (fieldWidth p s.width (s.regNat xw)) (ceilDiv (s.cipLen pa) (s.regNat xb)) (s.radix ^ (s.frpN fd + 1)))
    rw [packedCoeffs, List.length_map, List.length_range] at hw
    exact hw.trans (Frame.setFrpLen _ fd _)
  · exact (Frame.memFree s _ _).trans (Frame.setFrpLen _ fd _)

theorem rawBody_frame {fd fa fb : FrpIx} {combine : Int → Int → Int} (h : rawBody fd fa fb combine s = .ok u) :
    Frame [] [.frpLen fd] [s.coeffRegion fd (s.frpLen fa)] s u := by
  obtain ⟨⟨-, hlen⟩, rfl⟩ := rawBody_ok.1 h
  have hw := Frame.writeCoeffs s fd (List.zipWith (fun a b => natMod (combine (a : Nat) (b : Nat))
    (s.radix ^ (s.frpN fd + 1))) (s.raws fa) (s.raws fb))
  rw [List.length_zipWith, State.raws_length, State.raws_length, hlen, min_self, ← hlen] at hw
  exact hw.trans (Frame.setFrpLen _ fd _)

theorem convBody_frame {fd fa fb : FrpIx} {xm : Reg} {extra : Nat} {coeff : Nat → Nat → List Nat → List Nat → Nat → Nat}
    (h : convBody fd fa fb xm extra i coeff s = .ok u) :
    Frame [] [.frpLen fd] [s.blockRegion fa, s.blockRegion fb, s.blockRegion fd] s u := by
  obtain ⟨⟨-, hm, -⟩, rfl⟩ := convBody_ok.1 h
  exact ((Frame.freeBlock s fa).trans (Frame.freeBlock (s.freeBlock fa) fb)).trans
    (Frame.writeTransform ((s.freeBlock fa).freeBlock fb) fd _ (by rw [List.length_map, List.length_range]; exact hm))

theorem productOut_frame {pd pa pb : CipIx} {product : List Int → List Int → List Int}
    (h : productBody pd pa pb i product s = .ok u) :
    Frame [] [.cipLen pd] [s.storeRegion pd (trim (product (s.poly pa) (s.poly pb))).length] s u := by
  obtain ⟨-, rfl⟩ := productBody_ok.1 h
  exact Frame.writePoly s pd _

/-- A command's effect changes what its row of the lists `writtenRegs`, `writtenCsrs` and `stores` names and nothing else. -/
theorem effect_frame (h : i.effect s = .ok u) : Frame i.writtenRegs i.writtenCsrs (i.stores s) s u := by
  cases i
  case nop => cases h; exact Frame.refl s
  case seti | shli => cases h; exact Frame.setReg s _ _
  case csrr => obtain ⟨_, -, rfl⟩ := csrrBody_ok.1 h; exact Frame.setReg s _ _
  case csrw =>
    obtain ⟨c, hc, hw⟩ := csrwBody_ok.1 h
    rw [Instr.writtenCsrs, hc]
    exact Frame.writeCsr s hw
  case ladd =>
    obtain ⟨-, rfl⟩ := laddBody_ok.1 h
    exact ((Frame.writeSpan s _ _ _).trans (Frame.setFlagC _ _)).of_subset (by simp) (by simp [Instr.writtenCsrs]) (by simp [Instr.stores])
  case lsub =>
    obtain ⟨-, rfl⟩ := lsubBody_ok.1 h
    exact ((Frame.writeSpan s _ _ _).trans (Frame.setFlagC _ _)).of_subset (by simp) (by simp [Instr.writtenCsrs]) (by simp [Instr.stores])
  case lmul => obtain ⟨-, rfl⟩ := lmulBody_ok.1 h; exact Frame.writeSpan s _ _ _
  case ldivrem => obtain ⟨-, rfl⟩ := ldivremBody_ok.1 h; exact Frame.writeDivision s _ _ _ _ _ _
  case lrecip => obtain ⟨-, rfl⟩ := lrecipBody_ok.1 h; exact Frame.setRegNat s _ _
  case ldiv1p =>
    obtain ⟨-, rfl⟩ := ldiv1pBody_ok.1 h
    split
    · exact (Frame.writeSpan s _ _ _).trans (Frame.setRegNat _ _ _)
    · exact ((Frame.memFree s _ _).trans (Frame.setSpanLen _ _ _)).trans (Frame.setReg _ _ _)
  case lcopy => obtain ⟨-, rfl⟩ := lcopyBody_ok.1 h; exact Frame.writeSpan s _ _ _
  case lclr => obtain ⟨-, rfl⟩ := lclrBody_ok.1 h; exact Frame.memWrite s _ _ _
  case lcmp => obtain ⟨-, rfl⟩ := lcmpBody_ok.1 h; exact Frame.setReg s _ _
  case pbits => obtain ⟨-, rfl⟩ := pbitsBody_ok.1 h; exact (Frame.setRegNat s _ _).trans (Frame.setRegNat _ _ _)
  case plimbs => obtain ⟨-, rfl⟩ := plimbsBody_ok.1 h; exact (Frame.setRegNat s _ _).trans (Frame.setRegNat _ _ _)
  case lpack | bpack | ypack => exact packBody_frame h
  case lunpack | yunpack =>
    obtain ⟨-, rfl⟩ := unpackBody_ok.1 h
    exact Frame.writePoly s _ _
  case bunpack =>
    obtain ⟨-, rfl⟩ := bunpackBody_ok.1 h
    simp only [Instr.stores, State.unpackedCount, true_and, ite_not]
    split
    · exact Frame.writePoly s _ _
    · exact Frame.freePoly s _ _
  case fadd | fsub => exact rawBody_frame h
  case fnorm fd =>
    obtain ⟨-, rfl⟩ := fnormBody_ok.1 h
    have hw := Frame.writeCoeffs s fd (s.vals fd)
    rwa [State.vals_length] at hw
  case fpmul =>
    obtain ⟨⟨-, hlen, -⟩, rfl⟩ := pointwiseBody_ok.1 h
    exact Frame.writePointwise s _ _ _ hlen
  case fpsqr =>
    obtain ⟨⟨-, hlen, -⟩, rfl⟩ := pointwiseBody_ok.1 h
    exact (Frame.writePointwise s _ _ _ hlen).of_subset (by simp) (by simp [Instr.writtenCsrs]) (by simp [Instr.stores])
  case frescale fd =>
    obtain ⟨-, rfl⟩ := frescaleBody_ok.1 h
    have hw := Frame.writeCoeffs s fd
      ((s.vals fd).map fun v => s.timesRho fd v (rescaleExp s.width (s.frpN fd) (s.frpDepth fd)))
    rwa [List.length_map, State.vals_length] at hw
  case fsetlen => obtain ⟨-, rfl⟩ := fsetlenBody_ok.1 h; exact (Frame.memWrite s _ _ _).trans (Frame.setFrpLen _ _ _)
  case flowern =>
    obtain ⟨-, rfl⟩ := flowernBody_ok.1 h
    exact ((Frame.setFrpN s _ _).trans (Frame.setFrpLen _ _ _)).of_subset (by simp) (by simp [Instr.writtenCsrs]) (by simp)
  case fmulrho => obtain ⟨-, rfl⟩ := fmulrhoBody_ok.1 h; exact Frame.writeCoeff s _ _ _
  case fbfly => obtain ⟨-, rfl⟩ := fbflyBody_ok.1 h; exact Frame.writePair s _ _ _ _ _
  case ibfly => obtain ⟨-, rfl⟩ := ibflyBody_ok.1 h; exact Frame.writePair s _ _ _ _ _
  case fft =>
    obtain ⟨hr, rfl⟩ := fftBody_ok.1 h
    refine Frame.writeTransform s _ _ ?_
    rw [List.length_map, List.length_range]
    exact (of_decide_eq_true hr).2.1
  case ifft fd =>
    obtain ⟨hr, rfl⟩ := ifftBody_ok.1 h
    have hlen := s.inverseOutputs_length fd
    have hw := Frame.writeFree s fd (s.inverseOutputs fd) (hlen ▸ (of_decide_eq_true hr).1.1.2)
    rwa [hlen] at hw
  case cconv | nconv => exact convBody_frame h
  case cmul => exact productOut_frame h
  case kmul | kmulT | kmulTL =>
    rw [Instr.effect] at h
    have hw := productOut_frame h
    simp only [State.controlled_eq] at hw
    exact hw

/-! What a command stores lies in limb memory. -/

section
variable {k : FrpIx} {l : CipIx} {m : Nat}

theorem State.coeffRegion_in (hin : s.FrpIn k) (hm : m ≤ s.frpSize k) :
    s.InMem (s.coeffRegion k m).1 (s.coeffRegion k m).2 :=
  le_trans (Nat.add_le_add_left (Nat.mul_le_mul_right _ (hm.trans (Nat.le_add_right _ _))) _) hin

/-- Coefficients `i` to `i + m − 1`. -/
theorem State.caddr_in {i : Nat} (hin : s.FrpIn k) (hm : i + m ≤ s.frpSize k) : s.InMem (s.caddr k i) (m * (s.frpN k + 1)) := by
  have h := State.coeffRegion_in hin hm
  simp only [State.coeffRegion, Nat.add_mul i m] at h
  simp only [State.caddr]
  omega

theorem State.storeRegion_in (hin : s.CipIn l) (hm : m ≤ s.cipAlloc l) :
    s.InMem (s.storeRegion l m).1 (s.storeRegion l m).2 :=
  le_trans (Nat.add_le_add_left (Nat.mul_le_mul_right _ hm) _) hin

theorem State.unpackedCount_le_alloc {p : Packing} {fa : FrpIx} {bundle v cnt : Nat} {sgn neg : Bool}
    (h : s.LengthFits l (s.unpacked p fa bundle v cnt sgn neg)) :
    s.unpackedCount p l fa bundle v cnt sgn neg ≤ s.cipAlloc l := by
  simp only [State.unpackedCount]
  split
  · exact Nat.min_le_right _ _
  · exact h

end

/-- Every region a command stores to lies in limb memory when the command's checks hold. -/
theorem stores_inMem (h : i.ready s = true) : ∀ r ∈ i.stores s, s.InMem r.1 r.2 := by
  intro r hr
  cases i
  all_goals simp only [Instr.stores, List.mem_cons, List.not_mem_nil, or_false] at hr
  case ladd | lsub => subst hr; exact (of_decide_eq_true h).2.2
  case lmul => subst hr; exact (of_decide_eq_true h).2.2.1
  case ldivrem =>
    obtain ⟨-, -, hq, hrem, -⟩ := of_decide_eq_true h
    obtain rfl | rfl := hr
    exacts [hq, hrem]
  case ldiv1p => subst hr; exact (of_decide_eq_true h).2.1
  case lcopy => subst hr; exact (of_decide_eq_true h).2
  case lclr => subst hr; exact of_decide_eq_true h
  case lpack | bpack | ypack =>
    obtain ⟨-, -, -, hin, -, hlen, -⟩ := of_decide_eq_true h
    subst hr
    exact State.coeffRegion_in hin hlen
  case lunpack | bunpack | yunpack =>
    obtain ⟨⟨-, -, -, -, hin, -⟩, ⟨-, hlen⟩, -⟩ := of_decide_eq_true h
    subst hr
    exact State.storeRegion_in hin (State.unpackedCount_le_alloc hlen)
  case fadd | fsub =>
    obtain ⟨⟨hd, ha, -, hg, -⟩, -⟩ := of_decide_eq_true h
    subst hr
    exact State.coeffRegion_in hd.2.1 (ha.1.2.trans (congrArg (2 ^ ·) hg.1.symm).le)
  case fnorm | frescale =>
    obtain ⟨hshape, hin, -⟩ := of_decide_eq_true h
    subst hr
    exact State.coeffRegion_in hin hshape.2
  case fpmul =>
    obtain ⟨⟨hd, ha, hb, hg, -⟩, -⟩ := of_decide_eq_true h
    obtain rfl | rfl | rfl := hr
    · exact State.coeffRegion_in ha.2.1 ha.1.2
    · exact State.coeffRegion_in hb.2.1 hb.1.2
    · exact State.coeffRegion_in hd.2.1 (ha.1.2.trans (congrArg (2 ^ ·) hg.1.symm).le)
  case fpsqr =>
    obtain ⟨⟨hd, ha, -, hg, -⟩, -⟩ := of_decide_eq_true h
    obtain rfl | rfl := hr
    · exact State.coeffRegion_in ha.2.1 ha.1.2
    · exact State.coeffRegion_in hd.2.1 (ha.1.2.trans (congrArg (2 ^ ·) hg.1.symm).le)
  case fsetlen =>
    obtain ⟨⟨hshape, hin, -⟩, hm⟩ := of_decide_eq_true h
    subst hr
    exact State.caddr_in hin (by have := hshape.2; omega)
  case fmulrho =>
    obtain ⟨⟨hshape, hin, -⟩, hi⟩ := of_decide_eq_true h
    subst hr
    simpa only [Nat.one_mul] using State.caddr_in (m := 1) hin (hi.trans_le hshape.2)
  case fbfly | ibfly =>
    obtain ⟨⟨hshape, hin, -⟩, hi, hj, -⟩ := of_decide_eq_true h
    obtain rfl | rfl := hr
    · simpa only [Nat.one_mul] using State.caddr_in (m := 1) hin (hi.trans_le hshape.2)
    · simpa only [Nat.one_mul] using State.caddr_in (m := 1) hin (hj.trans_le hshape.2)
  case fft | ifft => subst hr; exact (of_decide_eq_true h).1.2.1
  case cconv | nconv =>
    obtain ⟨⟨hd, ha, hb, -⟩, -⟩ := of_decide_eq_true h
    obtain rfl | rfl | rfl := hr
    exacts [ha.2.1, hb.2.1, hd.2.1]
  case cmul | kmul | kmulT | kmulTL =>
    obtain ⟨⟨-, -, -, hin, -⟩, ⟨-, hlen⟩, -⟩ := of_decide_eq_true h
    subst hr
    exact State.storeRegion_in hin hlen

/-! What an answered command leaves, in one frame: nothing of its effect after an error. -/

theorem readCsr_complete {c : Csr} (e : Option ErrorKind) (h1 : c ≠ .err) (h2 : c ≠ .esticky) (h3 : c ≠ .cseq) :
    (s.complete e).readCsr c = s.readCsr c := by
  cases c
  case err => exact absurd rfl h1
  case esticky => exact absurd rfl h2
  case cseq => exact absurd rfl h3
  all_goals rfl

/-- What a command can have done: an effect within its frame and a completion, or an error of its row and nothing else. -/
theorem exec_frame (h : exec i s = .next t) :
    (∃ u, i.effect s = .ok u ∧ Frame i.writtenRegs i.writtenCsrs (i.stores s) s u ∧ t = u.complete none)
      ∨ ∃ k ∈ i.mayRaise, t = s.complete (some k) := by
  obtain ⟨u, hu, rfl⟩ | ⟨k, hk, rfl⟩ := exec_next.1 h
  · exact .inl ⟨u, hu, effect_frame hu, rfl⟩
  · exact .inr ⟨k, checks_error_mem_mayRaise (effect_error.1 hk), rfl⟩

/-- Settles O16: the registers are a part of the command's frame. -/
theorem registerFrame : Obligations.RegisterFrame := by
  intro i s t h r hr
  obtain ⟨u, -, hf, rfl⟩ | ⟨k, -, rfl⟩ := exec_frame h
  · exact hf.reg r (hr.resolve_right fun herr => herr rfl)
  · rfl

/-- Settles O17: the control registers are a part of the command's frame, and a completion writes three. -/
theorem controlRegisterFrame : Obligations.ControlRegisterFrame := by
  intro i s t h c h1 h2 h3 hc
  obtain ⟨u, -, hf, rfl⟩ | ⟨k, -, rfl⟩ := exec_frame h
  · exact (readCsr_complete none h1 h2 h3).trans (hf.csr c (hc.resolve_right fun herr => herr rfl))
  · exact readCsr_complete _ h1 h2 h3

/-- Settles O18: memory is a part of the command's frame. -/
theorem memoryFrame : Obligations.MemoryFrame := by
  intro i s t h a ha
  obtain ⟨u, -, hf, rfl⟩ | ⟨k, -, rfl⟩ := exec_frame h
  · exact hf.byte a (ha.resolve_right fun herr => herr rfl)
  · rfl

/-- Settles O11: every effect keeps the parameters, the host and the draw of memory, and the rest is the completion. -/
theorem everyCommandCompletes : Obligations.EveryCommandCompletes := by
  intro i s
  obtain ⟨t, ht⟩ := command_total s (i.effect s)
  have h : exec i s = .next t := (exec_eq_command i s).trans ht
  have hseq : ∀ c : Word, (c + 1).toNat = (c.toNat + 1) % 2 ^ 64 := fun c => BitVec.toNat_add c 1
  refine ⟨t, h, ?_⟩
  obtain ⟨u, -, hf, rfl⟩ | ⟨k, hk, rfl⟩ := exec_frame h
  · exact ⟨(hseq u.cseq).trans (by rw [hf.cseq]), rfl, hf.params, hf.inputs, hf.draw, rfl, rfl, State.faultLine_iff _, .inl rfl⟩
  · exact ⟨hseq s.cseq, rfl, rfl, rfl, rfl, rfl, rfl, State.faultLine_iff _, .inr ⟨k, hk, rfl⟩⟩

/-! The invariant. -/

/-- The kinds of 60_exceptions.md R232 are those that R231 says are raised. -/
theorem mayRaise_code {k : ErrorKind} (h : k ∈ i.mayRaise) :
    (BitVec.ofNat 64 k.code).toNat ∈ errCodes ∧ BitVec.twoPow 64 k.code &&& ~~~stickyMask = 0 := by
  have hk : k ≠ .modulusInvalid ∧ k ≠ .notCoprime := by
    cases i <;> simp only [Instr.mayRaise, List.mem_cons, List.not_mem_nil, or_false] at h <;> grind
  cases k
  case modulusInvalid => exact absurd rfl hk.1
  case notCoprime => exact absurd rfl hk.2
  all_goals decide

theorem sticky_or {a b m : Word} (ha : a &&& m = 0) (hb : b &&& m = 0) : (a ||| b) &&& m = 0 := by
  rw [BitVec.and_comm, BitVec.and_or_distrib_left, BitVec.and_comm m, BitVec.and_comm m, ha, hb]
  rfl

theorem sticky_and {a b m : Word} (ha : a &&& m = 0) : (a &&& b) &&& m = 0 := by
  rw [BitVec.and_assoc, BitVec.and_comm b, ← BitVec.and_assoc, ha]
  exact BitVec.zero_and

/-- An error of a kind that is raised keeps the invariant. -/
theorem State.Inv.complete_error {k : ErrorKind} (hs : s.Inv) (hc : (BitVec.ofNat 64 k.code).toNat ∈ errCodes)
    (hb : BitVec.twoPow 64 k.code &&& ~~~stickyMask = 0) : (s.complete (some k)).Inv :=
  ⟨hs.ordered, hs.bounded, hc, sticky_or hs.stickyLegal hb, rfl⟩

/-- Every effect keeps the bits of `ESTICKY` that are always 0. -/
theorem effect_sticky (hs : s.esticky &&& ~~~stickyMask = 0) (h : i.effect s = .ok u) : u.esticky &&& ~~~stickyMask = 0 := by
  by_cases hi : ∃ xs, i = .csrw 0x011 xs
  · obtain ⟨xs, rfl⟩ := hi
    rw [Instr.effect, csrwBody_esticky] at h
    cases h
    exact sticky_and hs
  · rw [effect_esticky_of_ne (not_exists.1 hi) h, hs]

/-- Every command keeps the invariant: what it stores lies in limb memory. -/
theorem exec_inv (hs : s.Inv) (h : exec i s = .next t) : t.Inv := by
  obtain ⟨u, hu, hf, rfl⟩ | ⟨k, hk, rfl⟩ := exec_frame h
  · have hready := (ready_iff_effect_ok i s).2 ⟨u, hu⟩
    have hM : u.memLimbs * u.limbBytes = s.memLimbs * s.limbBytes := by
      simp only [State.memLimbs, State.limbBytes, hf.params]
    have hst := effect_sticky hs.stickyLegal hu
    refine ⟨hf.ordered hs.ordered, ?_, List.mem_cons_self, hst, rfl⟩
    exact hM ▸ hf.bounded (fun r hr => .inr (stores_inMem hready r hr)) hs.bounded
  · obtain ⟨hc, hb⟩ := mayRaise_code hk
    exact hs.complete_error hc hb

theorem runWord_inv {w : CmdWord} (hs : s.Inv) (h : runWord w s = .next t) : t.Inv := by
  cases hw : decode w with
  | ok i => exact exec_inv hs ((runWord_ok hw s).symm.trans h)
  | error e =>
    rw [runWord_error hw] at h
    cases h
    exact hs.complete_error (by decide) (by decide)

/-- A write of the host keeps the invariant: its limb lies in limb memory. -/
theorem hostWrite_inv {a : Nat} {v : Word} (hs : s.Inv) (h : s.hostWrite a v = .next t) : t.Inv := by
  obtain ⟨ha, rfl⟩ := (s.hostWrite_next).1 h
  exact ⟨State.memWrite_wf hs.ordered _ _ _, State.memWrite_below hs.bounded (.inr (State.cells_le ha)) _, hs.errLegal,
    hs.stickyLegal, hs.arenaEmpty⟩

/-- The invariant says nothing of the host's later inputs. -/
theorem State.Inv.with_inputs (hs : s.Inv) (rest : List HostInput) : ({ s with inputs := rest } : State).Inv :=
  ⟨hs.ordered, hs.bounded, hs.errLegal, hs.stickyLegal, hs.arenaEmpty⟩

theorem State.Inv.endPulse (hs : s.Inv) : s.endPulse.Inv :=
  ⟨hs.ordered, hs.bounded, hs.errLegal, hs.stickyLegal, hs.arenaEmpty⟩

/-- Settles O10, by the host's next input: none, a command word, a limb, or `rst`. -/
theorem invariantKeptByStep : Obligations.InvariantKeptByStep := by
  intro s t hs h
  cases hin : s.inputs with
  | nil =>
    rw [step_idle hin] at h
    cases h
    exact hs.endPulse
  | cons x rest =>
    cases x with
    | command w => exact runWord_inv (hs.with_inputs rest) ((step_command hin).symm.trans h)
    | writeLimb a v => exact hostWrite_inv (hs.with_inputs rest).endPulse ((step_writeLimb hin).symm.trans h)
    | rst =>
      rw [step_rst hin] at h
      cases h
      exact State.resetWith_inv _ _ _

end Sys2Proof.Machine

/-! What `CSRR` reads and `CSRW` leaves, register by register of the map of 10_state.md R36, and the results of the limb primitives
(40_limb_primitives.md R103 to R106) and of the scans (41_packing.md R121, R122). -/

namespace Sys2Proof.Machine

variable {s t : State}

/-! The numbers of the descriptor registers. -/

theorem Csr.ofNumber_span : ∀ k : SpanIx, Csr.ofNumber (BitVec.ofNat 12 (0x100 + 2 * k)) = some (.spanBase k)
    ∧ Csr.ofNumber (BitVec.ofNat 12 (0x101 + 2 * k)) = some (.spanLen k) := by
  decide +kernel

theorem Csr.ofNumber_cip : ∀ k : CipIx, Csr.ofNumber (BitVec.ofNat 12 (0x200 + 4 * k)) = some (.cipBase k)
    ∧ Csr.ofNumber (BitVec.ofNat 12 (0x201 + 4 * k)) = some (.cipLimbs k)
    ∧ Csr.ofNumber (BitVec.ofNat 12 (0x202 + 4 * k)) = some (.cipLen k)
    ∧ Csr.ofNumber (BitVec.ofNat 12 (0x203 + 4 * k)) = some (.cipAlloc k) := by
  decide +kernel

theorem Csr.ofNumber_frp : ∀ k : FrpIx, Csr.ofNumber (BitVec.ofNat 12 (0x300 + 8 * k)) = some (.frpBase k)
    ∧ Csr.ofNumber (BitVec.ofNat 12 (0x301 + 8 * k)) = some (.frpDepth k)
    ∧ Csr.ofNumber (BitVec.ofNat 12 (0x302 + 8 * k)) = some (.frpN k)
    ∧ Csr.ofNumber (BitVec.ofNat 12 (0x303 + 8 * k)) = some (.frpLen k)
    ∧ Csr.ofNumber (BitVec.ofNat 12 (0x304 + 8 * k)) = some (.frpScratch k) := by
  decide +kernel

/-! Reading and writing one register. -/

theorem exec_csrr (s : State) (xd : Reg) {c : CsrNum} {x : Csr} (h : Csr.ofNumber c = some x) :
    ∃ t, exec (.csrr xd c) s = .next t ∧ t.err = 0 ∧ t.reg xd = s.readCsr x :=
  ⟨_, exec_of_effect_ok (csrrBody_ok.2 ⟨x, h, rfl⟩), rfl, (s.reg_setReg xd xd _).trans (if_pos rfl)⟩

theorem exec_csrw {p : State → Prop} {xs : Reg} {c : CsrNum} {x : Csr} {u : State} (h : Csr.ofNumber c = some x)
    (hw : s.writeCsr x (s.reg xs) = some u) (hp : p (u.complete none)) :
    ∃ t, exec (.csrw c xs) s = .next t ∧ t.err = 0 ∧ p t :=
  ⟨_, exec_of_effect_ok (csrwBody_ok.2 ⟨x, h, hw⟩), rfl, hp⟩

theorem State.flagsWord_eq (s : State) : s.flagsWord = if s.flagC then 1 else 0 := by
  rw [State.flagsWord]
  cases s.flagC <;> rfl

/-- Settles O30, number by number. -/
theorem controlRegisterReads : Obligations.ControlRegisterReads := by
  intro s xd reads
  have read {c : CsrNum} {x : Csr} (h : Csr.ofNumber c = some x) : reads c (s.readCsr x) := exec_csrr s xd h
  refine ⟨read (x := .lauid) rfl, read (x := .pw) rfl, read (x := .pmem) rfl, read (x := .pscr) rfl, read (x := .err) rfl,
    read (x := .esticky) rfl, read (x := .cseq) rfl, s.flagsWord_eq ▸ read (x := .flags) rfl, read (x := .kcut) rfl,
    fun k => ?_, fun k => ?_, fun k => ?_⟩
  · obtain ⟨hb, hl⟩ := Csr.ofNumber_span k
    exact ⟨read hb, read hl⟩
  · obtain ⟨hb, hn, hl, ha⟩ := Csr.ofNumber_cip k
    exact ⟨read hb, read hn, read hl, read ha⟩
  · obtain ⟨hb, hd, hn, hl, hs⟩ := Csr.ofNumber_frp k
    exact ⟨read hb, read hd, read hn, read hl, read hs⟩

theorem State.getElem_setSpan (s : State) (k : SpanIx) (v : SpanSlot) : (s.setSpan k v).spans[k] = v :=
  (vector_get_set _ k k v).trans (if_pos rfl)

theorem State.getElem_setCip (s : State) (k : CipIx) (v : CipSlot) : (s.setCip k v).cips[k] = v :=
  (vector_get_set _ k k v).trans (if_pos rfl)

theorem State.getElem_setFrp (s : State) (k : FrpIx) (v : FrpSlot) : (s.setFrp k v).frps[k] = v :=
  (vector_get_set _ k k v).trans (if_pos rfl)

/-- Settles O31, number by number. -/
theorem controlRegisterWrites : Obligations.ControlRegisterWrites := by
  intro s xs writes v
  refine ⟨exec_csrw (x := .esticky) rfl rfl rfl, exec_csrw (x := .flags) rfl rfl rfl, exec_csrw (x := .kcut) rfl rfl rfl,
    fun k => ?_, fun k => ?_, fun k => ?_⟩
  · obtain ⟨hb, hl⟩ := Csr.ofNumber_span k
    have slot (d : SpanSlot) := s.getElem_setSpan k d
    exact ⟨exec_csrw hb rfl (congrArg SpanSlot.base (slot _)), exec_csrw hl rfl (congrArg SpanSlot.len (slot _))⟩
  · obtain ⟨hb, hn, hl, ha⟩ := Csr.ofNumber_cip k
    have slot (d : CipSlot) := s.getElem_setCip k d
    exact ⟨exec_csrw hb rfl (congrArg CipSlot.base (slot _)), exec_csrw hn rfl (congrArg CipSlot.limbs (slot _)),
      exec_csrw hl rfl (congrArg CipSlot.len (slot _)), exec_csrw ha rfl (congrArg CipSlot.alloc (slot _))⟩
  · obtain ⟨hb, hd, hn, hl, hs⟩ := Csr.ofNumber_frp k
    have slot (d : FrpSlot) := s.getElem_setFrp k d
    exact ⟨exec_csrw hb rfl (congrArg FrpSlot.base (slot _)), exec_csrw hd rfl (congrArg FrpSlot.depth (slot _)),
      exec_csrw hn rfl (congrArg FrpSlot.n (slot _)), exec_csrw hl rfl (congrArg FrpSlot.len (slot _)),
      exec_csrw hs rfl (congrArg FrpSlot.scratch (slot _))⟩

/-! Multiplication and division of spans. -/

/-- Settles O33: the product of two spans needs no more limbs than both have. -/
theorem multiplyWholeProduct : Obligations.MultiplyWholeProduct := by
  intro s sd sa sb h
  have hready := h
  simp only [Instr.ready, decide_eq_true_eq] at h
  obtain ⟨-, -, hd, -⟩ := h
  have hm : s.spanLen sa + s.spanLen sb < 2 ^ 64 := (Nat.le_add_left _ _).trans_lt (hd.trans_lt s.params.memLimbs.isLt)
  have hv : s.spanNum sa * s.spanNum sb < s.radix ^ (s.spanLen sa + s.spanLen sb) := by
    rw [pow_add]
    exact Nat.mul_lt_mul'' (s.spanNum_lt_radix_pow le_rfl) (s.spanNum_lt_radix_pow le_rfl)
  exact ⟨_, exec_of_effect_ok (lmulBody_ok.2 ⟨hready, rfl⟩), rfl, s.spanLen_writeSpan hm, s.spanNum_writeSpan hm hv⟩

section
variable (s : State) (sq sr : SpanIx) {la lv q r : Nat}

/-- The two writes of `LDIVREM` as they stand in memory: the remainder's over the quotient's. -/
theorem State.memRead_writeDivision (b n : Nat) : (s.writeDivision sq sr la lv q r).memRead b n
    = ((s.memWrite (s.spanBase sq) la q).memWrite (s.spanBase sr) lv r).memRead b n :=
  State.memRead_congr rfl rfl b n

theorem State.spanBase_writeDivision (k : SpanIx) : (s.writeDivision sq sr la lv q r).spanBase k = s.spanBase k := by
  rw [State.writeDivision, State.spanBase_setSpanLen]
  exact State.spanBase_setSpanLen _ _ _ _

theorem State.spanLen_writeDivision_remainder (h : lv < 2 ^ 64) : (s.writeDivision sq sr la lv q r).spanLen sr = lv := by
  rw [State.writeDivision, State.spanLen_setSpanLen, if_pos rfl, Nat.mod_eq_of_lt h]

theorem State.spanLen_writeDivision_quotient (h : la < 2 ^ 64) (hne : sq ≠ sr) :
    (s.writeDivision sq sr la lv q r).spanLen sq = la := by
  rw [State.writeDivision, State.spanLen_setSpanLen, if_neg hne.symm]
  exact (State.spanLen_setSpanLen _ _ _ _).trans ((if_pos rfl).trans (Nat.mod_eq_of_lt h))

theorem State.spanNum_writeDivision_remainder (h : lv < 2 ^ 64) (hr : r < s.radix ^ lv) :
    (s.writeDivision sq sr la lv q r).spanNum sr = r := by
  rw [State.spanNum, spanLen_writeDivision_remainder s sq sr h, spanBase_writeDivision, memRead_writeDivision,
    State.memRead_memWrite]
  exact Nat.mod_eq_of_lt hr

theorem State.spanNum_writeDivision_quotient (h : la < 2 ^ 64) (hne : sq ≠ sr) (hq : q < s.radix ^ la)
    (hap : Apart (s.spanBase sq) la (s.spanBase sr) lv) : (s.writeDivision sq sr la lv q r).spanNum sq = q := by
  rw [State.spanNum, spanLen_writeDivision_quotient s sq sr h hne, spanBase_writeDivision, memRead_writeDivision,
    State.memRead_memWrite_of_apart _ hap.symm, State.memRead_memWrite, Nat.mod_eq_of_lt hq]

theorem State.limb_writeDivision {j : Nat} (hj : j < la)
    (hap : s.spanBase sq + j < s.spanBase sr ∨ s.spanBase sr + lv ≤ s.spanBase sq + j) :
    (s.writeDivision sq sr la lv q r).limb (s.spanBase sq + j) = q / s.radix ^ j % s.radix := by
  rw [← State.memRead_one, memRead_writeDivision, State.memRead_memWrite_of_apart _ hap.symm,
    State.memRead_memWrite_inside _ hj, pow_one]

end

/-- Settles O34. -/
theorem divideWithRemainder : Obligations.DivideWithRemainder := by
  intro s sq sr sa sv h
  have hready := h
  simp only [Instr.ready, decide_eq_true_eq] at h
  obtain ⟨-, -, -, -, hv⟩ := h
  have hq : s.spanNum sa / s.spanNum sv < s.radix ^ s.spanLen sa :=
    (Nat.div_le_self _ _).trans_lt (s.spanNum_lt_radix_pow le_rfl)
  have hr : s.spanNum sa % s.spanNum sv < s.spanNum sv := Nat.mod_lt _ (Nat.pos_of_ne_zero hv)
  have hnum : ((s.writeDivision sq sr (s.spanLen sa) (s.spanLen sv) (s.spanNum sa / s.spanNum sv)
      (s.spanNum sa % s.spanNum sv)).complete none).spanNum sr = s.spanNum sa % s.spanNum sv :=
    s.spanNum_writeDivision_remainder sq sr (s.spanLen_lt sv) (hr.trans (s.spanNum_lt_radix_pow le_rfl))
  refine ⟨_, s.spanNum sa / s.spanNum sv, exec_of_effect_ok (ldivremBody_ok.2 ⟨hready, rfl⟩), rfl,
    s.spanLen_writeDivision_remainder sq sr (s.spanLen_lt sv), hnum.trans_lt hr, ?_,
    s.spanLen_writeDivision_quotient sq sr (s.spanLen_lt sa),
    fun hne => s.spanNum_writeDivision_quotient sq sr (s.spanLen_lt sa) hne hq, fun j => s.limb_writeDivision sq sr⟩
  rw [hnum, Nat.div_add_mod']

/-! The reciprocal (40_limb_primitives.md R111). -/

theorem LimbWidth.radix_le (w : LimbWidth) : w.radix ≤ 2 ^ 64 := by
  cases w <;> decide

theorem State.lt_word_of_lt_radix (s : State) {v : Nat} (h : v < s.radix) : v < 2 ^ 64 :=
  h.trans_le (LimbWidth.radix_le _)

theorem State.regNat_setRegNat (s : State) (r : Reg) {v : Nat} (h : v < 2 ^ 64) : (s.setRegNat r v).regNat r = v := by
  rw [State.regNat, State.reg_setRegNat, if_pos rfl, BitVec.toNat_ofNat, Nat.mod_eq_of_lt h]

/-- A number with all its `w` bits' top bit shifted up to place `w − 1`. -/
theorem shifted_bounds {w d : Nat} (hd : d ≠ 0) (h : d < 2 ^ w) :
    2 ^ w ≤ 2 * (d * 2 ^ (w - bitlen d)) ∧ d * 2 ^ (w - bitlen d) < 2 ^ w := by
  have hle : bitlen d ≤ w := bitlen_le_iff.2 h
  have hpos : bitlen d ≠ 0 := fun h0 => hd (Nat.lt_one_iff.1 (bitlen_le_iff.1 h0.le))
  have hlow : 2 ^ (bitlen d - 1) ≤ d := Nat.le_of_not_lt fun hlt => by
    have := bitlen_le_iff.2 hlt
    omega
  have hw : 2 ^ w = 2 ^ bitlen d * 2 ^ (w - bitlen d) := by rw [← pow_add, Nat.add_sub_cancel' hle]
  have htwo : 2 ^ bitlen d = 2 * 2 ^ (bitlen d - 1) := (mul_pow_sub_one hpos 2).symm
  constructor
  · calc 2 ^ w = 2 * (2 ^ (bitlen d - 1) * 2 ^ (w - bitlen d)) := by rw [hw, htwo, Nat.mul_assoc]
      _ ≤ _ := Nat.mul_le_mul_left _ (Nat.mul_le_mul_right _ hlow)
  · rw [hw]
    exact Nat.mul_lt_mul_of_pos_right (bitlen_le_iff.1 le_rfl) (Nat.two_pow_pos _)

/-- The bounds of the pre-inverse `(B² − 1) div dn − B` of a divisor with its top bit set. -/
theorem preInverse_bounds {B dn : Nat} (hlow : B ≤ 2 * dn) (hhigh : dn < B) :
    let r := (B ^ 2 - 1) / dn - B
    1 ≤ r ∧ r < B ∧ (B + r) * dn ≤ B ^ 2 - 1 ∧ B ^ 2 - 1 < (B + r + 1) * dn := by
  intro r
  have hdn : 0 < dn := by omega
  have hone : (B + 1) * dn ≤ B ^ 2 - 1 := by
    calc (B + 1) * dn ≤ (B + 1) * (B - 1) := Nat.mul_le_mul_left _ (by omega)
      _ = B ^ 2 - 1 := (Nat.sq_sub_sq B 1).symm
  have hge : B + 1 ≤ (B ^ 2 - 1) / dn := (Nat.le_div_iff_mul_le hdn).2 hone
  have hsum : B + r = (B ^ 2 - 1) / dn := by omega
  have hlt : (B ^ 2 - 1) / dn < 2 * B := by
    rw [Nat.div_lt_iff_lt_mul hdn]
    calc B ^ 2 - 1 < B ^ 2 := Nat.sub_lt (Nat.pow_pos (Nat.zero_lt_of_lt hhigh)) Nat.one_pos
      _ = B * B := sq B
      _ ≤ B * (2 * dn) := Nat.mul_le_mul_left _ hlow
      _ = 2 * B * dn := by ring
  refine ⟨by omega, by omega, ?_, ?_⟩
  · rw [hsum]
    exact Nat.div_mul_le_self _ _
  · rw [hsum, ← Nat.div_lt_iff_lt_mul hdn]
    exact Nat.lt_succ_self _

/-- Settles O35. -/
theorem reciprocalOfLimb : Obligations.ReciprocalOfLimb := by
  intro s xd xs h
  obtain ⟨hlow, hhigh⟩ := shifted_bounds h (Nat.mod_lt _ s.radix_pos)
  obtain ⟨hr1, hrB, hle, hlt⟩ := preInverse_bounds hlow hhigh
  have hreg : ((s.setRegNat xd (recip s.width (s.regLimb xs))).complete none).regNat xd = recip s.width (s.regLimb xs) :=
    s.regNat_setRegNat xd (s.lt_word_of_lt_radix hrB)
  refine ⟨_, exec_of_effect_ok (lrecipBody_ok.2 ⟨decide_eq_true (p := s.regLimb xs ≠ 0) h, rfl⟩), rfl, ?_⟩
  rw [hreg]
  exact ⟨hlow, hhigh, hr1, hrB, hle, hlt⟩

/-- Settles O36, by whether the reciprocal matches. -/
theorem divideByOneLimb : Obligations.DivideByOneLimb := by
  intro s sq sa xv xi xr h
  have hexec := exec_of_effect_ok (i := .ldiv1p sq sa xv xi xr) (ldiv1pBody_ok.2 ⟨h, rfl⟩)
  simp only [Instr.ready, decide_eq_true_eq] at h
  obtain ⟨-, -, hv⟩ := h
  have hr : s.spanNum sa % s.regLimb xv < s.radix :=
    (Nat.mod_lt _ (Nat.pos_of_ne_zero hv)).trans (Nat.mod_lt _ s.radix_pos)
  have hq : s.spanNum sa / s.regLimb xv < s.radix ^ s.spanLen sa :=
    (Nat.div_le_self _ _).trans_lt (s.spanNum_lt_radix_pow le_rfl)
  by_cases hmatch : s.regLimb xi = recip s.width (s.regLimb xv)
  · rw [if_pos hmatch] at hexec
    exact ⟨_, hexec, rfl, s.spanLen_writeSpan (s.spanLen_lt sa),
      fun _ => ⟨s.spanNum_writeSpan (s.spanLen_lt sa) hq, State.regNat_setRegNat _ xr (s.lt_word_of_lt_radix hr)⟩⟩
  · rw [if_neg hmatch] at hexec
    refine ⟨_, hexec, rfl, ?_, fun hc => absurd hc hmatch⟩
    exact (State.spanLen_setSpanLen _ sq sq _).trans ((if_pos rfl).trans (Nat.mod_eq_of_lt (s.spanLen_lt sa)))

/-! The scans. -/

theorem listMax_le_iff {l : List Nat} {j : Nat} : listMax l ≤ j ↔ ∀ x ∈ l, x ≤ j := by
  rw [listMax]
  induction l with
  | nil => simp
  | cons x xs ih => simp [ih]

theorem signIndicator_of_neg {c : List Int} (h : ∃ v ∈ c, v < 0) : signIndicator c = 1 :=
  if_pos (by simpa using h)

theorem signIndicator_of_nonneg {c : List Int} (h : ∀ v ∈ c, 0 ≤ v) : signIndicator c = 0 :=
  if_neg (by simpa using h)

/-- A scan with measure `m` of the coefficients, `bound k` the numbers of measure at most `k`. -/
theorem scan_results {i : Instr} {xd xs : Reg} {c : List Int} {m : Int → Nat} {bound : Nat → Nat}
    (h : i.effect s = .ok ((s.setRegNat xd (listMax (c.map m))).setRegNat xs (signIndicator c)))
    (hm : ∀ v k, m v ≤ k ↔ v.natAbs < bound k) :
    ∃ t k, exec i s = .next t ∧ t.err = 0 ∧ (∀ v ∈ c, v.natAbs < bound k) ∧ (∀ j, (∀ v ∈ c, v.natAbs < bound j) → k ≤ j)
      ∧ (xd ≠ xs → t.reg xd = BitVec.ofNat 64 k) ∧ ((∃ v ∈ c, v < 0) → t.reg xs = 1) ∧ ((∀ v ∈ c, 0 ≤ v) → t.reg xs = 0) := by
  have hk (j : Nat) : listMax (c.map m) ≤ j ↔ ∀ v ∈ c, v.natAbs < bound j := by
    simp only [listMax_le_iff, List.forall_mem_map, hm]
  have hxs : ((s.setRegNat xd (listMax (c.map m))).setRegNat xs (signIndicator c)).reg xs
      = BitVec.ofNat 64 (signIndicator c) := (State.reg_setRegNat _ xs xs _).trans (if_pos rfl)
  refine ⟨_, listMax (c.map m), exec_of_effect_ok h, rfl, (hk _).1 le_rfl, fun j => (hk j).2, fun hne => ?_,
    fun hn => hxs.trans (by rw [signIndicator_of_neg hn]; rfl), fun hn => hxs.trans (by rw [signIndicator_of_nonneg hn]; rfl)⟩
  have hother : ((s.setRegNat xd (listMax (c.map m))).setRegNat xs (signIndicator c)).reg xd
      = (s.setRegNat xd (listMax (c.map m))).reg xd := (State.reg_setRegNat _ xs xd _).trans (if_neg hne.symm)
  exact hother.trans ((s.reg_setRegNat xd xd _).trans (if_pos rfl))

/-- Settles O38: both scans are one scan, with the bits or the limbs of a magnitude as its measure. -/
theorem coefficientScans : Obligations.CoefficientScans := by
  intro s xd xs pa hs hi
  have hready : decide (s.CipShape pa ∧ s.CipIn pa) = true := decide_eq_true ⟨hs, hi⟩
  refine ⟨scan_results (pbitsBody_ok.2 ⟨hready, rfl⟩) fun v k => bitlen_le_iff,
    scan_results (plimbsBody_ok.2 ⟨hready, rfl⟩) fun v k => ?_⟩
  rw [State.radix, LimbWidth.radix, ← pow_mul, Nat.mul_comm]
  exact nlimbs_le_iff (LimbWidth.bits_pos s.params.limb)

end Sys2Proof.Machine

/-! Two's complement and the fields of a packed sum (41_packing.md R124, R126): `Σ g_j·2^(j·f)` read field by field gives the numbers
`g_j` back, since the part below field `j` is smaller than the field's weight and borrows at most once. -/

namespace Sys2Proof.Machine

/-! Two's complement. -/

theorem two_pow_pred {b : Nat} (hb : 0 < b) : 2 ^ b = 2 * 2 ^ (b - 1) := (mul_pow_sub_one hb.ne' 2).symm

theorem natMod_eq_emod (v : Int) (b : Nat) : ((natMod v (2 ^ b) : Nat) : Int) = v % 2 ^ b := by
  rw [natMod_cast (Nat.two_pow_pos b)]
  norm_cast

theorem natMod_two_pow_of_nonneg {b : Nat} {v : Int} (h : 0 ≤ v) (hlt : v < 2 ^ b) : ((natMod v (2 ^ b) : Nat) : Int) = v :=
  (natMod_eq_emod v b).trans (Int.emod_eq_of_lt h hlt)

theorem natMod_two_pow_of_neg {b : Nat} {v : Int} (h : v < 0) (hlt : -2 ^ b ≤ v) :
    ((natMod v (2 ^ b) : Nat) : Int) = v + 2 ^ b := by
  rw [natMod_eq_emod, ← Int.add_emod_right]
  exact Int.emod_eq_of_lt (by omega) (by omega)

/-- Two's complement represents what it has bits for. -/
theorem sext_natMod {b : Nat} (hb : 0 < b) {v : Int} (hlow : -2 ^ (b - 1) ≤ v) (hhigh : v < 2 ^ (b - 1)) :
    sext b (natMod v (2 ^ b)) = v := by
  have htwo : (2 : Int) ^ b = 2 * 2 ^ (b - 1) := by exact_mod_cast two_pow_pred hb
  have hcast : (((2 : Nat) ^ (b - 1) : Nat) : Int) = 2 ^ (b - 1) := by norm_cast
  rw [sext]
  rcases lt_or_ge v 0 with hneg | hnonneg
  · have hm := natMod_two_pow_of_neg hneg (b := b) (by omega)
    rw [if_neg (by omega)]
    omega
  · have hm := natMod_two_pow_of_nonneg hnonneg (b := b) (by omega)
    rw [if_pos (by omega)]
    omega

/-- The top bit of a two's complement pattern is its sign. -/
theorem natMod_top_bit {b : Nat} (hb : 0 < b) {v : Int} (hlow : -2 ^ (b - 1) ≤ v) (hhigh : v < 2 ^ (b - 1)) :
    natMod v (2 ^ b) / 2 ^ (b - 1) % 2 = if v < 0 then 1 else 0 := by
  have htwo : (2 : Int) ^ b = 2 * 2 ^ (b - 1) := by exact_mod_cast two_pow_pred hb
  have hcast : (((2 : Nat) ^ (b - 1) : Nat) : Int) = 2 ^ (b - 1) := by norm_cast
  rcases lt_or_ge v 0 with hneg | hnonneg
  · have hm := natMod_two_pow_of_neg hneg (b := b) (by omega)
    rw [if_pos hneg, Nat.div_eq_of_lt_le (k := 1) (by omega) (by omega)]
  · have hm := natMod_two_pow_of_nonneg hnonneg (b := b) (by omega)
    rw [if_neg (by omega), Nat.div_eq_of_lt (by omega)]

/-! Sums of weighted fields. -/

/-- `Σ_{j < n} g_j·2^(j·f)`, the sum that `packedSum` writes for the numbers of one coefficient. -/
def fieldSum (g : Nat → Int) (f n : Nat) : Int := ∑ j ∈ Finset.range n, g j * 2 ^ (j * f)

/-- The number `v` lies in a field of `f` bits, signed or not. -/
def InField (sgn : Bool) (f : Nat) (v : Int) : Prop :=
  (sgn = true → (v.natAbs : Int) ≤ 2 ^ (f - 1) - 1) ∧ (sgn = false → 0 ≤ v ∧ v < 2 ^ f)

theorem packedSum_eq_fieldSum (e : List Int) (bundle f i : Nat) :
    packedSum e bundle f i = fieldSum (fun j => e.getD (i * bundle + j) 0) f bundle := rfl

theorem InField.zero (sgn : Bool) (f : Nat) : InField sgn f 0 := by
  have h1 : 0 < (2 : Int) ^ (f - 1) := by positivity
  have h2 : 0 < (2 : Int) ^ f := by positivity
  exact ⟨fun _ => by simp only [Int.natAbs_zero]; omega, fun _ => ⟨le_rfl, h2⟩⟩

theorem InFields.getD {sgn : Bool} {f : Nat} {e : List Int} (h : InFields sgn f e) (k : Nat) : InField sgn f (e.getD k 0) := by
  by_cases hk : k < e.length
  · rw [List.getD_eq_getElem _ _ hk]
    exact h _ (List.getElem_mem hk)
  · rw [List.getD_eq_default _ _ (Nat.le_of_not_lt hk)]
    exact InField.zero sgn f

variable {sgn : Bool} {f : Nat} {g : Nat → Int}

theorem InField.abs_lt_two_pow {v : Int} (h : InField sgn f v) : |v| < 2 ^ f := by
  have hle : (2 : Int) ^ (f - 1) ≤ 2 ^ f := pow_le_pow_right₀ (by norm_num) (Nat.sub_le f 1)
  obtain ⟨hs, hu⟩ := h
  rw [abs_lt]
  cases sgn with
  | true =>
    have := hs rfl
    omega
  | false =>
    have := hu rfl
    omega

theorem fieldSum_succ (g : Nat → Int) (f n : Nat) : fieldSum g f (n + 1) = fieldSum g f n + g n * 2 ^ (n * f) :=
  Finset.sum_range_succ _ _

theorem abs_fieldSum_lt (hg : ∀ j, InField sgn f (g j)) (n : Nat) : |fieldSum g f n| < 2 ^ (n * f) := by
  induction n with
  | zero => simp [fieldSum]
  | succ n ih =>
    have hpos : (0 : Int) < 2 ^ (n * f) := by positivity
    have hstep : |g n| * 2 ^ (n * f) ≤ (2 ^ f - 1) * 2 ^ (n * f) :=
      mul_le_mul_of_nonneg_right (Int.le_sub_one_of_lt (hg n).abs_lt_two_pow) hpos.le
    calc |fieldSum g f (n + 1)| ≤ |fieldSum g f n| + |g n| * 2 ^ (n * f) := by
          rw [fieldSum_succ]
          exact (abs_add_le _ _).trans (by rw [abs_mul, abs_of_pos hpos])
      _ < 2 ^ (n * f) + (2 ^ f - 1) * 2 ^ (n * f) := add_lt_add_of_lt_of_le ih hstep
      _ = 2 ^ ((n + 1) * f) := by rw [Nat.succ_mul, pow_add]; ring

/-- From field `j` up, a sum is `g_j` and a multiple of the next field's weight. -/
theorem fieldSum_split (g : Nat → Int) (f : Nat) {j n : Nat} (hj : j < n) :
    ∃ T, fieldSum g f n = fieldSum g f j + 2 ^ (j * f) * (g j + 2 ^ f * T) := by
  induction n, hj using Nat.le_induction with
  | base => exact ⟨0, by rw [fieldSum_succ]; ring⟩
  | succ n hn ih =>
    obtain ⟨T, hT⟩ := ih
    refine ⟨T + g n * 2 ^ ((n - (j + 1)) * f), ?_⟩
    have hexp : n * f = j * f + f + (n - (j + 1)) * f := by
      rw [← Nat.succ_mul, ← Nat.add_mul, Nat.add_sub_cancel' hn]
    rw [fieldSum_succ, hT, hexp, pow_add, pow_add]
    ring

/-- What the fields below `j` take from field `j`. -/
def borrowBelow (g : Nat → Int) (f j : Nat) : Int := if fieldSum g f j < 0 then 1 else 0

theorem fieldSum_div (hg : ∀ j, InField sgn f (g j)) (j : Nat) : fieldSum g f j / 2 ^ (j * f) = -borrowBelow g f j := by
  have hlt := abs_lt.1 (abs_fieldSum_lt hg j)
  rw [borrowBelow]
  split
  · exact ((Int.ediv_emod_unique (by positivity)).2 ⟨by ring, by omega, by omega⟩ :
      _ ∧ fieldSum g f j % 2 ^ (j * f) = fieldSum g f j + 2 ^ (j * f)).1
  · exact Int.ediv_eq_zero_of_lt (by omega) (by omega)

/-- The raw field `j` of a sum holds `g_j` less the borrow of the fields below. -/
theorem rawField_fieldSum (hg : ∀ j, InField sgn f (g j)) {j n : Nat} (hj : j < n) :
    rawField (fieldSum g f n) f j = natMod (g j - borrowBelow g f j) (2 ^ f) := by
  obtain ⟨T, hT⟩ := fieldSum_split g f hj
  have hdiv : fieldSum g f n / 2 ^ (j * f) = g j - borrowBelow g f j + 2 ^ f * T := by
    rw [hT, Int.add_mul_ediv_left _ _ (by positivity), fieldSum_div hg]
    ring
  rw [rawField, hdiv, natMod, natMod]
  norm_cast
  rw [Int.add_mul_emod_self_left]

theorem borrowBelow_bounds (g : Nat → Int) (f j : Nat) : 0 ≤ borrowBelow g f j ∧ borrowBelow g f j ≤ 1 := by
  rw [borrowBelow]
  split <;> omega

theorem borrowBelow_unsigned (hg : ∀ j, InField false f (g j)) (j : Nat) : borrowBelow g f j = 0 :=
  if_neg (not_lt.2 (Finset.sum_nonneg fun i _ => mul_nonneg ((hg i).2 rfl).1 (by positivity)))

theorem signed_bounds (hg : ∀ j, InField true f (g j)) (j : Nat) :
    -2 ^ (f - 1) ≤ g j - borrowBelow g f j ∧ g j - borrowBelow g f j < 2 ^ (f - 1) := by
  have h := (hg j).1 rfl
  obtain ⟨h0, h1⟩ := borrowBelow_bounds g f j
  omega

/-- The sign of a sum of fields is that of its top field less the borrow. -/
theorem borrowBelow_succ (hg : ∀ j, InField sgn f (g j)) (j : Nat) :
    borrowBelow g f (j + 1) = if g j - borrowBelow g f j < 0 then 1 else 0 := by
  have hlt := abs_lt.1 (abs_fieldSum_lt hg j)
  have hpos : (0 : Int) < 2 ^ (j * f) := by positivity
  have key : fieldSum g f (j + 1) < 0 ↔ g j - borrowBelow g f j < 0 := by
    rw [fieldSum_succ]
    rcases lt_trichotomy (g j) 0 with h | h | h
    · have hle : g j * 2 ^ (j * f) ≤ -1 * 2 ^ (j * f) := mul_le_mul_of_nonneg_right (by omega) hpos.le
      have hb := borrowBelow_bounds g f j
      exact iff_of_true (by omega) (by omega)
    · rw [h, zero_mul, add_zero, borrowBelow]
      split <;> omega
    · have hge : 1 * 2 ^ (j * f) ≤ g j * 2 ^ (j * f) := mul_le_mul_of_nonneg_right (by omega) hpos.le
      have hb := borrowBelow_bounds g f j
      exact iff_of_false (by omega) (by omega)
  rw [borrowBelow, if_congr key rfl rfl]

theorem fieldBorrow_fieldSum (hf : 0 < f) (hg : ∀ j, InField true f (g j)) {j n : Nat} (hj : j ≤ n) :
    ((fieldBorrow (fieldSum g f n) f j : Nat) : Int) = borrowBelow g f j := by
  cases j with
  | zero => simp [fieldBorrow, borrowBelow, fieldSum]
  | succ j =>
    obtain ⟨hlow, hhigh⟩ := signed_bounds hg j
    rw [fieldBorrow, rawField_fieldSum hg hj, natMod_top_bit hf hlow hhigh, borrowBelow_succ hg]
    exact Nat.cast_ite ..

/-- Field `j` of a sum of fields reads `g_j`. -/
theorem fieldValue_fieldSum (hf : 0 < f) (hg : ∀ j, InField sgn f (g j)) {j n : Nat} (hj : j < n) :
    fieldValue sgn (fieldSum g f n) f j = g j := by
  cases sgn with
  | true =>
    obtain ⟨hlow, hhigh⟩ := signed_bounds hg j
    rw [fieldValue, if_pos rfl, rawField_fieldSum hg hj, sext_natMod hf hlow hhigh, fieldBorrow_fieldSum hf hg hj.le]
    ring
  | false =>
    obtain ⟨h0, h1⟩ := (hg j).2 rfl
    rw [fieldValue, if_neg Bool.false_ne_true, rawField_fieldSum hg hj, borrowBelow_unsigned hg, sub_zero,
      natMod_two_pow_of_nonneg h0 h1]

/-! A field depends on the bits up to its own alone. -/

theorem rawField_mod (v : Int) {j K : Nat} (h : (j + 1) * f ≤ K) : rawField (v % 2 ^ K) f j = rawField v f j := by
  have hK : (2 : Int) ^ K = 2 ^ (j * f) * (2 ^ f * 2 ^ (K - (j + 1) * f)) := by
    rw [← pow_add, ← pow_add]
    congr 1
    rw [Nat.succ_mul] at h ⊢
    omega
  have hdiv : v / 2 ^ (j * f) = v % 2 ^ K / 2 ^ (j * f) + 2 ^ f * (2 ^ (K - (j + 1) * f) * (v / 2 ^ K)) := by
    rw [← Int.add_mul_ediv_left _ _ (by positivity : (2 : Int) ^ (j * f) ≠ 0), ← mul_assoc, ← mul_assoc,
      mul_assoc (2 ^ (j * f)), ← hK, Int.emod_add_mul_ediv]
  rw [rawField, rawField, natMod, natMod, hdiv]
  norm_cast
  rw [Int.add_mul_emod_self_left]

theorem fieldValue_mod (sgn : Bool) (v : Int) {j K : Nat} (h : (j + 1) * f ≤ K) :
    fieldValue sgn (v % 2 ^ K) f j = fieldValue sgn v f j := by
  have hborrow : fieldBorrow (v % 2 ^ K) f j = fieldBorrow v f j := by
    cases j with
    | zero => rfl
    | succ j => rw [fieldBorrow, fieldBorrow, rawField_mod v ((Nat.mul_le_mul_right f (Nat.le_succ _)).trans h)]
  rw [fieldValue, fieldValue, rawField_mod v h, hborrow]

/-- Settles O42. -/
theorem packedFieldsDecode : Obligations.PackedFieldsDecode := by
  intro e f sgn hf he v j hj
  have hv : v = fieldSum (fun k => e.getD k 0) f e.length := by
    simp only [v, packedSum_eq_fieldSum, Nat.zero_mul, Nat.zero_add]
  have hval : fieldValue sgn v f j = e[j] := by
    rw [hv, fieldValue_fieldSum hf he.getD hj]
    exact List.getD_eq_getElem _ _ hj
  exact ⟨hval, (fieldValue_mod sgn v (Nat.mul_le_mul_right f hj)).trans hval⟩

end Sys2Proof.Machine

/-! The Fermat-ring commands that work coefficient by coefficient (42_fermat_ring.md R155 to R165): what stands in a slot after its
coefficients were written, arithmetic in `ZMod (B^n + 1)`, and with both the commands' results. -/

namespace Sys2Proof.Machine

variable {s t u : State}

/-- A command that completes without error has run its effect. -/
theorem exec_ok_of_err_zero {i : Instr} (h : exec i s = .next t) (herr : t.err = 0) :
    ∃ u, i.effect s = .ok u ∧ t = u.complete none := by
  obtain hok | ⟨k, -, rfl⟩ := exec_next.1 h
  · exact hok
  · exact absurd herr k.code_word_ne_zero

/-! The blocks of FRP slots, which no command but `FLOWERN` re-describes. -/

/-- Two states have the same parameters and FRP blocks: all fields of the slots but `LEN`. -/
structure SameBlocks (s t : State) : Prop where
  params : t.params = s.params
  base : ∀ k, t.frpBase k = s.frpBase k
  depth : ∀ k, t.frpDepth k = s.frpDepth k
  n : ∀ k, t.frpN k = s.frpN k
  scratch : ∀ k, t.frpScratch k = s.frpScratch k

namespace SameBlocks

theorem trans (h : SameBlocks s t) (h' : SameBlocks t u) : SameBlocks s u :=
  ⟨h'.params.trans h.params, fun k => (h'.base k).trans (h.base k), fun k => (h'.depth k).trans (h.depth k),
    fun k => (h'.n k).trans (h.n k), fun k => (h'.scratch k).trans (h.scratch k)⟩

theorem of_frps (hp : t.params = s.params) (h : t.frps = s.frps) : SameBlocks s t :=
  ⟨hp, State.frpBase_congr h, State.frpDepth_congr h, State.frpN_congr h, State.frpScratch_congr h⟩

theorem setFrpLen (s : State) (k : FrpIx) (m : Nat) : SameBlocks s (s.setFrpLen k m) :=
  ⟨rfl, (s.frpBase_setFrpLen k · m), (s.frpDepth_setFrpLen k · m), (s.frpN_setFrpLen k · m), (s.frpScratch_setFrpLen k · m)⟩

theorem memWrite (s : State) (a n v : Nat) : SameBlocks s (s.memWrite a n v) := of_frps rfl rfl

theorem memFree (s : State) (a n : Nat) : SameBlocks s (s.memFree a n) := of_frps rfl rfl

theorem writeCoeffs (s : State) (k : FrpIx) (vs : List Nat) : SameBlocks s (s.writeCoeffs k vs) :=
  of_frps (s.memWriteList_params _ _ _) (s.writeCoeffs_frps k vs)

variable (h : SameBlocks s t)
include h

theorem complete (e : Option ErrorKind) : SameBlocks s (t.complete e) :=
  ⟨h.params, h.base, h.depth, h.n, h.scratch⟩

theorem width : t.width = s.width := congrArg (fun p => p.limb.bits) h.params

theorem radix : t.radix = s.radix := congrArg (fun p => p.limb.radix) h.params

theorem modulus (k : FrpIx) : t.modulus k = s.modulus k := by
  rw [State.modulus, State.modulus, h.width, h.n]

theorem size (k : FrpIx) : t.frpSize k = s.frpSize k := congrArg (2 ^ ·) (h.depth k)

theorem caddr (k : FrpIx) (i : Nat) : t.caddr k i = s.caddr k i := State.caddr_congr (h.base k) (h.n k) i

theorem raw (hm : t.mem = s.mem) (k : FrpIx) (i : Nat) : t.raw k i = s.raw k i :=
  State.raw_congr (h.base k) (h.n k) h.params hm i

/-- A slot in order stays so with another length its block has room for. -/
theorem ready {k : FrpIx} (hs : s.FrpReady k) (hl : t.frpLen k ≤ s.frpSize k) : t.FrpReady k := by
  obtain ⟨⟨hd, -⟩, hin, hn⟩ := hs
  have hM : t.memLimbs = s.memLimbs := congrArg (fun p => p.memLimbs.toNat) h.params
  refine ⟨⟨(h.depth k).le.trans hd, (h.size k).symm ▸ hl⟩, ?_, (h.n k).trans_ne hn⟩
  rwa [State.FrpIn, State.InMem, State.blockLimbs, h.base, h.size, h.scratch, h.n, hM]

end SameBlocks

/-! Coefficients of a slot. -/

theorem LimbWidth.one_lt_bits (w : LimbWidth) : 1 < w.bits := by
  cases w <;> decide

theorem State.one_lt_width (s : State) : 1 < s.width := LimbWidth.one_lt_bits _

theorem State.width_pos (s : State) : 0 < s.width := Nat.zero_lt_of_lt s.one_lt_width

theorem State.radix_pow_eq (s : State) (n : Nat) : s.radix ^ n = 2 ^ (n * s.width) := by
  rw [State.radix_eq_width, ← pow_mul, Nat.mul_comm]

/-- Every residue fits the limbs of a coefficient. -/
theorem State.modulus_le (s : State) (k : FrpIx) : s.modulus k ≤ s.radix ^ (s.frpN k + 1) := by
  have hpos : 0 < 2 ^ (s.frpN k * s.width) := Nat.two_pow_pos _
  have htwo : 2 ≤ s.radix := by
    rw [State.radix_eq_width]
    exact Nat.le_self_pow (by have := s.one_lt_width; omega) 2
  have hmul := Nat.mul_le_mul_left (s.radix ^ s.frpN k) htwo
  rw [pow_succ, State.modulus, fermatMod]
  rw [s.radix_pow_eq] at hmul ⊢
  omega

theorem State.modulus_pos (s : State) (k : FrpIx) : 0 < s.modulus k := fermatMod_pos _ _

theorem State.frpLen_lt (s : State) (k : FrpIx) : s.frpLen k < 2 ^ 64 := BitVec.isLt _

theorem State.frpLen_setFrpLen_same (s : State) (k : FrpIx) {m : Nat} (h : m < 2 ^ 64) : (s.setFrpLen k m).frpLen k = m := by
  rw [State.frpLen_setFrpLen, if_pos rfl, Nat.mod_eq_of_lt h]

theorem State.raw_setFrpLen (s : State) (j : FrpIx) (m : Nat) (k : FrpIx) (i : Nat) : (s.setFrpLen j m).raw k i = s.raw k i :=
  (SameBlocks.setFrpLen s j m).raw rfl k i

theorem State.frpLen_writeCoeffs (s : State) (j : FrpIx) (vs : List Nat) (k : FrpIx) :
    (s.writeCoeffs j vs).frpLen k = s.frpLen k := State.frpLen_congr (s.writeCoeffs_frps j vs) k

/-- A written coefficient that fits its limbs reads back. -/
theorem State.raw_writeCoeffs (s : State) (k : FrpIx) {vs : List Nat} {i v : Nat} (h : vs[i]? = some v)
    (hv : v < s.radix ^ (s.frpN k + 1)) : (s.writeCoeffs k vs).raw k i = v := by
  obtain ⟨hi, rfl⟩ := List.getElem?_eq_some_iff.1 h
  rw [(s.writeCoeffs_spec k vs).1 i hi, Nat.mod_eq_of_lt hv]

/-- The coefficients of a slot over whose limbs another slot's were not written. -/
theorem State.raw_writeCoeffs_of_apart (s : State) {j k : FrpIx} {vs : List Nat} {i m : Nat} (hi : i < m)
    (h : Apart (s.frpBase j) (m * (s.frpN j + 1)) (s.frpBase k) (vs.length * (s.frpN k + 1))) :
    (s.writeCoeffs k vs).raw j i = s.raw j i := by
  have hblocks := SameBlocks.writeCoeffs s k vs
  have hle := Nat.mul_le_mul_right (s.frpN j + 1) (Nat.succ_le_of_lt hi)
  rw [Nat.succ_mul] at hle
  rw [State.raw, hblocks.caddr, hblocks.n]
  refine State.memRead_memWriteList_of_apart s ?_
  rw [State.caddr]
  omega

theorem State.vals_getElem? (s : State) {k : FrpIx} {i : Nat} (h : i < s.frpLen k) : (s.vals k)[i]? = some (s.val k i) := by
  simp [State.vals, h]

theorem State.val_of_lt (s : State) {k : FrpIx} {i : Nat} (h : i < s.frpLen k) :
    s.val k i = residue s.width (s.frpN k) (s.raw k i) := if_pos h

theorem State.val_of_ge (s : State) {k : FrpIx} {i : Nat} (h : s.frpLen k ≤ i) : s.val k i = 0 := if_neg (not_lt.2 h)

/-- The value of a canonical pattern is the pattern. -/
theorem State.val_of_raw (s : State) {k : FrpIx} {i : Nat} (hi : i < s.frpLen k) (h : s.raw k i < s.modulus k) :
    s.val k i = s.raw k i := by
  rw [s.val_of_lt hi, residue_canonical s.one_lt_width (Nat.lt_succ_iff.1 h)]

theorem State.val_lt_modulus (s : State) (k : FrpIx) (i : Nat) : s.val k i < s.modulus k := s.val_lt k i

/-- The value a coefficient has depends on the slot, its length and the pattern. -/
theorem SameBlocks.val (h : SameBlocks s t) {k : FrpIx} {i : Nat} (hl : t.frpLen k = s.frpLen k) (hr : t.raw k i = s.raw k i) :
    t.val k i = s.val k i := by
  rw [State.val, State.val, hl, hr, h.width, h.n]

/-! Arithmetic modulo `B^n + 1`. -/

section
variable {w n : Nat}

theorem eq_of_cast_eq {m a b : Nat} (ha : a < m) (hb : b < m) (h : (a : ZMod m) = b) : a = b := by
  rwa [ZMod.natCast_eq_natCast_iff', Nat.mod_eq_of_lt ha, Nat.mod_eq_of_lt hb] at h

theorem intCast_eq_emod {m a : Nat} {v : Int} (ha : a < m) (h : (a : ZMod m) = v) : (a : Int) = v % m := by
  have hz : ((a : Int) : ZMod m) = v := by rwa [Int.cast_natCast]
  rw [ZMod.intCast_eq_intCast_iff', Int.emod_eq_of_lt (by omega) (by omega)] at hz
  exact hz

theorem natMod_zmod {m : Nat} (hm : 0 < m) (v : Int) : ((natMod v m : Nat) : ZMod m) = v := by
  rw [← Int.cast_natCast, natMod_cast hm, ZMod.intCast_mod]

theorem rho_pow_rootOrder (h4 : 4 ∣ n * w) (hN : 0 < n * w) : (rho w n : ZMod (fermatMod w n)) ^ rootOrder w n = 1 :=
  (rho_pow_eq_one_iff h4 hN).2 dvd_rfl

/-- `MULRHO` multiplies by the power of the root, whatever the exponent. -/
theorem mulRho_cast (h4 : 4 ∣ n * w) (hN : 0 < n * w) (v e : Nat) :
    (mulRho w n v e : ZMod (fermatMod w n)) = v * (rho w n : ZMod (fermatMod w n)) ^ e := by
  rw [mulRho, ZMod.natCast_mod, Nat.cast_mul, Nat.cast_pow, ← pow_eq_pow_mod e (rho_pow_rootOrder h4 hN)]

theorem mulRho_lt (w n v e : Nat) : mulRho w n v e < fermatMod w n := Nat.mod_lt _ (fermatMod_pos w n)

theorem rho_pow_mul_eq_one (h4 : 4 ∣ n * w) (hN : 0 < n * w) {a b : Nat} (h : rootOrder w n ∣ a + b) :
    (rho w n : ZMod (fermatMod w n)) ^ a * (rho w n : ZMod (fermatMod w n)) ^ b = 1 := by
  rw [← pow_add]
  exact (rho_pow_eq_one_iff h4 hN).2 h

theorem rootOrder_pos (hN : 0 < n * w) : 0 < rootOrder w n := by
  rw [rootOrder, Nat.mul_assoc]
  exact Nat.mul_pos four_pos hN

theorem rootOrder_dvd_negExp (hN : 0 < n * w) (e : Nat) : rootOrder w n ∣ negExp w n e + e := by
  have hlt := Nat.mod_lt e (rootOrder_pos hN)
  have hsum : rootOrder w n - e % rootOrder w n + e = rootOrder w n * (1 + e / rootOrder w n) := by
    have := Nat.mod_add_div e (rootOrder w n)
    rw [Nat.mul_add, Nat.mul_one]
    omega
  rw [Nat.dvd_iff_mod_eq_zero, negExp, Nat.mod_add_mod, hsum, Nat.mul_mod_right]

theorem rootOrder_dvd_rescaleExp (hN : 0 < n * w) (depth : Nat) : rootOrder w n ∣ rescaleExp w n depth + 2 * depth := by
  rw [← Int.natCast_dvd_natCast, Nat.cast_add, rescaleExp, natMod_cast (rootOrder_pos hN), Int.emod_def]
  exact ⟨1 - ((rootOrder w n : Int) - 2 * depth) / rootOrder w n, by push_cast; ring⟩

end

/-- The limbs of a slot in order hold a ring with the root of R151. -/
theorem State.FrpReady.root {k : FrpIx} (h : s.FrpReady k) : 4 ∣ s.frpN k * s.width ∧ 0 < s.frpN k * s.width :=
  ⟨(LimbWidth.four_dvd_bits s.params.limb).mul_left _, Nat.mul_pos (Nat.pos_of_ne_zero h.2.2) (LimbWidth.bits_pos _)⟩

theorem State.timesRho_lt (s : State) (k : FrpIx) (v e : Nat) : s.timesRho k v e < s.modulus k := mulRho_lt _ _ _ _

end Sys2Proof.Machine

/-! The results of the Fermat-ring commands of 42_fermat_ring.md R155 to R166. -/

namespace Sys2Proof.Machine

variable {s t u : State}

/-! Raw sums and differences (R156, R157). -/

theorem State.raws_getElem? (s : State) {k : FrpIx} {i : Nat} (h : i < s.frpLen k) : (s.raws k)[i]? = some (s.raw k i) := by
  simp [State.raws, h]

/-- What `FADD` and `FSUB` leave: the patterns combined in `n + 1` limbs. -/
theorem rawBody_result {fd fa fb : FrpIx} {combine : Int → Int → Int} (h : rawBody fd fa fb combine s = .ok t) :
    SameBlocks s t ∧ t.frpLen fd = s.frpLen fa ∧ ∀ i < s.frpLen fa,
      t.raw fd i = natMod (combine (s.raw fa i : Nat) (s.raw fb i : Nat)) (s.radix ^ (s.frpN fd + 1)) := by
  obtain ⟨⟨-, hlen⟩, rfl⟩ := rawBody_ok.1 h
  refine ⟨(SameBlocks.writeCoeffs s fd _).trans (SameBlocks.setFrpLen _ fd _),
    State.frpLen_setFrpLen_same _ fd (s.frpLen_lt fa), fun i hi => ?_⟩
  have hv : natMod (combine (s.raw fa i : Nat) (s.raw fb i : Nat)) (s.radix ^ (s.frpN fd + 1)) < s.radix ^ (s.frpN fd + 1) :=
    natMod_lt (Nat.pow_pos s.radix_pos) _
  rw [State.raw_setFrpLen, s.raw_writeCoeffs fd _ hv]
  rw [List.getElem?_zipWith, s.raws_getElem? hi, s.raws_getElem? (hlen ▸ hi)]

theorem exec_raw {i : Instr} {fd fa fb : FrpIx} {combine : Int → Int → Int} (hi : i.effect s = rawBody fd fa fb combine s)
    (h : s.FrpsReady fd fa fb ∧ s.frpLen fa = s.frpLen fb) :
    ∃ t, exec i s = .next t ∧ t.err = 0 ∧ t.frpLen fd = s.frpLen fa ∧ ∀ j < s.frpLen fa,
      t.raw fd j = natMod (combine (s.raw fa j : Nat) (s.raw fb j : Nat)) (s.radix ^ (s.frpN fd + 1)) :=
  have hok := rawBody_ok.2 ⟨h, rfl⟩
  have hres := rawBody_result hok
  ⟨_, exec_of_effect_ok (hi.trans hok), rfl, hres.2.1, hres.2.2⟩

/-- Settles O44. -/
theorem rawAddSubtract : Obligations.RawAddSubtract := by
  constructor
  · intro s fd fa fb h
    obtain ⟨t, ht, herr, hlen, hraw⟩ := exec_raw (i := .fadd fd fa fb) rfl (of_decide_eq_true h)
    exact ⟨t, ht, herr, hlen, fun i hi => (hraw i hi).trans (natMod_natCast (s.raw fa i + s.raw fb i) _)⟩
  · intro s fd fa fb h
    obtain ⟨t, ht, herr, hlen, hraw⟩ := exec_raw (i := .fsub fd fa fb) rfl (of_decide_eq_true h)
    exact ⟨t, ht, herr, hlen, fun i hi => by rw [hraw i hi, natMod_cast (Nat.pow_pos s.radix_pos)]⟩

/-! The signed value of a pattern is the two's complement reading of all its limbs. -/

theorem sval_eq_sext {w : Nat} (hw : 0 < w) (n r : Nat) : sval w n r = sext ((n + 1) * w) r := by
  have hpow : 2 ^ ((n + 1) * w) = 2 ^ (n * w) * 2 ^ w := by rw [Nat.succ_mul, pow_add]
  have htop : 2 ^ ((n + 1) * w - 1) = 2 ^ (n * w) * 2 ^ (w - 1) := by
    rw [Nat.succ_mul, Nat.add_sub_assoc hw, pow_add]
  have hdiv : r / 2 ^ (n * w) < 2 ^ (w - 1) ↔ r < 2 ^ ((n + 1) * w - 1) := by
    rw [Nat.div_lt_iff_lt_mul (Nat.two_pow_pos _), htop, Nat.mul_comm]
  have hsplit : ((r % 2 ^ (n * w) : Nat) : Int) + ((r / 2 ^ (n * w) : Nat) : Int) * 2 ^ (n * w) = r := by
    exact_mod_cast Nat.mod_add_div' r (2 ^ (n * w))
  have hcast : (2 : Int) ^ ((n + 1) * w) = 2 ^ (n * w) * 2 ^ w := by exact_mod_cast hpow
  rw [sval, sext, sext]
  by_cases hlow : r < 2 ^ ((n + 1) * w - 1)
  · rw [if_pos hlow, if_pos (hdiv.2 hlow), hsplit]
  · rw [if_neg hlow, if_neg (mt hdiv.1 hlow), sub_mul, ← add_sub_assoc, hsplit, hcast, mul_comm (2 ^ w)]

/-- A number within the range of the overflow limb is the signed value of its pattern. -/
theorem sval_natMod {w n : Nat} (hw : 0 < w) {v : Int} (hlow : -2 ^ ((n + 1) * w - 1) ≤ v) (hhigh : v < 2 ^ ((n + 1) * w - 1)) :
    sval w n (natMod v (2 ^ ((n + 1) * w))) = v := by
  rw [sval_eq_sext hw, sext_natMod (Nat.mul_pos n.succ_pos hw) hlow hhigh]

theorem sval_congr {w : Nat} (hw : 0 < w) (n r : Nat) : (sval w n r : Int) ≡ r [ZMOD 2 ^ ((n + 1) * w)] := by
  rw [sval_eq_sext hw]
  exact sext_congr _ _

/-- The signed value of a combined pattern is the combined signed values, where it fits. -/
theorem sval_combined {fa fb fd : FrpIx} {combine : Int → Int → Int} {i : Nat} (hn : s.frpN fd = s.frpN fa)
    (hcongr : ∀ {m a a' b b' : Int}, a ≡ a' [ZMOD m] → b ≡ b' [ZMOD m] → combine a b ≡ combine a' b' [ZMOD m])
    (hlow : -(2 ^ (s.width - 1) * (s.radix ^ s.frpN fa : Nat)) ≤
      combine (sval s.width (s.frpN fa) (s.raw fa i)) (sval s.width (s.frpN fa) (s.raw fb i)))
    (hhigh : combine (sval s.width (s.frpN fa) (s.raw fa i)) (sval s.width (s.frpN fa) (s.raw fb i))
      < 2 ^ (s.width - 1) * (s.radix ^ s.frpN fa : Nat)) :
    sval s.width (s.frpN fa) (natMod (combine (s.raw fa i : Nat) (s.raw fb i : Nat)) (s.radix ^ (s.frpN fd + 1)))
      = combine (sval s.width (s.frpN fa) (s.raw fa i)) (sval s.width (s.frpN fa) (s.raw fb i)) := by
  have hw : 0 < s.width := LimbWidth.bits_pos _
  have hbound : (2 : Int) ^ (s.width - 1) * (s.radix ^ s.frpN fa : Nat) = 2 ^ ((s.frpN fa + 1) * s.width - 1) := by
    rw [s.radix_pow_eq, Nat.cast_pow, Nat.cast_two, ← pow_add, Nat.succ_mul, Nat.add_sub_assoc hw, Nat.add_comm]
  rw [hbound] at hlow hhigh
  have hmod : natMod (combine (s.raw fa i : Nat) (s.raw fb i : Nat)) (s.radix ^ (s.frpN fd + 1))
      = natMod (combine (sval s.width (s.frpN fa) (s.raw fa i)) (sval s.width (s.frpN fa) (s.raw fb i)))
        (2 ^ ((s.frpN fa + 1) * s.width)) := by
    have hc := hcongr (sval_congr hw (s.frpN fa) (s.raw fa i)) (sval_congr hw (s.frpN fa) (s.raw fb i))
    rw [hn, s.radix_pow_eq]
    exact congrArg Int.toNat (by exact_mod_cast hc.symm)
  rw [hmod, sval_natMod hw hlow hhigh]

/-- Settles O45: the patterns are congruent to the signed values, and the bound makes the combined pattern's signed value exact. -/
theorem addSubtractResidues : Obligations.AddSubtractResidues := by
  intro s t fd fa fb i hi a b bound
  have value {c : Instr} {combine : Int → Int → Int} (he : c.effect s = rawBody fd fa fb combine s)
      (hcongr : ∀ {m a a' b b' : Int}, a ≡ a' [ZMOD m] → b ≡ b' [ZMOD m] → combine a b ≡ combine a' b' [ZMOD m])
      (h : exec c s = .next t) (herr : t.err = 0) (hlow : -bound ≤ combine a b) (hhigh : combine a b < bound) :
      (t.val fd i : Int) = combine (s.val fa i) (s.val fb i) % (s.modulus fa : Int) := by
    obtain ⟨u, hu, rfl⟩ := exec_ok_of_err_zero h herr
    rw [he] at hu
    obtain ⟨⟨⟨-, -, -, ⟨-, hna⟩, -, hnb⟩, hlen⟩, -⟩ := rawBody_ok.1 hu
    obtain ⟨hsame, hl, hraw⟩ := rawBody_result hu
    have hval : (u.complete none).val fd i = natMod (combine a b) (s.modulus fa) := by
      refine (u.val_of_lt (hl ▸ hi)).trans ?_
      rw [hraw i hi, hsame.width, hsame.n, residue]
      have hexact := sval_combined hna hcongr hlow hhigh
      rw [hna] at hexact ⊢
      rw [hexact, State.modulus]
    have hres (r : Nat) : (residue s.width (s.frpN fa) r : Int) ≡ sval s.width (s.frpN fa) r [ZMOD s.modulus fa] := by
      rw [residue, natMod_cast (fermatMod_pos _ _)]
      exact Int.mod_modEq _ _
    have hna' : s.frpN fb = s.frpN fa := hnb.symm.trans hna
    rw [hval, natMod_cast (s.modulus_pos fa), s.val_of_lt hi, s.val_of_lt (hlen ▸ hi), hna']
    exact (hcongr (hres _) (hres _)).symm
  constructor
  · intro h herr hlow hhigh
    exact_mod_cast value (combine := fun a b => a + b) rfl Int.ModEq.add h herr hlow hhigh
  · exact value (combine := fun a b => a - b) rfl Int.ModEq.sub

/-! Commands that write every coefficient of their slot: `FNORM` and `FRESCALE` (R155, R160). -/

/-- The coefficients of a slot replaced by numbers below `B^(n+1)`. -/
theorem State.raw_writeMapped (s : State) (k : FrpIx) {f : Nat → Nat} (hf : ∀ v, f v < s.modulus k) {i : Nat}
    (hi : i < s.frpLen k) : (s.writeCoeffs k ((s.vals k).map f)).raw k i = f (s.val k i) :=
  s.raw_writeCoeffs k (by rw [List.getElem?_map, s.vals_getElem? hi]; rfl) ((hf _).trans_le (s.modulus_le k))

theorem State.raw_writeVals (s : State) (k : FrpIx) {i : Nat} (hi : i < s.frpLen k) :
    (s.writeCoeffs k (s.vals k)).raw k i = s.val k i :=
  s.raw_writeCoeffs k (s.vals_getElem? hi) ((s.val_lt_modulus k i).trans_le (s.modulus_le k))

theorem exec_fnorm {fd : FrpIx} (h : s.FrpReady fd) :
    exec (.fnorm fd) s = .next ((s.writeCoeffs fd (s.vals fd)).complete none) :=
  exec_of_effect_ok (fnormBody_ok.2 ⟨decide_eq_true h, rfl⟩)

/-- Settles O46: a residue is the value of its own pattern. -/
theorem normaliseKeepsValues : Obligations.NormaliseKeepsValues := by
  intro s fd h
  have hsame : SameBlocks s ((s.writeCoeffs fd (s.vals fd)).complete none) :=
    (SameBlocks.writeCoeffs s fd _).complete none
  have hlen : ((s.writeCoeffs fd (s.vals fd)).complete none).frpLen fd = s.frpLen fd := s.frpLen_writeCoeffs fd _ fd
  have hraw : ∀ i < s.frpLen fd, ((s.writeCoeffs fd (s.vals fd)).complete none).raw fd i = s.val fd i :=
    fun i hi => s.raw_writeVals fd hi
  generalize ht : (s.writeCoeffs fd (s.vals fd)).complete none = t at hsame hlen hraw
  have hval (i : Nat) : t.val fd i = s.val fd i := by
    by_cases hi : i < s.frpLen fd
    · rw [t.val_of_raw (hlen.symm ▸ hi) (by rw [hraw i hi, hsame.modulus]; exact s.val_lt_modulus fd i), hraw i hi]
    · rw [t.val_of_ge (by omega), s.val_of_ge (by omega)]
  refine ⟨t, ht ▸ exec_fnorm h, ht ▸ rfl, hlen, fun i hi => ⟨hraw i hi, ?_⟩, hval, _,
    exec_fnorm (hsame.ready h (hlen.trans_le h.1.2)), rfl, fun i hi => ?_⟩
  · rw [hraw i hi, s.radix_pow_eq]
    exact Nat.le_of_lt_succ (s.val_lt_modulus fd i)
  · exact (t.raw_writeVals fd (hlen.symm ▸ hi)).trans ((hval i).trans (hraw i hi).symm)

/-- Times `2^depth`, a rescaled value is the value before: the exponents sum to the order of the root. -/
theorem timesRho_rescale {k : FrpIx} (h : s.FrpReady k) {v : Nat} (hv : v < s.modulus k) (depth : Nat) :
    s.timesRho k v (rescaleExp s.width (s.frpN k) depth) * 2 ^ depth % s.modulus k = v := by
  obtain ⟨h4, hN⟩ := h.root
  refine (mod_fermatMod_eq_iff hv).2 ?_
  rw [Nat.cast_mul, State.timesRho, mulRho_cast h4 hN, Nat.cast_pow, Nat.cast_two, ← rho_pow_two_mul h4, mul_assoc,
    rho_pow_mul_eq_one h4 hN (rootOrder_dvd_rescaleExp hN depth), mul_one]

theorem exec_frescale {fd : FrpIx} (h : s.FrpReady fd) :
    exec (.frescale fd) s = .next ((s.writeCoeffs fd ((s.vals fd).map fun v =>
      s.timesRho fd v (rescaleExp s.width (s.frpN fd) (s.frpDepth fd)))).complete none) :=
  exec_of_effect_ok (frescaleBody_ok.2 ⟨decide_eq_true h, rfl⟩)

/-- Settles O48. -/
theorem rescaleRemovesDepth : Obligations.RescaleRemovesDepth := by
  intro s fd h
  refine ⟨_, exec_frescale h, rfl, s.frpLen_writeCoeffs fd _ fd, fun i hi => ?_⟩
  have hraw : ((s.writeCoeffs fd ((s.vals fd).map fun v =>
      s.timesRho fd v (rescaleExp s.width (s.frpN fd) (s.frpDepth fd)))).complete none).raw fd i
      = s.timesRho fd (s.val fd i) (rescaleExp s.width (s.frpN fd) (s.frpDepth fd)) :=
    s.raw_writeMapped fd (fun v => s.timesRho_lt fd v _) hi
  rw [hraw]
  exact ⟨s.timesRho_lt fd _ _, timesRho_rescale h (s.val_lt_modulus fd i) _⟩

/-! Pointwise products (R158, R159). -/

/-- The three writes of a pointwise product, as the slots read them. -/
theorem writePointwise_result {fd fa fb : FrpIx} (h : s.FrpsReady fd fa fb) (hlen : s.frpLen fa = s.frpLen fb) :
    let t := s.writePointwise fd fa fb
    let apart (j k : FrpIx) : Prop := Apart (s.frpBase j) (s.frpLen fa * (s.frpN fd + 1)) (s.frpBase k)
      (s.frpLen fa * (s.frpN fd + 1))
    t.frpLen fd = s.frpLen fa
      ∧ (apart fa fd → fa = fb ∨ apart fa fb → ∀ i < s.frpLen fa, t.raw fa i = s.val fa i)
      ∧ (apart fb fd → ∀ i < s.frpLen fa, t.raw fb i = s.val fb i)
      ∧ ∀ i < s.frpLen fa, t.raw fd i = s.val fa i * s.val fb i % s.modulus fd := by
  intro t apart
  obtain ⟨-, -, -, ⟨-, hna⟩, -, hnb⟩ := h
  let ta := s.writeCoeffs fa (s.vals fa)
  let tb := ta.writeCoeffs fb (s.vals fb)
  let prods := List.zipWith (fun u v => u * v % s.modulus fd) (s.vals fa) (s.vals fb)
  have hsa : SameBlocks s ta := SameBlocks.writeCoeffs s fa _
  have hsb : SameBlocks s tb := hsa.trans (SameBlocks.writeCoeffs ta fb _)
  have hprods : prods.length = s.frpLen fa := by simp [prods, hlen]
  have hta : ∀ i < s.frpLen fa, ta.raw fa i = s.val fa i := fun i hi => s.raw_writeVals fa hi
  have htb : ∀ i < s.frpLen fa, tb.raw fb i = s.val fb i := fun i hi =>
    ta.raw_writeCoeffs fb (s.vals_getElem? (hlen ▸ hi)) <| by
      rw [hsa.n, hsa.radix]
      exact (s.val_lt_modulus fb i).trans_le (s.modulus_le fb)
  have hfinal (j : FrpIx) (i : Nat) : t.raw j i = (tb.writeCoeffs fd prods).raw j i := State.raw_setFrpLen _ fd _ j i
  have keep {j : FrpIx} (hn : s.frpN fd = s.frpN j) (hap : apart j fd) {i : Nat} (hi : i < s.frpLen fa) :
      t.raw j i = tb.raw j i := by
    rw [hfinal]
    refine tb.raw_writeCoeffs_of_apart hi ?_
    rwa [hprods, hsb.base, hsb.base, hsb.n, hsb.n, ← hn]
  refine ⟨State.frpLen_setFrpLen_same _ fd (s.frpLen_lt fa), fun hap hab i hi => ?_, fun hap i hi => ?_, fun i hi => ?_⟩
  · rw [keep hna hap hi]
    obtain rfl | hab := hab
    · exact htb i hi
    · rw [← hta i hi]
      refine ta.raw_writeCoeffs_of_apart hi ?_
      rwa [hsa.base, hsa.base, hsa.n, hsa.n, State.vals_length, ← hlen, ← hna, ← hnb]
  · rw [keep hnb hap hi, htb i hi]
  · rw [hfinal]
    refine tb.raw_writeCoeffs fd ?_ ?_
    · rw [List.getElem?_zipWith, s.vals_getElem? hi, s.vals_getElem? (hlen ▸ hi)]
    · rw [hsb.n, hsb.radix]
      exact (Nat.mod_lt _ (s.modulus_pos fd)).trans_le (s.modulus_le fd)

/-- Settles O47: `FPSQR` is the product of a slot with itself. -/
theorem pointwiseProducts : Obligations.PointwiseProducts := by
  constructor
  · intro s fd fa fb h
    obtain ⟨hready, hlen, hscr⟩ := of_decide_eq_true h
    obtain ⟨hl, ha, hb, hd⟩ := writePointwise_result hready hlen
    exact ⟨_, exec_of_effect_ok (i := .fpmul fd fa fb) (pointwiseBody_ok.2 ⟨⟨hready, hlen, hscr⟩, rfl⟩), rfl, hl, ⟨ha, hb⟩, hd⟩
  · intro s fd fa h
    obtain ⟨hready, hscr⟩ := of_decide_eq_true h
    obtain ⟨hl, -, hb, hd⟩ := writePointwise_result hready rfl
    exact ⟨_, exec_of_effect_ok (i := .fpsqr fd fa) (pointwiseBody_ok.2 ⟨⟨hready, rfl, hscr⟩, rfl⟩), rfl, hl, hb,
      fun i hi => (hd i hi).trans (by rw [sq])⟩

/-! Length and width (R161, R162). -/

theorem State.raw_lower (s : State) (k : FrpIx) {l i : Nat} (h : i < l) (n v : Nat) :
    (s.memWrite (s.caddr k l) n v).raw k i = s.raw k i := by
  have hle := Nat.mul_le_mul_right (s.frpN k + 1) (Nat.succ_le_of_lt h)
  rw [Nat.succ_mul] at hle
  change (s.memWrite (s.caddr k l) n v).memRead (s.caddr k i) (s.frpN k + 1) = _
  refine State.memRead_memWrite_of_apart s (.inr ?_)
  simp only [State.caddr]
  omega

theorem State.raw_cleared (s : State) (k : FrpIx) {l i m : Nat} (hl : l ≤ i) (hm : i < m) :
    (s.memWrite (s.caddr k l) ((m - l) * (s.frpN k + 1)) 0).raw k i = 0 := by
  have haddr : s.caddr k i = s.caddr k l + (i - l) * (s.frpN k + 1) := by
    rw [State.caddr, State.caddr, Nat.add_assoc, ← Nat.add_mul, Nat.add_sub_cancel' hl]
  change (s.memWrite _ _ 0).memRead (s.caddr k i) (s.frpN k + 1) = 0
  rw [haddr, State.memRead_memWrite_inside _ ?_, Nat.zero_div, Nat.zero_mod]
  rw [← Nat.succ_mul]
  exact Nat.mul_le_mul_right _ (by omega)

/-- What `FSETLEN` leaves. -/
theorem setLength_result (s : State) (k : FrpIx) {m : Nat} (hm : m < 2 ^ 64) :
    let t := (s.memWrite (s.caddr k (s.frpLen k)) ((m - s.frpLen k) * (s.frpN k + 1)) 0).setFrpLen k m
    t.frpLen k = m ∧ (∀ i < m, t.val k i = s.val k i) ∧ (∀ i, s.frpLen k ≤ i → i < m → t.raw k i = 0)
      ∧ ∀ i < s.frpLen k, t.raw k i = s.raw k i := by
  intro t
  have hsame : SameBlocks s t := (SameBlocks.memWrite s _ _ 0).trans (SameBlocks.setFrpLen _ k m)
  have hlen : t.frpLen k = m := State.frpLen_setFrpLen_same _ k hm
  have hlow : ∀ i < s.frpLen k, t.raw k i = s.raw k i := fun i hi =>
    (State.raw_setFrpLen _ k m k i).trans (s.raw_lower k hi _ _)
  have hgain : ∀ i, s.frpLen k ≤ i → i < m → t.raw k i = 0 := fun i hi him =>
    (State.raw_setFrpLen _ k m k i).trans (s.raw_cleared k hi him)
  refine ⟨hlen, fun i hi => ?_, hgain, hlow⟩
  rcases Nat.lt_or_ge i (s.frpLen k) with hi' | hi'
  · rw [t.val_of_lt (hlen.symm ▸ hi), hlow i hi', hsame.width, hsame.n, s.val_of_lt hi']
  · rw [t.val_of_lt (hlen.symm ▸ hi), hgain i hi' hi, residue_canonical t.one_lt_width (Nat.zero_le _), s.val_of_ge hi']

/-- Settles O49. -/
theorem lengthAndWidthCommands : Obligations.LengthAndWidthCommands := by
  constructor
  · intro s fd xm h hm
    exact ⟨_, exec_of_effect_ok (fsetlenBody_ok.2 ⟨decide_eq_true ⟨h, hm⟩, rfl⟩), rfl,
      setLength_result s fd (s.reg xm).isLt⟩
  · intro s fd xn h h1 hn
    refine ⟨_, exec_of_effect_ok (flowernBody_ok.2 ⟨decide_eq_true ⟨h, hn, h1⟩, rfl⟩), rfl, ?_, ?_, rfl⟩
    · exact (State.frpN_setFrpLen _ fd fd 0).trans ((s.frpN_setFrpN fd fd _).trans
        ((if_pos rfl).trans (Nat.mod_eq_of_lt (s.reg xn).isLt)))
    · exact State.frpLen_setFrpLen_same _ fd (Nat.two_pow_pos 64)

end Sys2Proof.Machine

/-! The commands that write one or two coefficients: `FMULRHO` and the butterflies (42_fermat_ring.md R163 to R166). -/

namespace Sys2Proof.Machine

variable {s t u : State}

theorem State.raw_writeCoeff_of_lt (s : State) (k : FrpIx) (i : Nat) {v : Nat} (h : v < s.modulus k) :
    (s.writeCoeff k i v).raw k i = v := by
  rw [s.raw_writeCoeff, Nat.mod_eq_of_lt (h.trans_le (s.modulus_le k))]

/-- Settles O51. -/
theorem rootMultiplication : Obligations.RootMultiplication := by
  intro s fd xi xe h hi
  obtain ⟨h4, hN⟩ := h.root
  have hval : s.timesRho fd (s.val fd (s.regNat xi)) (s.regNat xe)
      = s.val fd (s.regNat xi) * rho s.width (s.frpN fd) ^ s.regNat xe % s.modulus fd := by
    refine eq_of_cast_eq (s.timesRho_lt fd _ _) (Nat.mod_lt _ (s.modulus_pos fd)) ?_
    rw [ZMod.natCast_mod, Nat.cast_mul, Nat.cast_pow]
    exact mulRho_cast h4 hN _ _
  refine ⟨_, exec_of_effect_ok (fmulrhoBody_ok.2 ⟨decide_eq_true ⟨h, hi⟩, rfl⟩), rfl, ?_, fun i hne => ?_⟩
  · exact (s.raw_writeCoeff_of_lt fd _ (s.timesRho_lt fd _ _)).trans hval
  · exact s.raw_writeCoeff_ne fd hne.symm _

/-! Butterflies. -/

/-- The two coefficients of a butterfly, written one after the other. -/
theorem State.writePair_result (s : State) (k : FrpIx) {i j a b : Nat} (hij : i ≠ j) (ha : a < s.modulus k)
    (hb : b < s.modulus k) : (s.writePair k i j a b).raw k i = a ∧ (s.writePair k i j a b).raw k j = b
      ∧ ∀ l, l ≠ i → l ≠ j → (s.writePair k i j a b).raw k l = s.raw k l :=
  ⟨((s.writeCoeff k i a).raw_writeCoeff_ne k hij.symm b).trans (s.raw_writeCoeff_of_lt k i ha),
    (s.writeCoeff k i a).raw_writeCoeff_of_lt k j hb,
    fun _ hi hj => ((s.writeCoeff k i a).raw_writeCoeff_ne k (Ne.symm hj) b).trans (s.raw_writeCoeff_ne k (Ne.symm hi) a)⟩

theorem SameBlocks.writePair (s : State) (k : FrpIx) (i j a b : Nat) : SameBlocks s (s.writePair k i j a b) :=
  (SameBlocks.memWrite s _ _ _).trans (SameBlocks.memWrite _ _ _ _)

/-- The values a butterfly leaves, of canonical results. -/
theorem State.writePair_vals (s : State) (k : FrpIx) {i j a b : Nat} (hd : s.Distinct k i j) (ha : a < s.modulus k)
    (hb : b < s.modulus k) : (s.writePair k i j a b).val k i = a ∧ (s.writePair k i j a b).val k j = b := by
  obtain ⟨hi, hj, hij⟩ := hd
  obtain ⟨hri, hrj, -⟩ := s.writePair_result k hij ha hb
  have hM := (SameBlocks.writePair s k i j a b).modulus k
  exact ⟨((s.writePair k i j a b).val_of_raw hi (by rwa [hri, hM])).trans hri,
    ((s.writePair k i j a b).val_of_raw hj (by rwa [hrj, hM])).trans hrj⟩

theorem State.subMod_lt (s : State) (k : FrpIx) (u v : Nat) : s.subMod k u v < s.modulus k := natMod_lt (s.modulus_pos k) _

theorem State.subMod_cast (s : State) (k : FrpIx) (u v : Nat) : (s.subMod k u v : ZMod (s.modulus k)) = u - v := by
  rw [State.subMod, natMod_zmod (s.modulus_pos k)]
  push_cast
  rfl

/-- The second coefficient of the forward butterfly (R164). -/
def State.twiddled (s : State) (k : FrpIx) (u v e : Nat) : Nat := s.timesRho k (s.subMod k u v) e

/-- The second operand of the inverse butterfly, times `ρ^(−e)` (R165). -/
def State.untwiddled (s : State) (k : FrpIx) (v e : Nat) : Nat := s.timesRho k v (negExp s.width (s.frpN k) e)

section
variable {k : FrpIx} (h : s.FrpReady k)
include h

theorem State.twiddled_cast (u v e : Nat) :
    (s.twiddled k u v e : ZMod (s.modulus k)) = (u - v) * (rho s.width (s.frpN k) : ZMod (s.modulus k)) ^ e := by
  rw [← s.subMod_cast]
  exact mulRho_cast h.root.1 h.root.2 _ _

theorem State.untwiddled_cast_mul (v e : Nat) :
    (s.untwiddled k v e : ZMod (s.modulus k)) * (rho s.width (s.frpN k) : ZMod (s.modulus k)) ^ e = v := by
  have hcast : (s.untwiddled k v e : ZMod (s.modulus k)) = v * (rho s.width (s.frpN k)) ^ negExp s.width (s.frpN k) e :=
    mulRho_cast h.root.1 h.root.2 _ _
  have hone := rho_pow_mul_eq_one h.root.1 h.root.2 (rootOrder_dvd_negExp h.root.2 e)
  rw [hcast, mul_assoc]
  exact (congrArg _ hone).trans (mul_one _)

/-- The inverse twiddle undoes the forward one. -/
theorem State.untwiddled_twiddled_cast (u v e : Nat) :
    (s.untwiddled k (s.twiddled k u v e) e : ZMod (s.modulus k)) = u - v := by
  have hcast : (s.untwiddled k (s.twiddled k u v e) e : ZMod (s.modulus k))
      = s.twiddled k u v e * (rho s.width (s.frpN k)) ^ negExp s.width (s.frpN k) e := mulRho_cast h.root.1 h.root.2 _ _
  have hone := rho_pow_mul_eq_one h.root.1 h.root.2 (rootOrder_dvd_negExp h.root.2 e)
  rw [hcast, State.twiddled_cast h, mul_assoc, mul_comm (_ ^ e)]
  exact (congrArg _ hone).trans (mul_one _)

theorem exec_fbfly {xi xj xe : Reg} (hd : s.Distinct k (s.regNat xi) (s.regNat xj)) :
    exec (.fbfly k xi xj xe) s = .next ((s.writePair k (s.regNat xi) (s.regNat xj)
      ((s.val k (s.regNat xi) + s.val k (s.regNat xj)) % s.modulus k)
      (s.twiddled k (s.val k (s.regNat xi)) (s.val k (s.regNat xj)) (s.regNat xe))).complete none) :=
  exec_of_effect_ok (fbflyBody_ok.2 ⟨decide_eq_true ⟨h, hd⟩, rfl⟩)

theorem exec_ibfly {xi xj xe : Reg} (hd : s.Distinct k (s.regNat xi) (s.regNat xj)) :
    exec (.ibfly k xi xj xe) s = .next ((s.writePair k (s.regNat xi) (s.regNat xj)
      ((s.val k (s.regNat xi) + s.untwiddled k (s.val k (s.regNat xj)) (s.regNat xe)) % s.modulus k)
      (s.subMod k (s.val k (s.regNat xi)) (s.untwiddled k (s.val k (s.regNat xj)) (s.regNat xe)))).complete none) :=
  exec_of_effect_ok (ibflyBody_ok.2 ⟨decide_eq_true ⟨h, hd⟩, rfl⟩)

end

theorem State.twiddled_lt (s : State) (k : FrpIx) (u v e : Nat) : s.twiddled k u v e < s.modulus k := s.timesRho_lt _ _ _

theorem State.untwiddled_lt (s : State) (k : FrpIx) (v e : Nat) : s.untwiddled k v e < s.modulus k := s.timesRho_lt _ _ _

/-- Settles O52. -/
theorem butterflyResults : Obligations.ButterflyResults := by
  intro s fd xi xj xe i j u v M ρe h hi hj hij
  have hsum (a : Nat) : a % M < M := Nat.mod_lt _ (s.modulus_pos fd)
  obtain ⟨hfi, hfj, hfl⟩ := s.writePair_result fd hij (hsum (u + v)) (s.twiddled_lt fd u v (s.regNat xe))
  let τ := s.untwiddled fd v (s.regNat xe)
  obtain ⟨hbi, hbj, hbl⟩ := s.writePair_result fd hij (hsum (u + τ)) (s.subMod_lt fd u τ)
  refine ⟨⟨_, exec_fbfly h ⟨hi, hj, hij⟩, rfl, hfi, ?_, hfl⟩,
    ⟨_, τ, exec_ibfly h ⟨hi, hj, hij⟩, rfl, s.untwiddled_lt fd _ _, ?_, hbi, ?_, hbl⟩⟩
  · refine (congrArg _ hfj).trans (intCast_eq_emod (s.twiddled_lt fd _ _ _) ?_)
    rw [State.twiddled_cast h]
    push_cast [ρe]
    rfl
  · refine (mod_fermatMod_eq_iff (s.val_lt fd j)).2 ?_
    rw [Nat.cast_mul, Nat.cast_pow]
    exact State.untwiddled_cast_mul h _ _
  · exact (congrArg _ hbj).trans (natMod_cast (s.modulus_pos fd) _)

theorem SameBlocks.untwiddled (h : SameBlocks s t) (k : FrpIx) (v e : Nat) : t.untwiddled k v e = s.untwiddled k v e := by
  simp only [State.untwiddled, State.timesRho, h.width, h.n]

theorem fbfly_vals {k : FrpIx} {xi xj xe : Reg} (h : s.FrpReady k) (hd : s.Distinct k (s.regNat xi) (s.regNat xj)) :
    let u := s.val k (s.regNat xi)
    let v := s.val k (s.regNat xj)
    ∃ t, exec (.fbfly k xi xj xe) s = .next t ∧ SameBlocks s t ∧ t.frpLen k = s.frpLen k ∧ t.regs = s.regs
      ∧ t.val k (s.regNat xi) = (u + v) % s.modulus k ∧ t.val k (s.regNat xj) = s.twiddled k u v (s.regNat xe) :=
  ⟨_, exec_fbfly h hd, (SameBlocks.writePair s k _ _ _ _).complete none, rfl, rfl,
    s.writePair_vals k hd (Nat.mod_lt _ (s.modulus_pos k)) (s.twiddled_lt k _ _ _)⟩

theorem ibfly_vals {k : FrpIx} {xi xj xe : Reg} (h : s.FrpReady k) (hd : s.Distinct k (s.regNat xi) (s.regNat xj)) :
    let u := s.val k (s.regNat xi)
    let τ := s.untwiddled k (s.val k (s.regNat xj)) (s.regNat xe)
    ∃ t, exec (.ibfly k xi xj xe) s = .next t ∧ t.err = 0
      ∧ t.val k (s.regNat xi) = (u + τ) % s.modulus k ∧ t.val k (s.regNat xj) = natMod ((u : Int) - τ) (s.modulus k) :=
  ⟨_, exec_ibfly h hd, rfl, s.writePair_vals k hd (Nat.mod_lt _ (s.modulus_pos k)) (s.subMod_lt k _ _)⟩

/-- Settles O53: the untwiddled difference is the difference of the operands, so the sums are `2u` and `2v`. -/
theorem butterfliesDouble : Obligations.ButterfliesDouble := by
  intro s t w fd xi xj xe hf herr hb
  obtain ⟨r, hr, -⟩ := exec_ok_of_err_zero hf herr
  obtain ⟨h, hd⟩ := of_decide_eq_true (fbflyBody_ok.1 hr).1
  obtain ⟨t', hf', hst, hlen, hregs, hti, htj⟩ := fbfly_vals (xe := xe) h hd
  obtain rfl := Host.Outcome.next.inj (hf'.symm.trans hf)
  have hreg (x : Reg) : t'.regNat x = s.regNat x := congrArg BitVec.toNat (State.reg_congr hregs x)
  have hd' : t'.Distinct fd (t'.regNat xi) (t'.regNat xj) := by rwa [State.Distinct, hreg, hreg, hlen]
  obtain ⟨w', hb', hok, hwi, hwj⟩ := ibfly_vals (xe := xe) (hst.ready h (hlen.trans_le h.1.2)) hd'
  obtain rfl := Host.Outcome.next.inj (hb'.symm.trans hb)
  rw [hreg, hreg, hreg, hst.modulus, hst.untwiddled, hti, htj] at hwi hwj
  have hτ := State.untwiddled_twiddled_cast h (s.val fd (s.regNat xi)) (s.val fd (s.regNat xj)) (s.regNat xe)
  have hM := s.modulus_pos fd
  refine ⟨hok, ?_, ?_⟩
  · rw [hwi, ← ZMod.natCast_eq_natCast_iff', Nat.cast_add, ZMod.natCast_mod, hτ]
    push_cast
    ring
  · refine hwj.trans (eq_of_cast_eq (natMod_lt hM _) (Nat.mod_lt _ hM) ?_)
    rw [natMod_zmod hM, Int.cast_sub, Int.cast_natCast, Int.cast_natCast, ZMod.natCast_mod, hτ, ZMod.natCast_mod]
    push_cast
    ring

end Sys2Proof.Machine

/-! The packers and unpackers (41_packing.md R124 to R138), and the polynomials that `WritePoly` leaves (10_state.md R45). -/

namespace Sys2Proof.Machine

variable {s t u : State} {p : Packing} {fd fa : FrpIx} {pa pd : CipIx} {xb xw xc : Reg} {sgn neg : Bool}

/-! Packing. -/

theorem packInstr_effect : (packInstr p fd pa xb xw sgn neg).effect s = packBody p fd pa xb xw sgn neg s := by
  cases p <;> rfl

theorem packInstr_ready : (packInstr p fd pa xb xw sgn neg).ready s = true ↔
    s.PackReady p fd pa (s.regNat xb) (s.regNat xw) := by
  cases p <;> exact decide_eq_true_iff

theorem fieldsHold_iff {f : Nat} {e : List Int} : fieldsHold sgn f e = true ↔ InFields sgn f e := by
  cases sgn <;> simp [fieldsHold, InFields]

theorem packVal_eq_packedSum (e : List Int) (bundle f i : Nat) : packVal e bundle f i = packedSum e bundle f i :=
  sumN_eq_sum _ _

/-- A field has at least one bit. -/
theorem fieldWidth_pos {v : Nat} (h : widthLegal p s.width v = true) : 0 < fieldWidth p s.width v := by
  have hw := s.one_lt_width
  cases p <;> simp only [widthLegal, fieldWidth, Bool.and_eq_true, decide_eq_true_eq] at h ⊢
  case limbs => exact Nat.mul_pos h (by omega)
  case bits => exact h.1
  case bytes => omega

theorem ceilDiv_lt_word {k : FrpIx} {a b : Nat} (hs : s.FrpShape k) (h : ceilDiv a b ≤ s.frpSize k) : ceilDiv a b < 2 ^ 64 :=
  (h.trans (Nat.pow_le_pow_right two_pos hs.1)).trans_lt (by norm_num)

/-- The sum of the fields of one coefficient lies in its low `n` limbs. -/
theorem abs_packedSum_lt {f : Nat} {e : List Int} (he : InFields sgn f e) {bundle m : Nat} (h : bundle * f ≤ m) (i : Nat) :
    |packedSum e bundle f i| < 2 ^ m := by
  rw [packedSum_eq_fieldSum]
  exact (abs_fieldSum_lt (fun j => he.getD _) bundle).trans_le (pow_le_pow_right₀ (by norm_num) h)

/-- What a packer leaves. -/
theorem packBody_result (h : packBody p fd pa xb xw sgn neg s = .ok t) :
    let f := fieldWidth p s.width (s.regNat xw)
    let e := negateIf neg (s.poly pa)
    let m := ceilDiv (s.cipLen pa) (s.regNat xb)
    SameBlocks s t ∧ t.cips = s.cips ∧ t.regs = s.regs ∧ t.frpLen fd = m ∧ (InFields sgn f e → ∀ i < m,
      t.raw fd i = natMod (packedSum e (s.regNat xb) f i) (2 ^ ((s.frpN fd + 1) * s.width))) := by
  intro f e m
  obtain ⟨⟨hshape, -, -, -, -, hle, -⟩, rfl⟩ := packBody_ok.1 h
  have hm : m < 2 ^ 64 := ceilDiv_lt_word hshape hle
  by_cases he : fieldsHold sgn f e = true
  · rw [if_pos he]
    refine ⟨(SameBlocks.writeCoeffs s fd _).trans (SameBlocks.setFrpLen _ fd _), s.memWriteList_cips _ _ _,
      s.memWriteList_regs _ _ _, State.frpLen_setFrpLen_same _ fd hm, fun _ i hi => ?_⟩
    rw [State.raw_setFrpLen, ← s.radix_pow_eq]
    refine s.raw_writeCoeffs fd ?_ (natMod_lt (Nat.pow_pos s.radix_pos) _)
    rw [packedCoeffs, List.getElem?_map, List.getElem?_range hi, Option.map_some, packVal_eq_packedSum]
  · rw [if_neg he]
    exact ⟨(SameBlocks.memFree s _ _).trans (SameBlocks.setFrpLen _ fd _), rfl, rfl,
      State.frpLen_setFrpLen_same _ fd hm, fun hf => absurd (fieldsHold_iff.2 hf) he⟩

/-- The signed value of a packed coefficient is its packed sum. -/
theorem sval_packedSum {w n f : Nat} (hw : 0 < w) {e : List Int} (he : InFields sgn f e) {bundle : Nat} (h : bundle * f ≤ n * w)
    (i : Nat) : sval w n (natMod (packedSum e bundle f i) (2 ^ ((n + 1) * w))) = packedSum e bundle f i := by
  have hexp : n * w ≤ (n + 1) * w - 1 := by
    rw [Nat.succ_mul]
    omega
  obtain ⟨hlow, hhigh⟩ := abs_lt.1 ((abs_packedSum_lt he h i).trans_le (pow_le_pow_right₀ (by norm_num) hexp))
  exact sval_natMod hw hlow.le hhigh

/-- Settles O39. -/
theorem packersWritePackedValues : Obligations.PackersWritePackedValues := by
  intro s p fd pa xb xw sgn neg h f e
  have hready := packInstr_ready.1 h
  have hok := packBody_ok (sgn := sgn) (neg := neg).2 ⟨hready, rfl⟩
  obtain ⟨-, -, -, hlen, hraw⟩ := packBody_result hok
  obtain ⟨-, -, hb, -, -, -, -, -, hfit⟩ := hready
  have hceil {j : Nat} : ceilDiv (s.cipLen pa) (s.regNat xb) ≤ j ↔ s.cipLen pa ≤ j * s.regNat xb :=
    ceilDiv_le_iff (Nat.pos_of_ne_zero hb)
  refine ⟨_, _, exec_of_effect_ok (packInstr_effect.trans hok), rfl, hlen, hceil.1 le_rfl, fun j => hceil.2, fun he i hi => ?_⟩
  have hri := hraw he i hi
  refine ⟨(congrArg Nat.cast hri).trans ?_, (congrArg (sval _ _) hri).trans ?_⟩
  · rw [s.radix_pow_eq, natMod_cast (Nat.two_pow_pos _)]
    rfl
  · exact sval_packedSum (LimbWidth.bits_pos _) he hfit i

/-! Compact polynomials, written and read back. -/

theorem State.CoeffsFit.nlimbs_le {out : List Int} (h : s.CoeffsFit pd out) {v : Int} (hv : v ∈ out) :
    nlimbs s.width v.natAbs ≤ s.cipLimbs pd := by
  simpa using List.all_eq_true.1 h v hv

/-- A list that fits its slot is held as R45 lays it out. -/
theorem State.writePoly_holds {out : List Int} (h : s.PolyFits pd out) : (s.writePoly pd out).HoldsPoly pd out := by
  obtain ⟨hfit, hlen⟩ := h
  obtain ⟨hread, hl, hslot, -⟩ := s.writePoly_spec pd out
  obtain ⟨hbase, hlimbs, -⟩ := hslot pd
  have hp : (s.writePoly pd out).params = s.params := s.memWriteList_params _ _ _
  have hlt : out.length < 2 ^ 64 := hlen.trans_lt (BitVec.isLt _)
  refine ⟨hl.trans (Nat.mod_eq_of_lt hlt), fun i hi => ?_⟩
  have haddr : (s.writePoly pd out).cipAddr pd i = s.cipAddr pd i := by rw [State.cipAddr, hbase, hlimbs, State.cipAddr]
  have hw : (s.writePoly pd out).width = s.width := congrArg (fun q => q.limb.bits) hp
  rw [haddr, hlimbs, hread i hi, hw]
  refine Nat.mod_eq_of_lt ?_
  rw [s.radix_eq_width]
  exact coeffImage_lt (LimbWidth.bits_pos _) (hfit.nlimbs_le (List.getElem_mem hi))

/-- The limbs below a read number's limb `k` are its remainder modulo `B^k`. -/
theorem State.memRead_low (s : State) (a : Nat) {k n : Nat} (h : k ≤ n) : s.memRead a k = s.memRead a n % s.radix ^ k := by
  obtain ⟨l, rfl⟩ := Nat.exists_eq_add_of_le h
  rw [s.memRead_add, Nat.add_mul_mod_self_left, Nat.mod_eq_of_lt (s.memRead_lt a k)]

theorem nlimbs_zero (w : Nat) (hw : 0 < w) : nlimbs w 0 = 0 :=
  Nat.le_zero.1 ((nlimbs_le_iff hw).2 (Nat.two_pow_pos _))

/-- The header of a written coefficient: the count of its limbs with its sign (10_state.md R41, R45). -/
def headerOf (w : Nat) (v : Int) : Int := v.sign * (nlimbs w v.natAbs : Nat)

theorem headerOf_natAbs {w : Nat} (hw : 0 < w) (v : Int) : (headerOf w v).natAbs = nlimbs w v.natAbs := by
  rw [headerOf, Int.natAbs_mul, Int.natAbs_natCast]
  rcases eq_or_ne v 0 with rfl | hv
  · simp [nlimbs_zero w hw]
  · rw [Int.natAbs_sign_of_ne_zero hv, Nat.one_mul]

theorem headerOf_sign {w : Nat} (hw : 0 < w) (v : Int) : (headerOf w v).sign = v.sign := by
  rcases eq_or_ne v 0 with rfl | hv
  · simp [headerOf]
  · have hpos : 0 < nlimbs w v.natAbs := Nat.pos_of_ne_zero fun h0 => by
      have := (nlimbs_le_iff hw).1 h0.le
      simp only [Nat.zero_mul, pow_zero, Nat.lt_one_iff, Int.natAbs_eq_zero] at this
      exact hv this
    rw [headerOf, Int.sign_mul, Int.sign_sign, Int.sign_natCast_of_ne_zero hpos.ne', mul_one]

/-- A held coefficient: its header limb and its magnitude. -/
theorem State.HoldsPoly.coeff_limbs {out : List Int} (h : t.HoldsPoly pd out) {i : Nat} (hi : i < out.length) :
    t.limb (t.cipAddr pd i) = natMod (headerOf t.width out[i]) (2 ^ t.width)
      ∧ t.memRead (t.cipAddr pd i + 1) (t.cipLimbs pd) = out[i].natAbs := by
  have himage := h.2 i hi
  have hlt : natMod (headerOf t.width out[i]) (2 ^ t.width) < 2 ^ t.width := natMod_lt (Nat.two_pow_pos _) _
  have hlimb := t.limb_lt (t.cipAddr pd i)
  rw [Nat.add_comm, t.memRead_add, t.memRead_one, pow_one, coeffImage, t.radix_eq_width] at himage
  rw [t.radix_eq_width] at hlimb
  have hmod := congrArg (· % 2 ^ t.width) himage
  have hdiv := congrArg (· / 2 ^ t.width) himage
  simp only [Nat.add_mul_mod_self_left, Nat.mod_eq_of_lt hlimb] at hmod
  simp only [Nat.add_mul_div_left _ _ (Nat.two_pow_pos t.width), Nat.div_eq_of_lt hlimb, Nat.zero_add] at hdiv
  exact ⟨hmod.trans (Nat.mod_eq_of_lt hlt), hdiv.trans (by rw [← headerOf, Nat.div_eq_of_lt hlt, Nat.zero_add])⟩

/-- A held coefficient reads as the number it was written from. -/
theorem State.HoldsPoly.cipCoeff {out : List Int} (h : t.HoldsPoly pd out) (hw : 2 * t.cipLimbs pd < t.radix) {i : Nat}
    (hi : i < out.length) (hfit : nlimbs t.width out[i].natAbs ≤ t.cipLimbs pd) : t.cipCoeff pd i = out[i] := by
  obtain ⟨hhead, hmag⟩ := h.coeff_limbs hi
  have hpos : 0 < t.width := LimbWidth.bits_pos _
  have hheader : t.cipHeader pd i = headerOf t.width out[i] := by
    have habs := headerOf_natAbs hpos out[i]
    have htwo : (2 : Int) ^ t.width = 2 * 2 ^ (t.width - 1) := by exact_mod_cast two_pow_pred hpos
    have hrad : (t.radix : Int) = 2 ^ t.width := by exact_mod_cast t.radix_eq_width
    rw [State.cipHeader, hhead]
    exact sext_natMod hpos (by omega) (by omega)
  have hread : t.memRead (t.cipAddr pd i + 1) (nlimbs t.width out[i].natAbs) = out[i].natAbs := by
    rw [t.memRead_low _ hfit, hmag, t.radix_pow_eq]
    exact Nat.mod_eq_of_lt ((nlimbs_le_iff hpos).1 le_rfl)
  rw [State.cipCoeff, hheader, headerOf_natAbs hpos, if_pos hfit, hread, headerOf_sign hpos]
  exact Int.sign_mul_natAbs _

/-- Settles O43, coefficient by coefficient. -/
theorem writtenPolynomialReadsBack : Obligations.WrittenPolynomialReadsBack := by
  intro t pd out h hfit hw
  have hlen := h.1
  refine List.ext_getElem (by rw [State.poly_length, hlen]) fun i hi hi' => ?_
  have hn : nlimbs t.width out[i].natAbs ≤ t.cipLimbs pd := by
    rw [nlimbs_le_iff t.width_pos]
    exact (hfit _ (List.getElem_mem hi')).trans_eq (t.radix_pow_eq _)
  rw [← h.cipCoeff hw hi' hn]
  simp [State.poly]

/-! Unpacking. -/

theorem unpackInstr_ready : (unpackInstr p pd fa xb xw xc sgn neg).ready s = true ↔
    s.UnpackReady (unpackInstr p pd fa xb xw xc sgn neg) p pd fa (s.regNat xb) (s.regNat xw) (s.regNat xc) sgn neg := by
  cases p <;> exact decide_eq_true_iff

/-- The destination of `BUNPACK` was zero where R136 asks for it. -/
abbrev State.DestinationZero (s : State) (pd : CipIx) (fa : FrpIx) (bundle cnt : Nat) : Prop :=
  s.memRead (s.cipBase pd) (s.preZeroed pd fa bundle cnt * (s.cipLimbs pd + 1)) = 0

/-- The effect of an unpacker whose checks hold. -/
theorem unpackInstr_effect : (unpackInstr p pd fa xb xw xc sgn neg).effect s = .ok t ↔
    (unpackInstr p pd fa xb xw xc sgn neg).ready s = true
      ∧ t = if p ≠ .bits ∨ s.DestinationZero pd fa (s.regNat xb) (s.regNat xc) then
          s.writePoly pd (s.unpacked p fa (s.regNat xb) (s.regNat xw) (s.regNat xc) sgn neg)
        else s.freePoly pd (s.preZeroed pd fa (s.regNat xb) (s.regNat xc)) := by
  cases p with
  | bits =>
    simp only [ne_eq, not_true_eq_false, false_or]
    exact bunpackBody_ok
  | limbs | bytes =>
    rw [unpackInstr_ready, if_pos (.inl (by decide))]
    exact unpackBody_ok

theorem landingSum_of_ge {ints : Nat → Int} {m bundle cnt f k : Nat} (h : unpackLength m bundle cnt ≤ k) :
    landingSum sgn ints m bundle cnt f k = 0 := by
  refine Finset.sum_eq_zero fun i hi => if_neg fun hik => ?_
  have him := Finset.mem_range.1 hi
  rw [unpackLength, if_pos (by omega)] at h
  have := Nat.mul_le_mul_right bundle (Nat.le_sub_one_of_lt him)
  omega

theorem negateIf_getD (c : List Int) (k : Nat) : (negateIf neg c).getD k 0 = (if neg then -1 else 1) * c.getD k 0 := by
  cases neg with
  | false => simp [negateIf]
  | true =>
    rw [negateIf, if_pos rfl, map_neg_getD]
    simp

/-- Every index of an unpacker's result (41_packing.md R127). -/
theorem State.unpacked_getD (s : State) (p : Packing) (fa : FrpIx) (bundle v cnt : Nat) (sgn neg : Bool) (k : Nat) :
    (s.unpacked p fa bundle v cnt sgn neg).getD k 0 = (if neg then -1 else 1)
      * landingSum sgn (s.unpackInt p sgn fa) (s.frpLen fa) bundle cnt (fieldWidth p s.width v) k := by
  rw [State.unpacked, trim_getD, negateIf_getD, unpackSums, getD_map_range]
  congr 1
  split
  · rw [sumN_eq_sum, landingSum]
  · rw [landingSum_of_ge (by omega)]

theorem State.cipLen_freePoly_le (s : State) (k : CipIx) (m : Nat) : (s.freePoly k m).cipLen k ≤ m := by
  rw [State.freePoly, State.cipLen_setCipLen, if_pos rfl]
  exact (Nat.mod_le _ _).trans (Nat.lt_succ_iff.1 (Nat.mod_lt _ m.succ_pos))

/-- Settles O40. -/
theorem unpackersWriteFieldSums : Obligations.UnpackersWriteFieldSums := by
  intro s p pd fa xb xw xc sgn neg h f z zero
  obtain ⟨-, hfits, -⟩ := unpackInstr_ready.1 h
  have hexec := exec_of_effect_ok (unpackInstr_effect.2 ⟨h, rfl⟩)
  refine ⟨_, s.unpacked p fa (s.regNat xb) (s.regNat xw) (s.regNat xc) sgn neg, hexec, rfl, fun hz => ?_, fun hp hz => ?_,
    trim_getLast_ne_zero _, s.unpacked_getD p fa _ _ _ sgn neg⟩
  · rw [if_pos hz]
    exact State.writePoly_holds hfits
  · rw [if_neg (not_or_intro (not_not_intro hp) hz)]
    exact s.cipLen_freePoly_le pd z

end Sys2Proof.Machine

/-! Packing and then unpacking (41_packing.md R133), and the products of compact polynomials (44_multiplication_engine.md). -/

namespace Sys2Proof.Machine

variable {s t u : State} {p : Packing} {fd : FrpIx} {pa pb pd : CipIx} {xb xw : Reg} {sgn neg : Bool}

/-! A normalised list is known by its entries. -/

theorem Normalised.length_le {l l' : List Int} (h : Normalised l) (he : ∀ k, l.getD k 0 = l'.getD k 0) : l.length ≤ l'.length := by
  by_contra hlt
  have hne : l ≠ [] := List.ne_nil_of_length_pos (by omega)
  have hlast : l.getLast hne = l.getD (l.length - 1) 0 := by
    rw [List.getLast_eq_getElem, List.getD_eq_getElem]
  refine h hne (hlast.trans ((he _).trans (List.getD_eq_default _ _ ?_)))
  omega

theorem Normalised.ext {l l' : List Int} (h : Normalised l) (h' : Normalised l') (he : ∀ k, l.getD k 0 = l'.getD k 0) :
    l = l' := by
  refine List.ext_getElem (le_antisymm (h.length_le he) (h'.length_le fun k => (he k).symm)) fun i hi hi' => ?_
  rw [← List.getD_eq_getElem _ 0 hi, ← List.getD_eq_getElem _ 0 hi', he]

/-! The integer an unpacker takes from a coefficient that a packer wrote. -/

/-- With signed fields a packed sum lies in the balanced range of `R_n`. -/
theorem two_mul_abs_packedSum_le {f : Nat} {e : List Int} (hf : 0 < f) (he : InFields true f e) {bundle m : Nat} (hb : bundle ≠ 0)
    (h : bundle * f ≤ m) (i : Nat) : 2 * |packedSum e bundle f i| ≤ 2 ^ m := by
  obtain ⟨b, rfl⟩ := Nat.exists_eq_succ_of_ne_zero hb
  obtain ⟨g, hg⟩ : ∃ g : Nat → Int, g = fun j => e.getD (i * (b + 1) + j) 0 := ⟨_, rfl⟩
  have hfield (j : Nat) : InField true f (g j) := hg ▸ he.getD _
  have hpos : (0 : Int) < 2 ^ (b * f) := by positivity
  have htwo : (2 : Int) ^ f = 2 * 2 ^ (f - 1) := by exact_mod_cast two_pow_pred hf
  have htop : |g b| ≤ 2 ^ (f - 1) - 1 := by
    rw [Int.abs_eq_natAbs]
    exact (hfield b).1 rfl
  have hstep : |g b| * 2 ^ (b * f) ≤ (2 ^ (f - 1) - 1) * 2 ^ (b * f) := mul_le_mul_of_nonneg_right htop hpos.le
  rw [packedSum_eq_fieldSum, ← hg]
  calc 2 * |fieldSum g f (b + 1)| ≤ 2 * (|fieldSum g f b| + |g b| * 2 ^ (b * f)) := by
        rw [fieldSum_succ]
        exact mul_le_mul_of_nonneg_left ((abs_add_le _ _).trans (by rw [abs_mul, abs_of_pos hpos])) (by norm_num)
    _ ≤ 2 * (2 ^ (b * f) + (2 ^ (f - 1) - 1) * 2 ^ (b * f)) :=
        mul_le_mul_of_nonneg_left (add_le_add (abs_fieldSum_lt hfield b).le hstep) (by norm_num)
    _ = 2 ^ ((b + 1) * f) := by rw [Nat.succ_mul, pow_add, htwo]; ring
    _ ≤ 2 ^ m := pow_le_pow_right₀ (by norm_num) h

theorem packedSum_nonneg {f : Nat} {e : List Int} (he : InFields false f e) (bundle i : Nat) : 0 ≤ packedSum e bundle f i :=
  Finset.sum_nonneg fun _ _ => mul_nonneg ((he.getD _).2 rfl).1 (by positivity)

/-- The limb unpacker takes the packed sum itself: with `S` from the balanced residue, else as it is. -/
theorem unpackInt_limbs {i : Nat} {V : Int} (hi : i < t.frpLen fd)
    (hsval : sval t.width (t.frpN fd) (t.raw fd i) = V) (habs : |V| < 2 ^ (t.frpN fd * t.width))
    (hbal : sgn = true → 2 * |V| ≤ 2 ^ (t.frpN fd * t.width)) (hpos : sgn = false → 0 ≤ V) :
    t.unpackInt .limbs sgn fd i = V := by
  obtain ⟨hlow, hhigh⟩ := abs_lt.1 habs
  have hM : (fermatMod t.width (t.frpN fd) : Int) = 2 ^ (t.frpN fd * t.width) + 1 := by
    rw [fermatMod]
    push_cast
    rfl
  have hB : ((t.radix ^ t.frpN fd : Nat) : Int) = 2 ^ (t.frpN fd * t.width) := by
    rw [t.radix_pow_eq]
    push_cast
    rfl
  have hr : (t.val fd i : Int) = V % (fermatMod t.width (t.frpN fd) : Int) := by
    rw [t.val_of_lt hi, residue, natMod_cast (fermatMod_pos _ _), hsval]
  rw [State.unpackInt]
  rcases lt_or_ge V 0 with hneg | hnonneg
  · obtain rfl : sgn = true := by
      by_contra hs
      exact absurd (hpos (Bool.eq_false_iff.2 hs)) (not_le.2 hneg)
    have hv : (t.val fd i : Int) = V + fermatMod t.width (t.frpN fd) := by
      rw [hr, ← Int.add_emod_right]
      exact Int.emod_eq_of_lt (by omega) (by omega)
    have hb := hbal rfl
    rw [abs_of_neg hneg] at hb
    rw [if_pos ⟨rfl, by omega⟩]
    omega
  · have hv : (t.val fd i : Int) = V := hr.trans (Int.emod_eq_of_lt hnonneg (by omega))
    rw [if_neg, hv]
    rintro ⟨hs, hlt⟩
    have hb := hbal hs
    rw [abs_of_nonneg hnonneg] at hb
    omega

/-- Bit and byte unpackers take the packed sum modulo `B^n`. -/
theorem memRead_low_packed {i : Nat} {V : Int} (hraw : t.raw fd i = natMod V (2 ^ ((t.frpN fd + 1) * t.width))) :
    ((t.memRead (t.caddr fd i) (t.frpN fd) : Nat) : Int) = V % 2 ^ (t.frpN fd * t.width) := by
  have hdvd : (2 : Int) ^ (t.frpN fd * t.width) ∣ 2 ^ ((t.frpN fd + 1) * t.width) :=
    pow_dvd_pow 2 (Nat.mul_le_mul_right _ (Nat.le_succ _))
  have hread : t.memRead (t.caddr fd i) (t.frpN fd) = t.raw fd i % 2 ^ (t.frpN fd * t.width) := by
    rw [← t.radix_pow_eq]
    exact t.memRead_low _ (Nat.le_succ _)
  rw [hread, hraw, Int.natCast_mod, natMod_eq_emod]
  push_cast
  exact Int.emod_emod_of_dvd V hdvd

/-- Whatever the packing, the fields of the integer an unpacker takes are the numbers packed. -/
theorem fieldValue_unpackInt {f bundle i j : Nat} {e : List Int} (hf : 0 < f) (he : InFields sgn f e)
    (hfit : bundle * f ≤ t.frpN fd * t.width) (hi : i < t.frpLen fd) (hj : j < bundle)
    (hraw : t.raw fd i = natMod (packedSum e bundle f i) (2 ^ ((t.frpN fd + 1) * t.width))) :
    fieldValue sgn (t.unpackInt p sgn fd i) f j = e.getD (i * bundle + j) 0 := by
  have hfield : fieldValue sgn (packedSum e bundle f i) f j = e.getD (i * bundle + j) 0 :=
    fieldValue_fieldSum hf (fun j => he.getD (i * bundle + j)) hj
  have hlow := memRead_low_packed hraw
  have hmod : fieldValue sgn (packedSum e bundle f i % 2 ^ (t.frpN fd * t.width)) f j = e.getD (i * bundle + j) 0 :=
    (fieldValue_mod sgn _ ((Nat.mul_le_mul_right f hj).trans hfit)).trans hfield
  cases p with
  | limbs =>
    rw [unpackInt_limbs hi (by rw [hraw, sval_packedSum t.width_pos he hfit]) (abs_packedSum_lt he hfit i)
      (fun hs => two_mul_abs_packedSum_le hf (hs ▸ he) (by omega) hfit i) (fun hs => packedSum_nonneg (hs ▸ he) bundle i)]
    exact hfield
  | bits | bytes => rw [State.unpackInt, hlow, hmod]

/-- With the fields of every coefficient those of `e`, the landing sums are `e`: only coefficient `k / bundle` lands on `k`. -/
theorem landingSum_eq {ints : Nat → Int} {m bundle f : Nat} {e : List Int} (hb : bundle ≠ 0) (hm : e.length ≤ m * bundle)
    (h : ∀ i < m, ∀ j < bundle, fieldValue sgn (ints i) f j = e.getD (i * bundle + j) 0) (k : Nat) :
    landingSum sgn ints m bundle bundle f k = e.getD k 0 := by
  have hpos := Nat.pos_of_ne_zero hb
  have hiff (i : Nat) : (i * bundle ≤ k ∧ k < i * bundle + bundle) ↔ i = k / bundle := by
    rw [← Nat.succ_mul, eq_comm, Nat.div_eq_iff hpos]
    have := Nat.succ_mul i bundle
    omega
  rw [landingSum]
  simp only [hiff, Finset.sum_ite_eq', Finset.mem_range]
  have hle := Nat.div_mul_le_self k bundle
  split
  next hk =>
    rw [h _ hk _ (by have := Nat.lt_div_mul_add hpos (a := k); omega), Nat.add_sub_cancel' hle]
  next hk =>
    have := Nat.mul_le_mul_right bundle (Nat.le_of_not_lt hk)
    rw [List.getD_eq_default _ _ (by omega)]

theorem negateIf_length (c : List Int) : (negateIf neg c).length = c.length := by
  rw [negateIf]
  split
  · exact List.length_map _
  · rfl

/-- What an unpacker finds in a slot just packed with the same operands. -/
theorem unpacked_of_packed (h : packBody p fd pa xb xw sgn neg s = .ok t) (hn : Normalised (s.poly pa))
    (he : InFields sgn (fieldWidth p s.width (s.regNat xw)) (negateIf neg (s.poly pa))) :
    t.unpacked p fd (s.regNat xb) (s.regNat xw) (s.regNat xb) sgn neg = s.poly pa := by
  obtain ⟨⟨-, -, hb, -, -, -, -, hwidth, hfit⟩, -⟩ := packBody_ok.1 h
  obtain ⟨hsame, -, -, hlen, hraw⟩ := packBody_result h
  refine Normalised.ext (trim_getLast_ne_zero _) hn fun k => ?_
  rw [State.unpacked_getD, hlen, hsame.width, landingSum_eq hb (e := negateIf neg (s.poly pa))]
  · rw [negateIf_getD]
    cases neg <;> simp
  · rw [negateIf_length, State.poly_length]
    exact (ceilDiv_le_iff (Nat.pos_of_ne_zero hb)).1 le_rfl
  · intro i hi j hj
    refine fieldValue_unpackInt (fieldWidth_pos hwidth) he ?_ (hlen.symm ▸ hi) hj ?_
    · rwa [hsame.n, hsame.width]
    · rw [hsame.n, hsame.width]
      exact hraw he i hi

theorem State.unpacked_complete (s : State) (c : Option ErrorKind) (p : Packing) (fa : FrpIx) (bundle v cnt : Nat)
    (sgn neg : Bool) : (s.complete c).unpacked p fa bundle v cnt sgn neg = s.unpacked p fa bundle v cnt sgn neg := by
  cases p <;> rfl

/-- What a completed packing leaves to an unpacking with the same operands. -/
theorem exec_pack_unpacked (h : exec (packInstr p fd pa xb xw sgn neg) s = .next t) (herr : t.err = 0)
    (hn : Normalised (s.poly pa))
    (he : InFields sgn (fieldWidth p s.width (s.regNat xw)) (negateIf neg (s.poly pa))) :
    t.params = s.params ∧ t.cips = s.cips ∧ t.regs = s.regs
      ∧ t.unpacked p fd (s.regNat xb) (s.regNat xw) (s.regNat xb) sgn neg = s.poly pa := by
  obtain ⟨r, hpack, rfl⟩ := exec_ok_of_err_zero h herr
  rw [packInstr_effect] at hpack
  obtain ⟨hsame, hcips, hregs, -⟩ := packBody_result hpack
  exact ⟨hsame.params, hcips, hregs, (r.unpacked_complete _ _ _ _ _ _ _ _).trans (unpacked_of_packed hpack hn he)⟩

theorem State.HoldsPoly.complete {out : List Int} (h : t.HoldsPoly pd out) (c : Option ErrorKind) :
    (t.complete c).HoldsPoly pd out := h

/-- A polynomial written to a slot where it fits reads back, where a header can count the slot's limbs. -/
theorem State.poly_writePoly {out : List Int} (h : s.PolyFits pd out) (hw : 2 * s.cipLimbs pd < s.radix) :
    ((s.writePoly pd out).complete none).poly pd = out := by
  obtain ⟨-, -, hslot, -⟩ := s.writePoly_spec pd out
  have hlimbs : ((s.writePoly pd out).complete none).cipLimbs pd = s.cipLimbs pd := (hslot pd).2.1
  have hradix : ((s.writePoly pd out).complete none).radix = s.radix :=
    congrArg (fun q => q.limb.radix) (s.memWriteList_params _ _ _)
  refine writtenPolynomialReadsBack _ pd _ ((State.writePoly_holds h).complete none) (fun v hv => ?_) (by rwa [hlimbs, hradix])
  rw [hlimbs, hradix, s.radix_pow_eq]
  exact (nlimbs_le_iff s.width_pos).1 (h.1.nlimbs_le hv)

/-- Settles O41: the unpacker's list is the polynomial packed, and what it writes reads back. -/
theorem packThenUnpackRestores : Obligations.PackThenUnpackRestores := by
  intro p s t u fd pa pd xb xw sgn neg hp ht hu hu0 hn he hz hw
  obtain ⟨hparams, hcips, hregs, hout⟩ := exec_pack_unpacked hp ht hn he
  obtain ⟨u, hunpack, rfl⟩ := exec_ok_of_err_zero hu hu0
  obtain ⟨hready, rfl⟩ := unpackInstr_effect.1 hunpack
  obtain ⟨-, hfits, -⟩ := unpackInstr_ready.1 hready
  have hreg (r : Reg) : t.regNat r = s.regNat r := congrArg BitVec.toNat (State.reg_congr hregs r)
  have hlimbs : t.cipLimbs pd = s.cipLimbs pd := State.cipLimbs_congr hcips pd
  have hzero : p ≠ .bits ∨ t.DestinationZero pd fd (s.regNat xb) (s.regNat xb) := by
    by_cases hbits : p = .bits
    · refine .inr ?_
      rw [State.DestinationZero, State.cipBase_congr hcips, hlimbs]
      exact hz hbits
    · exact .inl hbits
  rw [hreg, hreg, hout] at hfits
  rw [hreg, hreg, if_pos hzero, hout]
  have hradix : t.radix = s.radix := congrArg (fun q => q.limb.radix) hparams
  exact State.poly_writePoly hfits (by rwa [hlimbs, hradix])

/-! Products. -/

/-- The product list, before normalisation, of a product command. -/
def State.productList (s : State) (q : ProductKind) (a b : List Int) : List Int :=
  match q with
  | .classical | .full => fullProduct a b
  | .low xt => truncate (fullProduct a b) (s.regNat xt)
  | .high xt => truncateLeft (fullProduct a b) (s.regNat xt)

theorem State.productList_getD (s : State) (q : ProductKind) (a b : List Int) (k : Nat) :
    (s.productList q a b).getD k 0 = s.wantedCoeff q a b k := by
  cases q with
  | classical | full => exact fullProduct_getD a b k
  | low xt =>
    rw [State.productList, State.wantedCoeff, truncate, List.getD_eq_getElem?_getD, List.getElem?_take]
    split
    · rw [← List.getD_eq_getElem?_getD, fullProduct_getD]
    · rfl
  | high xt =>
    rw [State.productList, State.wantedCoeff, truncateLeft, getD_map_range]
    simp only [fullProduct_getD]
    by_cases hk : k < (fullProduct a b).length
    · rw [if_pos hk]
    · rw [if_neg hk, ← fullProduct_getD, List.getD_eq_default _ _ (Nat.le_of_not_lt hk), ite_self]

theorem productInstr_effect (q : ProductKind) : (productInstr q pd pa pb).effect s
    = productBody pd pa pb (productInstr q pd pa pb) (s.productList q) s := by
  have hc : s.controlled = fullProduct := funext fun a => funext (s.controlled_eq a)
  cases q with
  | classical => rfl
  | full | low | high =>
    simp only [productInstr, Instr.effect, hc]
    rfl

theorem productInstr_ready (q : ProductKind) : (productInstr q pd pa pb).ready s = true
    ↔ s.ProductReady pd pa pb (productInstr q pd pa pb) (s.productList q (s.poly pa) (s.poly pb)) := by
  cases q <;> exact decide_eq_true_iff

/-- Settles O58. -/
theorem productCommands : Obligations.ProductCommands := by
  intro s q pd pa pb h
  have hready := (productInstr_ready q).1 h
  refine ⟨_, trim (s.productList q (s.poly pa) (s.poly pb)),
    exec_of_effect_ok ((productInstr_effect q).trans (productBody_ok.2 ⟨hready, rfl⟩)), rfl,
    (State.writePoly_holds hready.2.1).complete none, trim_getLast_ne_zero _, fun k => ?_⟩
  rw [trim_getD, State.productList_getD]

end Sys2Proof.Machine

/-! The functions behind the transforms: bit reversal (00_scope.md R7) and the `2^d`-th root of unity `ω_d = ρ^(4nW/2^d)`
(42_fermat_ring.md R153). -/

namespace Sys2Proof.Machine

/-! Bit reversal. -/

theorem brev_testBit {d k j : Nat} (h : j < d) : (brev d k).testBit j = k.testBit (d - 1 - j) := by
  induction d generalizing k j with
  | zero => exact absurd h (Nat.not_lt_zero j)
  | succ d ih =>
    rw [brev, Nat.mul_comm, Nat.testBit_two_pow_mul_add _ (brev_lt d _)]
    split
    next hj =>
      have hsucc : d + 1 - 1 - j = (d - 1 - j) + 1 := by omega
      rw [ih hj, hsucc, Nat.testBit_succ]
    next hj =>
      obtain rfl : j = d := by omega
      rw [Nat.sub_self, Nat.add_sub_cancel, Nat.sub_self, Nat.testBit_zero, Nat.testBit_zero, Nat.mod_mod]

/-- Below `2^d` bit reversal loses nothing. -/
theorem brev_injOn {d i j : Nat} (hi : i < 2 ^ d) (hj : j < 2 ^ d) (h : brev d i = brev d j) : i = j := by
  refine Nat.eq_of_testBit_eq fun t => ?_
  rcases Nat.lt_or_ge t d with ht | ht
  · have hflip : d - 1 - (d - 1 - t) = t := by omega
    have hb := congrArg (Nat.testBit · (d - 1 - t)) h
    simp only [brev_testBit (show d - 1 - t < d by omega), hflip] at hb
    exact hb
  · have hpow : 2 ^ d ≤ 2 ^ t := Nat.pow_le_pow_right two_pos ht
    rw [Nat.testBit_lt_two_pow (hi.trans_le hpow), Nat.testBit_lt_two_pow (hj.trans_le hpow)]

/-! Sums of powers whose exponent runs to a power of 2. -/

section
variable {R : Type} [CommRing R] {x : R}

theorem sum_pow_two_pow_succ (x : R) (d : Nat) :
    ∑ j ∈ Finset.range (2 ^ (d + 1)), x ^ j = (1 + x ^ 2 ^ d) * ∑ j ∈ Finset.range (2 ^ d), x ^ j := by
  rw [pow_succ, Nat.mul_two, Finset.sum_range_add, add_mul, one_mul, Finset.mul_sum]
  simp only [pow_add]

/-- The sum is a product of factors `1 + x^(2^i)`, and one of them is 0. -/
theorem sum_pow_two_pow_eq_zero {i d : Nat} (h : x ^ 2 ^ i = -1) (hi : i < d) : ∑ j ∈ Finset.range (2 ^ d), x ^ j = 0 := by
  induction d, hi using Nat.le_induction with
  | base => rw [sum_pow_two_pow_succ, h, add_neg_cancel, zero_mul]
  | succ d _ ih => rw [sum_pow_two_pow_succ, ih, mul_zero]

/-- `1 − x` divides `1 − x^(2^i) = 2`. -/
theorem isUnit_one_sub {i : Nat} (h : x ^ 2 ^ i = -1) (h2 : IsUnit (2 : R)) : IsUnit (1 - x) := by
  refine isUnit_of_dvd_unit ?_ h2
  have hdvd := sub_dvd_pow_sub_pow 1 x (2 ^ i)
  rwa [one_pow, h, sub_neg_eq_add, one_add_one_eq_two] at hdvd

end

/-! The root `ω_d`. -/

section
variable {w n d : Nat} (h4 : 4 ∣ n * w) (hN : 0 < n * w) (hd : 2 ^ d ∣ rootOrder w n)

theorem isUnit_two_fermat (hN : 0 < n * w) : IsUnit (2 : ZMod (fermatMod w n)) := by
  refine isUnit_of_dvd_unit (dvd_pow_self 2 hN.ne') ?_
  rw [two_pow_fermat]
  exact isUnit_one.neg

include h4 hN

theorem omega_cast : (omega w n d : ZMod (fermatMod w n)) = (rho w n : ZMod (fermatMod w n)) ^ (rootOrder w n / 2 ^ d) := by
  rw [omega, ZMod.natCast_mod, Nat.cast_pow, tw, Nat.one_mul]
  exact (pow_eq_pow_mod _ (rho_pow_rootOrder h4 hN)).symm

theorem omega_pow_cast (j : Nat) :
    (omega w n d : ZMod (fermatMod w n)) ^ j = (rho w n : ZMod (fermatMod w n)) ^ tw w n d j := by
  rw [omega_cast h4 hN, ← pow_mul, tw, Nat.mul_comm]
  exact pow_eq_pow_mod _ (rho_pow_rootOrder h4 hN)

include hd

theorem omega_pow_two_pow : (omega w n d : ZMod (fermatMod w n)) ^ 2 ^ d = 1 := by
  rw [omega_cast h4 hN, ← pow_mul, Nat.div_mul_cancel hd, rho_pow_rootOrder h4 hN]

/-- Half way round, `ω` is `−1`. -/
theorem omega_pow_half (hpos : 1 ≤ d) : (omega w n d : ZMod (fermatMod w n)) ^ 2 ^ (d - 1) = -1 := by
  have hexp : rootOrder w n / 2 ^ d * 2 ^ (d - 1) = 2 * (n * w) := by
    refine Nat.eq_of_mul_eq_mul_left two_pos ?_
    rw [Nat.mul_left_comm, mul_pow_sub_one (by omega), Nat.div_mul_cancel hd, rootOrder]
    ring
  rw [omega_cast h4 hN, ← pow_mul, hexp, rho_pow_two_mul h4, two_pow_fermat]

/-- Every power of `ω` that is not a whole turn has a power of 2 that is `−1`: with `k = 2^e·q`, `q` odd, that of `2^(d−1−e)`. -/
theorem omega_pow_pow_eq_neg_one {k : Nat} (hk : 0 < k) (hlt : k < 2 ^ d) :
    ∃ i < d, ((omega w n d : ZMod (fermatMod w n)) ^ k) ^ 2 ^ i = -1 := by
  obtain ⟨e, q, hq, rfl⟩ := Nat.exists_eq_two_pow_mul_odd hk.ne'
  have he : e < d := by
    rw [← Nat.pow_lt_pow_iff_right one_lt_two]
    exact (Nat.le_mul_of_pos_right _ hq.pos).trans_lt hlt
  refine ⟨d - 1 - e, by omega, ?_⟩
  have hexp : 2 ^ e * q * 2 ^ (d - 1 - e) = 2 ^ (d - 1) * q := by
    rw [Nat.mul_right_comm, ← pow_add, Nat.add_sub_cancel' (by omega)]
  rw [← pow_mul, hexp, pow_mul, omega_pow_half h4 hN hd (by omega), hq.neg_one_pow]

theorem sum_omega_pow {k : Nat} (hk : 0 < k) (hlt : k < 2 ^ d) :
    ∑ j ∈ Finset.range (2 ^ d), (omega w n d : ZMod (fermatMod w n)) ^ (j * k) = 0 := by
  obtain ⟨i, hi, hneg⟩ := omega_pow_pow_eq_neg_one h4 hN hd hk hlt
  simp only [fun j => Nat.mul_comm j k, pow_mul]
  exact sum_pow_two_pow_eq_zero hneg hi

theorem isUnit_omega : IsUnit (omega w n d : ZMod (fermatMod w n)) :=
  IsUnit.of_pow_eq_one (omega_pow_two_pow h4 hN hd) (Nat.two_pow_pos d).ne'

/-- Two different powers of `ω` within a turn differ by a unit. -/
theorem isUnit_omega_pow_sub {a b : Nat} (ha : a < 2 ^ d) (hb : b < 2 ^ d) (hab : a ≠ b) :
    IsUnit ((omega w n d : ZMod (fermatMod w n)) ^ a - omega w n d ^ b) := by
  have hω := isUnit_omega h4 hN hd
  have ordered {a b : Nat} (hb : b < 2 ^ d) (hab : a < b) :
      IsUnit ((omega w n d : ZMod (fermatMod w n)) ^ a - omega w n d ^ b) := by
    obtain ⟨i, -, hneg⟩ := omega_pow_pow_eq_neg_one h4 hN hd (k := b - a) (by omega) (by omega)
    have hfactor : (omega w n d : ZMod (fermatMod w n)) ^ a - omega w n d ^ b = omega w n d ^ a * (1 - omega w n d ^ (b - a)) := by
      rw [mul_sub, mul_one, ← pow_add, Nat.add_sub_cancel' hab.le]
    rw [hfactor]
    exact (hω.pow a).mul (isUnit_one_sub hneg (isUnit_two_fermat hN))
  rcases Nat.lt_or_gt_of_ne hab with hlt | hlt
  · exact ordered hb hlt
  · rw [← neg_sub]
    exact (ordered ha hlt).neg

end

/-- Settles O60. -/
theorem twiddlesAndBitReversal : Obligations.TwiddlesAndBitReversal := by
  refine ⟨fun d k => ⟨brev_lt d k, fun j => brev_testBit⟩, rfl, rfl, rfl, fun lw n d hn hd => ?_, rfl, rfl, rfl, rfl, ?_, rfl⟩
  · intro w M ω
    have hN : 0 < n * w := Nat.mul_pos hn (LimbWidth.bits_pos lw)
    have h4 : 4 ∣ n * w := (LimbWidth.four_dvd_bits lw).mul_left n
    have hM : 2 < M := two_lt_fermatMod hN
    refine ⟨fun j => rfl, fun j => ?_, fun hpos => ?_, ?_, fun k hk hlt => ?_⟩
    · rw [← ZMod.natCast_eq_natCast_iff', Nat.cast_pow, Nat.cast_pow]
      exact omega_pow_cast h4 hN j
    · rw [mod_fermatMod_eq_iff (by omega : M - 1 < M), Nat.cast_pow, natCast_fermatMod_sub_one]
      exact omega_pow_half h4 hN hd hpos
    · rw [mod_fermatMod_eq_iff (by omega : 1 < M), Nat.cast_pow, Nat.cast_one]
      exact omega_pow_two_pow h4 hN hd
    · rw [mod_fermatMod_eq_iff (by omega : 0 < M), Nat.cast_sum, Nat.cast_zero]
      simp only [Nat.cast_pow]
      exact sum_omega_pow h4 hN hd hk hlt
  · decide

end Sys2Proof.Machine

/-! Polynomials over `Z/m` as lists of residues: their values, the inverse of a unit by Euclid's algorithm, and interpolation at
points that pairwise differ by units (43_fft_convolution.md R180, R184). -/

namespace Sys2Proof.Machine

/-! Euclid's algorithm. -/

/-- With cofactors `s·u = r` modulo `m`, Euclid's algorithm answers a cofactor of the greatest common divisor; the product of the pair
halves with each step, so `fuel` bits of it need no more than `fuel + 1` steps. -/
theorem euclid_cast_mul {m : Nat} {u : ZMod m} {fuel r0 r1 : Nat} {s0 s1 : Int} (hle : r1 ≤ r0) (hfuel : r0 * r1 < 2 ^ fuel)
    (h0 : (s0 : ZMod m) * u = r0) (h1 : (s1 : ZMod m) * u = r1) :
    (euclid (fuel + 1) r0 r1 s0 s1 : ZMod m) * u = (r0.gcd r1 : Nat) := by
  induction fuel generalizing r0 r1 s0 s1 with
  | zero =>
    obtain rfl : r1 = 0 := by
      by_contra hne
      have := Nat.mul_pos (Nat.pos_of_ne_zero hne |>.trans_le hle) (Nat.pos_of_ne_zero hne)
      omega
    rw [euclid, if_pos Nat.cast_zero, h0, Nat.gcd_zero_right]
  | succ fuel ih =>
    rw [euclid]
    rcases Nat.eq_zero_or_pos r1 with rfl | hpos
    · rw [if_pos Nat.cast_zero, h0, Nat.gcd_zero_right]
    · have hmod := Nat.mod_lt r0 hpos
      have hhalf : 2 * (r0 % r1) ≤ r0 := by
        have hdiv : 1 ≤ r0 / r1 := (Nat.one_le_div_iff hpos).2 hle
        have hsplit := Nat.mod_add_div r0 r1
        have := Nat.le_mul_of_pos_right r1 hdiv
        omega
      have hprod : r1 * (r0 % r1) < 2 ^ fuel := by
        have := Nat.mul_le_mul_left r1 hhalf
        rw [pow_succ, Nat.mul_comm r0] at hfuel
        rw [Nat.mul_left_comm] at this
        omega
      have hcof : ((s0 - (r0 / r1 : Nat) * s1 : Int) : ZMod m) * u = (r0 % r1 : Nat) := by
        have hsplit : ((r0 % r1 : Nat) : ZMod m) + r1 * (r0 / r1 : Nat) = r0 := by exact_mod_cast congrArg _ (Nat.mod_add_div r0 r1)
        rw [Int.cast_sub, Int.cast_mul, Int.cast_natCast, sub_mul, mul_assoc, h0, h1, ← hsplit]
        ring
      rw [if_neg (by omega), Nat.gcd_comm, Nat.gcd_rec, Nat.gcd_comm]
      exact_mod_cast ih hmod.le hprod h1 hcof

theorem invMod_mul {m u : Nat} (hm : 0 < m) (hu : IsUnit (u : ZMod m)) : (invMod m u : ZMod m) * u = 1 := by
  have hlt : u % m < m := Nat.mod_lt u hm
  have hgcd : m.gcd (u % m) = 1 := by
    rw [Nat.gcd_comm, ← Nat.gcd_rec, Nat.gcd_comm]
    exact (ZMod.isUnit_iff_coprime u m).1 hu
  have hfuel : m * (u % m) < 2 ^ (2 * bitlen m + 1) := by
    have hb : m < 2 ^ bitlen m := bitlen_le_iff.1 le_rfl
    calc m * (u % m) < 2 ^ bitlen m * 2 ^ bitlen m := Nat.mul_lt_mul'' hb (hlt.trans hb)
      _ = 2 ^ (2 * bitlen m) := by rw [← pow_add, Nat.two_mul]
      _ ≤ 2 ^ (2 * bitlen m + 1) := Nat.pow_le_pow_right two_pos (Nat.le_succ _)
  have h := euclid_cast_mul (u := (u : ZMod m)) (s0 := 0) (s1 := 1) hlt.le hfuel (by simp) (by simp)
  rwa [hgcd, Nat.cast_one, ← natMod_zmod hm, ← invMod] at h

/-! The value of a list of coefficients at a point. -/

/-- `Σ_j a_j·y^j`. -/
def polyValue {m : Nat} (a : List Nat) (y : ZMod m) : ZMod m := ∑ j ∈ Finset.range a.length, a.getD j 0 * y ^ j

section
variable {m : Nat}

theorem polyValue_nil (y : ZMod m) : polyValue [] y = 0 := rfl

theorem polyValue_cons (a : Nat) (as : List Nat) (y : ZMod m) : polyValue (a :: as) y = a + y * polyValue as y := by
  rw [polyValue, List.length_cons, Finset.sum_range_succ', polyValue, Finset.mul_sum, add_comm]
  congr 1
  · simp
  · exact Finset.sum_congr rfl fun j _ => by rw [List.getD_cons_succ, pow_succ]; ring

theorem polyEval_cast (a : List Nat) (y : Nat) : (polyEval m a y : ZMod m) = polyValue a (y : ZMod m) := by
  induction a with
  | nil => exact Nat.cast_zero
  | cons a as ih => rw [polyEval, ZMod.natCast_mod, polyValue_cons, Nat.cast_add, Nat.cast_mul, ih]

theorem polyEval_lt (hm : 0 < m) (a : List Nat) (y : Nat) : polyEval m a y < m := by
  cases a with
  | nil => exact hm
  | cons => exact Nat.mod_lt _ hm

/-- Trailing zeros do not matter: a sum over more indices has the same value. -/
theorem polyValue_eq_sum {a : List Nat} {l : Nat} (h : a.length ≤ l) (y : ZMod m) :
    polyValue a y = ∑ j ∈ Finset.range l, a.getD j 0 * y ^ j := by
  refine Finset.sum_subset (Finset.range_subset_range.2 h) fun j _ hj => ?_
  rw [List.getD_eq_default _ _ (by simpa using hj), Nat.cast_zero, zero_mul]

theorem polyValue_addScaled (c : Nat) (u a : List Nat) (y : ZMod m) :
    polyValue (addScaled m c u a) y = c * polyValue u y + polyValue a y := by
  fun_induction addScaled m c u a with
  | case1 as => rw [polyValue_nil, mul_zero, zero_add]
  | case2 u us ih =>
    simp only [polyValue_cons, polyValue_nil, ih, ZMod.natCast_mod, Nat.cast_mul]
    ring
  | case3 u us a as ih =>
    simp only [polyValue_cons, ih, ZMod.natCast_mod, Nat.cast_mul, Nat.cast_add]
    ring

theorem addScaled_lt (hm : 0 < m) (c : Nat) {u a : List Nat} (ha : ∀ x ∈ a, x < m) : ∀ x ∈ addScaled m c u a, x < m := by
  fun_induction addScaled m c u a with
  | case1 as => exact ha
  | case2 u us ih => exact List.forall_mem_cons.2 ⟨Nat.mod_lt _ hm, ih (List.forall_mem_nil _)⟩
  | case3 u us a as ih => exact List.forall_mem_cons.2 ⟨Nat.mod_lt _ hm, ih (List.forall_mem_cons.1 ha).2⟩

/-! Interpolation. -/

/-- What `interpolate` keeps: `z` vanishes at the points before `k` and at each later one has a unit as its value. -/
structure RootsAt (p : Nat → Nat) (k l : Nat) (z : List Nat) : Prop where
  root : ∀ i < k, polyValue z (p i : ZMod m) = 0
  unit : ∀ i, k ≤ i → i < l → IsUnit (polyValue z (p i : ZMod m))

theorem polyValue_times_root (hm : 0 < m) (z : List Nat) (p : Nat) (y : ZMod m) :
    polyValue (addScaled m (m - p % m) z (0 :: z)) y = (y - p) * polyValue z y := by
  have hneg : ((m - p % m : Nat) : ZMod m) = -p := by
    rw [Nat.cast_sub (Nat.mod_lt p hm).le, ZMod.natCast_self, ZMod.natCast_mod, zero_sub]
  rw [polyValue_addScaled, polyValue_cons, hneg, Nat.cast_zero]
  ring

variable {p : Nat → Nat} {k l : Nat} {z : List Nat}

theorem RootsAt.step (hm : 0 < m) (h : RootsAt (m := m) p k l z)
    (hp : ∀ i, k < i → i < l → IsUnit ((p i : ZMod m) - p k)) :
    RootsAt (m := m) p (k + 1) l (addScaled m (m - p k % m) z (0 :: z)) where
  root i hi := by
    rw [polyValue_times_root hm]
    rcases Nat.lt_succ_iff_lt_or_eq.1 hi with hlt | rfl
    · rw [h.root i hlt, mul_zero]
    · rw [sub_self, zero_mul]
  unit i hi hil := by
    rw [polyValue_times_root hm]
    exact (hp i hi hil).mul (h.unit i (Nat.le_of_succ_le hi) hil)

/-- Interpolation takes the wanted values: `a` those before `k`, `xs` the rest. -/
theorem interpolate_values (hm : 0 < m) {a xs : List Nat} (hl : l = k + xs.length)
    (hp : ∀ i j, i < j → j < l → IsUnit ((p j : ZMod m) - p i)) (hz : RootsAt (m := m) p k l z) :
    (∀ i < k, polyValue (interpolate m p k a z xs) (p i : ZMod m) = polyValue a (p i : ZMod m))
      ∧ ∀ i, (h : i < xs.length) → polyValue (interpolate m p k a z xs) (p (k + i) : ZMod m) = xs[i] := by
  induction xs generalizing k a z with
  | nil => exact ⟨fun i _ => rfl, fun i h => absurd h (Nat.not_lt_zero i)⟩
  | cons x xs ih =>
    rw [List.length_cons] at hl
    rw [interpolate]
    obtain ⟨c, hc⟩ : ∃ c, c = natMod ((x : Int) - polyEval m a (p k)) m * invMod m (polyEval m z (p k)) % m := ⟨_, rfl⟩
    rw [← hc]
    obtain ⟨hold, hnew⟩ := ih (k := k + 1) (a := addScaled m c z a) (by omega) (hz.step hm fun i hi => hp k i hi)
    have hval : polyValue (addScaled m c z a) (p k : ZMod m) = x := by
      have hunit : IsUnit ((polyEval m z (p k) : Nat) : ZMod m) := by
        rw [polyEval_cast]
        exact hz.unit k le_rfl (by omega)
      have hinv := invMod_mul hm hunit
      rw [polyEval_cast] at hinv
      rw [polyValue_addScaled, hc, ZMod.natCast_mod, Nat.cast_mul, natMod_zmod hm, mul_assoc, hinv]
      push_cast
      rw [polyEval_cast]
      ring
    refine ⟨fun i hi => ?_, fun i hi => ?_⟩
    · rw [hold i (Nat.lt_succ_of_lt hi), polyValue_addScaled, hz.root i hi, mul_zero, zero_add]
    · cases i with
      | zero => exact (hold k (Nat.lt_succ_self k)).trans hval
      | succ i =>
        rw [← Nat.add_assoc, Nat.add_right_comm]
        exact hnew i (Nat.lt_of_succ_lt_succ hi)

theorem interpolate_lt (hm : 0 < m) {a z xs : List Nat} (ha : ∀ x ∈ a, x < m) : ∀ x ∈ interpolate m p k a z xs, x < m := by
  induction xs generalizing k a z with
  | nil => exact ha
  | cons x xs ih => exact ih (addScaled_lt hm _ ha)

/-- Over points that pairwise differ by units, the values determine the coefficients: the Vandermonde determinant is a unit. -/
theorem coeffs_of_values (hp : ∀ i j, i < j → j < l → IsUnit ((p j : ZMod m) - p i)) {a b : List Nat} (ha : a.length = l)
    (hb : b.length = l) (ham : ∀ x ∈ a, x < m) (hbm : ∀ x ∈ b, x < m)
    (h : ∀ i < l, polyValue a (p i : ZMod m) = polyValue b (p i : ZMod m)) : a = b := by
  let V : Matrix (Fin l) (Fin l) (ZMod m) := Matrix.vandermonde fun i => (p i : ZMod m)
  have hdet : IsUnit V := by
    rw [Matrix.isUnit_iff_isUnit_det, Matrix.det_vandermonde]
    exact IsUnit.prod_univ_iff.2 fun i => IsUnit.prod_iff.2 fun j hj => hp i j (Fin.lt_def.1 (Finset.mem_Ioi.1 hj)) j.2
  have hmul (c : List Nat) (hc : c.length = l) (i : Fin l) :
      V.mulVec (fun j => (c.getD j 0 : ZMod m)) i = polyValue c (p i : ZMod m) := by
    rw [polyValue, hc, Finset.sum_range]
    simp only [V, Matrix.mulVec, dotProduct, Matrix.vandermonde_apply]
    exact Finset.sum_congr rfl fun j _ => mul_comm _ _
  have heq : (fun j : Fin l => (a.getD j 0 : ZMod m)) = fun j : Fin l => (b.getD j 0 : ZMod m) :=
    Matrix.mulVec_injective_of_isUnit hdet (funext fun i => by rw [hmul a ha, hmul b hb, h i i.2])
  refine List.ext_getElem (ha.trans hb.symm) fun j hj hj' => ?_
  have hcast := congrFun heq ⟨j, ha ▸ hj⟩
  simp only [List.getD_eq_getElem _ _ hj, List.getD_eq_getElem _ _ hj'] at hcast
  exact eq_of_cast_eq (ham _ (List.getElem_mem hj)) (hbm _ (List.getElem_mem hj')) hcast

end

end Sys2Proof.Machine

/-! The transforms and the convolutions (43_fft_convolution.md). -/

namespace Sys2Proof.Machine

variable {s t u : State} {fd : FrpIx}

/-! The transform by value. -/

section
variable {w n d : Nat}

theorem point_cast (w n d k : Nat) : (point w n d k : ZMod (fermatMod w n)) = (omega w n d : ZMod (fermatMod w n)) ^ brev d k := by
  rw [point, ZMod.natCast_mod, Nat.cast_pow]

theorem transformAt_cast (w n d : Nat) (a : List Nat) (k : Nat) :
    (transformAt w n d a k : ZMod (fermatMod w n)) = polyValue a (point w n d k : ZMod (fermatMod w n)) := by
  rw [transformAt, ZMod.natCast_mod, Nat.cast_sum, polyValue]
  refine Finset.sum_congr rfl fun j _ => ?_
  rw [point_cast, ← pow_mul, Nat.mul_comm j]
  push_cast
  rfl

theorem transformAt_lt (w n d : Nat) (a : List Nat) (k : Nat) : transformAt w n d a k < fermatMod w n :=
  Nat.mod_lt _ (fermatMod_pos w n)

/-- The model's transform, by Horner's rule, is the sum of R180. -/
theorem dft_eq_transformAt (w n d : Nat) (a : List Nat) (k : Nat) : dft w n d a k = transformAt w n d a k := by
  refine eq_of_cast_eq (polyEval_lt (fermatMod_pos w n) a _) (transformAt_lt w n d a k) ?_
  rw [transformAt_cast, dft, polyEval_cast]

variable (h4 : 4 ∣ n * w) (hN : 0 < n * w) (hd : 2 ^ d ∣ rootOrder w n)
include h4 hN hd

/-- The points of R180 pairwise differ by units. -/
theorem isUnit_point_sub {l i j : Nat} (hl : l ≤ 2 ^ d) (hij : i < j) (hj : j < l) :
    IsUnit ((point w n d j : ZMod (fermatMod w n)) - point w n d i) := by
  rw [point_cast, point_cast]
  refine isUnit_omega_pow_sub h4 hN hd (brev_lt d j) (brev_lt d i) fun h => ?_
  exact hij.ne' (brev_injOn (hj.trans_le hl) ((hij.trans hj).trans_le hl) h)

/-- The model's inverse transform is the one sequence of residues of its length whose transform begins with `x` (R184). -/
theorem invDft_unique {x : List Nat} (hl : x.length ≤ 2 ^ d) (hx : ∀ v ∈ x, v < fermatMod w n) (b : List Nat) :
    (b.length = x.length ∧ (∀ v ∈ b, v < fermatMod w n) ∧ ∀ k < x.length, transformAt w n d b k = x.getD k 0)
      ↔ b = invDft w n d x := by
  have hM := fermatMod_pos w n
  have hp (i j : Nat) (hij : i < j) (hj : j < x.length) := isUnit_point_sub h4 hN hd hl hij hj
  have hone : RootsAt (m := fermatMod w n) (point w n d) 0 x.length [1] :=
    ⟨fun i hi => absurd hi (Nat.not_lt_zero i), fun i _ _ => by simp [polyValue_cons, polyValue_nil]⟩
  have hlen : (invDft w n d x).length = x.length := invDft_length w n d x
  have hlt : ∀ v ∈ invDft w n d x, v < fermatMod w n := interpolate_lt hM (List.forall_mem_nil _)
  have hval (k : Nat) (hk : k < x.length) : transformAt w n d (invDft w n d x) k = x.getD k 0 := by
    rw [List.getD_eq_getElem _ _ hk]
    refine eq_of_cast_eq (transformAt_lt _ _ _ _ _) (hx _ (List.getElem_mem hk)) ?_
    rw [transformAt_cast, ← (interpolate_values hM (Nat.zero_add _).symm hp hone (a := [])).2 k hk, Nat.zero_add]
    rfl
  constructor
  · rintro ⟨hbl, hbm, hbv⟩
    refine coeffs_of_values hp hbl hlen hbm hlt fun k hk => ?_
    rw [← transformAt_cast, ← transformAt_cast, hbv k hk, hval k hk]
  · rintro rfl
    exact ⟨hlen, hlt, hval⟩

end

/-! What a transform leaves in its slot. -/

theorem State.raw_freeFrom (s : State) (k : FrpIx) {i m : Nat} (h : i < m) : (s.freeFrom k m).raw k i = s.raw k i := by
  have hle := Nat.mul_le_mul_right (s.frpN k + 1) (Nat.succ_le_of_lt h)
  rw [Nat.succ_mul] at hle
  change (s.memFree (s.caddr k m) _).memRead (s.caddr k i) (s.frpN k + 1) = _
  refine State.memRead_memFree_of_apart s (.inr ?_)
  simp only [State.caddr]
  omega

theorem SameBlocks.writeFree (s : State) (k : FrpIx) (vs : List Nat) (m : Nat) :
    SameBlocks s ((s.writeCoeffs k vs).freeFrom k m) :=
  (SameBlocks.writeCoeffs s k vs).trans (SameBlocks.memFree _ _ _)

theorem SameBlocks.writeTransform (s : State) (k : FrpIx) (vs : List Nat) : SameBlocks s (s.writeTransform k vs) :=
  (SameBlocks.writeFree s k vs _).trans (SameBlocks.setFrpLen _ k _)

theorem State.raw_writeFree (s : State) (k : FrpIx) {vs : List Nat} {i m v : Nat} (hi : i < m) (h : vs[i]? = some v)
    (hv : v < s.modulus k) : ((s.writeCoeffs k vs).freeFrom k m).raw k i = v :=
  ((s.writeCoeffs k vs).raw_freeFrom k hi).trans (s.raw_writeCoeffs k h (hv.trans_le (s.modulus_le k)))

/-- The coefficients and the length after a transform with `m` outputs. -/
theorem State.writeTransform_result (s : State) (k : FrpIx) {m : Nat} (hm : m < 2 ^ 64) {f : Nat → Nat}
    (hf : ∀ i < m, f i < s.modulus k) :
    (s.writeTransform k ((List.range m).map f)).frpLen k = m
      ∧ ∀ i < m, (s.writeTransform k ((List.range m).map f)).raw k i = f i := by
  have hlen : ((List.range m).map f).length = m := by simp
  refine ⟨(State.frpLen_setFrpLen_same _ k (hlen.trans_lt hm)).trans hlen, fun i hi => ?_⟩
  rw [State.writeTransform, State.raw_setFrpLen]
  exact s.raw_writeFree k (hi.trans_eq hlen.symm) (by rw [List.getElem?_map, List.getElem?_range hi]; rfl) (hf i hi)

theorem exec_fft {xm : Reg} (h : (Instr.fft fd xm).ready s = true) : exec (.fft fd xm) s
    = .next ((s.writeTransform fd ((List.range (s.regNat xm)).map
      (dft s.width (s.frpN fd) (s.frpDepth fd) (s.vals fd)))).complete none) :=
  exec_of_effect_ok (fftBody_ok.2 ⟨h, rfl⟩)

/-- Settles O54. -/
theorem forwardTransform : Obligations.ForwardTransform := by
  intro s fd xm h
  obtain ⟨hlen, hraw⟩ := s.writeTransform_result fd (s.reg xm).isLt
    (f := dft s.width (s.frpN fd) (s.frpDepth fd) (s.vals fd)) fun i _ => polyEval_lt (fermatMod_pos _ _) _ _
  exact ⟨_, exec_fft h, rfl, hlen, fun k hk => (hraw k hk).trans (dft_eq_transformAt _ _ _ _ _)⟩

theorem State.vals_getD (s : State) (k : FrpIx) (i : Nat) : (s.vals k).getD i 0 = s.val k i := by
  rw [State.vals, getD_map_range]
  split
  · rfl
  · exact (s.val_of_ge (by omega)).symm

theorem State.vals_lt (s : State) (k : FrpIx) : ∀ v ∈ s.vals k, v < s.modulus k := by
  intro v hv
  obtain ⟨i, -, rfl⟩ := List.mem_map.1 hv
  exact s.val_lt_modulus k i

/-- The inverse transform of a slot in order, by the property of R184 that determines it. -/
theorem State.invDft_vals_unique (h : s.FrpReady fd) (hr : RootsExist s.width (s.frpN fd) (s.frpDepth fd)) (b : List Nat) :
    (b.length = s.frpLen fd ∧ (∀ x ∈ b, x < s.modulus fd)
        ∧ ∀ k < s.frpLen fd, transformAt s.width (s.frpN fd) (s.frpDepth fd) b k = s.val fd k)
      ↔ b = invDft s.width (s.frpN fd) (s.frpDepth fd) (s.vals fd) := by
  have hu := invDft_unique h.root.1 h.root.2 (Nat.dvd_of_mod_eq_zero hr) (x := s.vals fd)
    ((s.vals_length fd).trans_le h.1.2) (s.vals_lt fd) b
  simp only [State.vals_length, State.vals_getD] at hu
  exact hu

theorem exec_ifft (h : (Instr.ifft fd).ready s = true) :
    exec (.ifft fd) s = .next (((s.writeCoeffs fd (s.inverseOutputs fd)).freeFrom fd (s.frpLen fd)).complete none) :=
  exec_of_effect_ok (ifftBody_ok.2 ⟨h, rfl⟩)

theorem State.raw_inverse (s : State) {k : FrpIx} {j : Nat} (hj : j < s.frpLen k) :
    ((s.writeCoeffs k (s.inverseOutputs k)).freeFrom k (s.frpLen k)).raw k j
      = 2 ^ s.frpDepth k * (invDft s.width (s.frpN k) (s.frpDepth k) (s.vals k)).getD j 0 % s.modulus k := by
  refine s.raw_writeFree k hj ?_ (Nat.mod_lt _ (s.modulus_pos k))
  have hlen : j < (invDft s.width (s.frpN k) (s.frpDepth k) (s.vals k)).length := by rwa [invDft_length, State.vals_length]
  rw [State.inverseOutputs, List.getElem?_map, List.getElem?_eq_getElem hlen, List.getD_eq_getElem _ _ hlen]
  rfl

/-- Settles O55. -/
theorem inverseTransform : Obligations.InverseTransform := by
  intro s fd h
  have hready := h
  simp only [Instr.ready, decide_eq_true_eq] at hready
  obtain ⟨hfrp, hroots, -⟩ := hready
  exact ⟨_, _, exec_ifft h, rfl, s.frpLen_writeCoeffs fd _ fd, State.invDft_vals_unique hfrp hroots,
    fun j => s.raw_inverse⟩

/-! The round trip (R184). -/

/-- The values of a slot, zero-padded to `m` entries. -/
def State.padded (s : State) (k : FrpIx) (m : Nat) : List Nat := (List.range m).map (s.val k)

theorem State.padded_length (s : State) (k : FrpIx) (m : Nat) : (s.padded k m).length = m := by simp [State.padded]

theorem State.padded_getD (s : State) (k : FrpIx) {m : Nat} (h : s.frpLen k ≤ m) (i : Nat) :
    (s.padded k m).getD i 0 = s.val k i := by
  rw [State.padded, getD_map_range]
  split
  · rfl
  · exact (s.val_of_ge (by omega)).symm

theorem transformAt_padded (s : State) (k : FrpIx) {m : Nat} (h : s.frpLen k ≤ m) (i : Nat) :
    transformAt s.width (s.frpN k) (s.frpDepth k) (s.padded k m) i
      = transformAt s.width (s.frpN k) (s.frpDepth k) (s.vals k) i := by
  refine eq_of_cast_eq (transformAt_lt _ _ _ _ _) (transformAt_lt _ _ _ _ _) ?_
  rw [transformAt_cast, transformAt_cast, polyValue_eq_sum ((s.vals_length k).trans_le h), polyValue, State.padded_length]
  simp only [State.padded_getD s k h, State.vals_getD]

/-- After `FFT` to at least the input's length the inverse transform of the slot is the padded input. -/
theorem invDft_of_transformed (hsame : SameBlocks s t) {m : Nat} (hs : s.FrpReady fd)
    (hroots : RootsExist s.width (s.frpN fd) (s.frpDepth fd)) (hm : s.frpLen fd ≤ m) (hmax : m ≤ s.frpSize fd)
    (hlen : t.frpLen fd = m)
    (hraw : ∀ k < m, t.raw fd k = transformAt s.width (s.frpN fd) (s.frpDepth fd) (s.vals fd) k) :
    invDft t.width (t.frpN fd) (t.frpDepth fd) (t.vals fd) = s.padded fd m := by
  have hready : t.FrpReady fd := hsame.ready hs (hlen.trans_le hmax)
  have hr : RootsExist t.width (t.frpN fd) (t.frpDepth fd) := by rwa [hsame.width, hsame.n, hsame.depth]
  refine ((State.invDft_vals_unique hready hr _).1 ⟨(s.padded_length fd m).trans hlen.symm, fun v hv => ?_, fun k hk => ?_⟩).symm
  · obtain ⟨i, -, rfl⟩ := List.mem_map.1 hv
    exact hsame.modulus fd ▸ s.val_lt_modulus fd i
  · have hk' : k < m := hlen ▸ hk
    have hlt : t.raw fd k < t.modulus fd := by
      rw [hraw k hk', hsame.modulus]
      exact transformAt_lt _ _ _ _ _
    rw [t.val_of_raw hk hlt, hraw k hk', hsame.width, hsame.n, hsame.depth, transformAt_padded s fd hm]

/-- Removing the factor `2^depth` that the inverse transform leaves. -/
theorem eq_of_mul_two_pow {k : FrpIx} (h : s.FrpReady k) {a b e : Nat} (ha : a < s.modulus k) (hb : b < s.modulus k)
    (heq : a * 2 ^ e % s.modulus k = 2 ^ e * b % s.modulus k) : a = b := by
  have hunit : IsUnit ((2 : ZMod (s.modulus k)) ^ e) := (isUnit_two_fermat h.root.2).pow e
  rw [← ZMod.natCast_eq_natCast_iff', Nat.cast_mul, Nat.cast_mul, Nat.cast_pow, Nat.cast_two, mul_comm] at heq
  exact eq_of_cast_eq ha hb (hunit.mul_left_cancel heq)

/-- What a completed `FFT` says of the slot before and after. -/
theorem exec_fft_ok {xm : Reg} (h : exec (.fft fd xm) s = .next t) (herr : t.err = 0) :
    s.FrpReady fd ∧ s.regNat xm ≤ s.frpSize fd ∧ RootsExist s.width (s.frpN fd) (s.frpDepth fd) ∧ 1 ≤ s.frpScratch fd
      ∧ SameBlocks s t ∧ t.frpLen fd = s.regNat xm
      ∧ ∀ k < s.regNat xm, t.raw fd k = transformAt s.width (s.frpN fd) (s.frpDepth fd) (s.vals fd) k := by
  obtain ⟨r, hr, rfl⟩ := exec_ok_of_err_zero h herr
  obtain ⟨hready, rfl⟩ := fftBody_ok.1 hr
  obtain ⟨t', ht', -, hlen, hraw⟩ := forwardTransform s fd xm hready
  obtain rfl := Host.Outcome.next.inj (ht'.symm.trans h)
  simp only [Instr.ready, decide_eq_true_eq] at hready
  obtain ⟨hs, hmax, hroots, hscratch, -⟩ := hready
  exact ⟨hs, hmax, hroots, hscratch, (SameBlocks.writeTransform s fd _).complete none, hlen, hraw⟩

/-- What a completed `IFFT` says of the slot before and after. -/
theorem exec_ifft_ok (h : exec (.ifft fd) s = .next t) (herr : t.err = 0) :
    SameBlocks s t ∧ t.frpLen fd = s.frpLen fd ∧ ∀ j < s.frpLen fd, t.raw fd j
      = 2 ^ s.frpDepth fd * (invDft s.width (s.frpN fd) (s.frpDepth fd) (s.vals fd)).getD j 0 % s.modulus fd := by
  obtain ⟨r, hr, rfl⟩ := exec_ok_of_err_zero h herr
  obtain ⟨-, rfl⟩ := ifftBody_ok.1 hr
  exact ⟨(SameBlocks.writeFree s fd _ _).complete none, s.frpLen_writeCoeffs fd _ fd, fun j => s.raw_inverse⟩

/-- What `FRESCALE` leaves in a slot in order. -/
theorem exec_frescale_ok (h : exec (.frescale fd) s = .next t) (hs : s.FrpReady fd) :
    t.err = 0 ∧ SameBlocks s t ∧ t.frpLen fd = s.frpLen fd ∧ ∀ i < s.frpLen fd, t.raw fd i < s.modulus fd
      ∧ t.raw fd i * 2 ^ s.frpDepth fd % s.modulus fd = s.val fd i := by
  obtain ⟨t', ht', herr, hlen, hraw⟩ := rescaleRemovesDepth s fd hs
  obtain rfl := Host.Outcome.next.inj (ht'.symm.trans h)
  obtain rfl := Host.Outcome.next.inj ((exec_frescale hs).symm.trans h)
  exact ⟨herr, (SameBlocks.writeCoeffs s fd _).complete none, hlen, hraw⟩

/-- Under the default table `IFFT` has no scratch demand, so it completes without error where an `FFT` has. -/
theorem exec_ifft_default (hs : s.FrpReady fd) (hr : RootsExist s.width (s.frpN fd) (s.frpDepth fd))
    (hscratch : 1 ≤ s.frpScratch fd) (hd : s.params.scrTable = .default) (h : exec (.ifft fd) s = .next t) : t.err = 0 := by
  have hfits : s.ScratchFits (.ifft fd) := (s.scrNeed_default hd _).trans_le (Nat.zero_le _)
  obtain rfl := Host.Outcome.next.inj ((exec_ifft (decide_eq_true ⟨hs, hr, hscratch, hfits⟩)).symm.trans h)
  rfl

/-- Settles O56: the slot's values after `FFT` are those of the padded input, which the inverse transform gives back times
`2^depth`, and `FRESCALE` removes that factor. -/
theorem transformRoundTrip : Obligations.TransformRoundTrip := by
  intro s t u v fd xm hm hf ht hi hv
  obtain ⟨hs, hmax, hroots, hscratch, hst, htlen, htraw⟩ := exec_fft_ok hf ht
  have hready : t.FrpReady fd := hst.ready hs (htlen.trans_le hmax)
  refine ⟨fun hd => ?_, fun hu => ?_⟩
  · refine exec_ifft_default hready ?_ ((hst.scratch fd).symm ▸ hscratch) (hst.params.symm ▸ hd) hi
    rwa [hst.width, hst.n, hst.depth]
  · obtain ⟨htu, hulen, huraw⟩ := exec_ifft_ok hi hu
    rw [invDft_of_transformed hst hs hroots hm hmax htlen htraw, hst.depth, hst.modulus] at huraw
    have hsu : SameBlocks s u := hst.trans htu
    have hul : u.frpLen fd = s.regNat xm := hulen.trans htlen
    obtain ⟨hv0, huv, hvlen, hvraw⟩ := exec_frescale_ok hv (hsu.ready hs (hul.trans_le hmax))
    have hvl : v.frpLen fd = s.regNat xm := hvlen.trans hul
    rw [hsu.modulus, hsu.depth, hul] at hvraw
    refine ⟨hv0, hvl, fun i => ?_⟩
    rcases Nat.lt_or_ge i (s.regNat xm) with hilt | hige
    · obtain ⟨hlt, htimes⟩ := hvraw i hilt
      have huval : u.val fd i = 2 ^ s.frpDepth fd * s.val fd i % s.modulus fd := by
        have hr := huraw i (hilt.trans_eq htlen.symm)
        rw [s.padded_getD fd hm] at hr
        rw [u.val_of_raw (hul.symm ▸ hilt) (by rw [hr, hsu.modulus]; exact Nat.mod_lt _ (s.modulus_pos fd)), hr]
      rw [v.val_of_raw (hvl.symm ▸ hilt) (by rwa [huv.modulus, hsu.modulus])]
      exact eq_of_mul_two_pow hs hlt (s.val_lt_modulus fd i) (htimes.trans huval)
    · rw [v.val_of_ge (hvl.trans_le hige), s.val_of_ge (hm.trans hige)]

/-! Convolutions (R185, R186). -/

theorem SameBlocks.freeBlock (s : State) (k : FrpIx) : SameBlocks s (s.freeBlock k) := SameBlocks.memFree s _ _

theorem cyclicCoeff_lt {m : Nat} (hm : 0 < m) (size : Nat) (a b : List Nat) (k : Nat) : cyclicCoeff m size a b k < m :=
  Nat.mod_lt _ hm

theorem negacyclicCoeff_lt {m : Nat} (hm : 0 < m) (size : Nat) (a b : List Nat) (k : Nat) : negacyclicCoeff m size a b k < m :=
  natMod_lt hm _

theorem cyclicCoeff_vals (s : State) (fa fb : FrpIx) (m size k : Nat) : cyclicCoeff m size (s.vals fa) (s.vals fb) k
    = (∑ i ∈ Finset.range (s.frpLen fa), ∑ j ∈ Finset.range (s.frpLen fb),
      if (i + j) % size = k then s.val fa i * s.val fb j else 0) % m := by
  simp only [cyclicCoeff, sumN_eq_sum, State.vals_length, State.vals_getD]

/-- The two wrap conditions of the negacyclic product exclude each other. -/
theorem negacyclic_term {i j k size : Nat} (hs : 0 < size) (x : Int) :
    (if i + j = k then x else if i + j = k + size then -x else 0)
      = (if i + j = k then x else 0) - if i + j = k + size then x else 0 := by
  by_cases h : i + j = k
  · rw [if_pos h, if_pos h, if_neg (by omega), sub_zero]
  · rw [if_neg h, if_neg h]
    split <;> simp

theorem negacyclicCoeff_vals (s : State) (fa fb : FrpIx) {m size : Nat} (hm : 0 < m) (hs : 0 < size) (k : Nat) :
    (negacyclicCoeff m size (s.vals fa) (s.vals fb) k : Int)
      = ((∑ i ∈ Finset.range (s.frpLen fa), ∑ j ∈ Finset.range (s.frpLen fb),
          if i + j = k then (s.val fa i * s.val fb j : Int) else 0)
        - ∑ i ∈ Finset.range (s.frpLen fa), ∑ j ∈ Finset.range (s.frpLen fb),
          if i + j = k + size then (s.val fa i * s.val fb j : Int) else 0) % (m : Int) := by
  rw [negacyclicCoeff, natMod_cast hm]
  simp only [sumN_eq_sum, State.vals_length, State.vals_getD, negacyclic_term hs, Finset.sum_sub_distrib, Nat.cast_mul]

/-- What a convolution with coefficients `coeff` leaves. -/
theorem exec_conv {i : Instr} {fa fb : FrpIx} {xm : Reg} {extra : Nat} {coeff : Nat → Nat → List Nat → List Nat → Nat → Nat}
    (he : i.effect s = convBody fd fa fb xm extra i coeff s) (h : s.ConvReady fd fa fb (s.regNat xm) extra i)
    (hc : ∀ k, coeff (s.modulus fd) (s.frpSize fd) (s.vals fa) (s.vals fb) k < s.modulus fd) :
    ∃ t, exec i s = .next t ∧ t.err = 0 ∧ t.frpLen fd = s.regNat xm
      ∧ ∀ k < s.regNat xm, t.raw fd k = coeff (s.modulus fd) (s.frpSize fd) (s.vals fa) (s.vals fb) k := by
  have hfree : SameBlocks s ((s.freeBlock fa).freeBlock fb) := (SameBlocks.freeBlock s fa).trans (SameBlocks.freeBlock _ fb)
  obtain ⟨hlen, hraw⟩ := ((s.freeBlock fa).freeBlock fb).writeTransform_result fd (s.reg xm).isLt
    (f := coeff (s.modulus fd) (s.frpSize fd) (s.vals fa) (s.vals fb)) fun k _ => hfree.modulus fd ▸ hc k
  exact ⟨_, exec_of_effect_ok (he.trans (convBody_ok.2 ⟨h, rfl⟩)), rfl, hlen, hraw⟩

/-- Settles O57. -/
theorem convolutions : Obligations.Convolutions := by
  constructor
  · intro s fd fa fb xm h
    obtain ⟨t, ht, herr, hlen, hraw⟩ := exec_conv (i := .cconv fd fa fb xm) (coeff := cyclicCoeff) rfl (of_decide_eq_true h)
      fun k => cyclicCoeff_lt (s.modulus_pos fd) _ _ _ k
    exact ⟨t, ht, herr, hlen, fun k hk => (hraw k hk).trans (cyclicCoeff_vals s fa fb _ _ k)⟩
  · intro s fd fa fb xm h
    obtain ⟨t, ht, herr, hlen, hraw⟩ := exec_conv (i := .nconv fd fa fb xm) (coeff := negacyclicCoeff) rfl (of_decide_eq_true h)
      fun k => negacyclicCoeff_lt (s.modulus_pos fd) _ _ _ k
    exact ⟨t, ht, herr, hlen, fun k hk => (congrArg Nat.cast (hraw k hk)).trans
      (negacyclicCoeff_vals s fa fb (s.modulus_pos fd) (Nat.two_pow_pos _) k)⟩

end Sys2Proof.Machine
